-- ==== Sys2Proof/Word.lean ====
section
/-!
DEFINITION. The word types of CBSEQ (spec/00_scope.md R6 "Fixed sizes", section 6) and the widths a
port transaction can have.
-/

namespace Sys2Proof

/-- A data word, a pointer, a count, the control-flags word or a device address: 32 bits (R6). -/
abbrev Word := BitVec 32

/-- A byte of a command frame or of the buffer memory. -/
abbrev Byte := BitVec 8

/-- The width of a port transaction. CBSEQ uses `byte` and `word` only (R44, R45); `half` exists so
that a host transaction of a width that is no CBSEQ transaction can be written down and refused
(R10). -/
inductive Width where
  | byte
  | half
  | word
  deriving DecidableEq, Repr, Inhabited

/-- The width in bytes. -/
def Width.bytes : Width → Nat
  | .byte => 1
  | .half => 2
  | .word => 4

/-- The direction of a port transaction, seen from its master. -/
inductive Dir where
  | read
  | write
  deriving DecidableEq, Repr, Inhabited

/-- One port transaction (R40): "it has an address, a width in bytes, a direction, and a value".
The value of a byte transaction stands in the low eight bits of `value`, the others being zero. -/
structure Access where
  dir : Dir
  addr : Word
  width : Width
  value : Word
  deriving DecidableEq, Repr, Inhabited

end Sys2Proof
end

