-- ==== Sys2Proof/Config.lean ====
section
/-!
DEFINITION. What an implementation of CBSEQ fixes (spec/00_scope.md R6, R7) and what its surroundings
answer (spec/20_memory.md R45, R55, spec/70_reset_and_hazards.md R202). The model is written for ANY
`World`; `Config.world` is the one that `step` and `exec` run in, and nothing is known of it but that
its parameters are legal.
-/

namespace Sys2Proof

/-- The two legal values of `OPCODE_POS` (R6): the opcode is byte 0 or byte 7 of FRAME. -/
inductive OpcodePos where
  | byte0
  | byte7
  deriving DecidableEq, Repr, Inhabited

/-- The implementation parameters of R6, under their own names, and `oneSpace`, which is the
antecedent of R54(b): whether on this platform the spaces of ports B, M and H are one physical address
space (DEDUCED from R54, log entry 5). `pollLimit = none` is the spec's `INF`. -/
structure Params where
  hostBase : Word
  enAddr : Word
  cmdBase : Word
  ctrlAddr : Word
  dataAddr : Word
  busyBit : Fin 32
  drdyBit : Fin 32
  enValue : Byte
  opcodePos : OpcodePos
  issueMirror : Bool
  hasCksum : Bool
  fillLast : Bool
  pollLimit : Option Word
  oneSpace : Bool
  deriving DecidableEq, Repr, Inhabited

/-- The address of byte `k` of command sub-register space, `CMD_BASE + k` (R6, R26). -/
def Params.cmdAddr (p : Params) (k : Fin 8) : Word := p.cmdBase + BitVec.ofNat 32 k.val

/-- The bytes of port B's registers: EN, CMD[0..7], CTRL, DATA (R41). -/
def Params.busBytes (p : Params) : List Word :=
  p.enAddr :: ((List.range 8).map fun k => p.cmdBase + BitVec.ofNat 32 k)
    ++ ((List.range 4).map fun k => p.ctrlAddr + BitVec.ofNat 32 k)
    ++ ((List.range 4).map fun k => p.dataAddr + BitVec.ofNat 32 k)

/-- The bytes of the host register block: 64 bytes from `HOST_BASE` (R10, R52). -/
def Params.hostBytes (p : Params) : List Word :=
  (List.range 64).map fun k => p.hostBase + BitVec.ofNat 32 k

/-- The constraints on a configuration (R6, R47, R52, R111). A configuration that breaks one "is not a
CBSEQ" (spec/93_implementation_defined.md U22). -/
abbrev Params.Legal (p : Params) : Prop :=
  p.hostBase.toNat % 64 = 0 ∧ p.ctrlAddr.toNat % 4 = 0 ∧ p.dataAddr.toNat % 4 = 0 ∧
    p.busyBit ≠ p.drdyBit ∧ p.busBytes.Nodup ∧ p.pollLimit ≠ some 0

/-- The reference configuration REF of spec/00_scope.md section 5. Its numbers are examples: the model
uses it in tests, and as the value `Config.params` falls back to when the unknown draw is not legal. -/
def Params.ref : Params where
  hostBase := 0x80000000
  enAddr := 0x040001A1
  cmdBase := 0x040001A8
  ctrlAddr := 0x040001A4
  dataAddr := 0x04100010
  busyBit := 31
  drdyBit := 23
  enValue := 0xC0
  opcodePos := .byte0
  issueMirror := false
  hasCksum := true
  fillLast := true
  pollLimit := none
  oneSpace := false

/-- Everything outside CBSEQ's own state that decides what a step does: the wiring, the environment
behind port B, which addresses have memory behind them, and the bytes that memory holds before anyone
writes it. -/
structure World where
  params : Params
  /-- The oracle of R55: from the history of port B transactions so far (newest first) and the address
  of a port B read, the 32 bits the environment answers. -/
  answer : List Access → Word → Word
  /-- Which byte addresses the platform backs with memory (R45, U21). -/
  backed : Word → Bool
  /-- What a byte of buffer memory that nothing has written holds (unspecified, R202). -/
  powerOn : Word → Byte

/-- Every byte of an access of this width at `a` has memory behind it (R45, U21); the byte addresses are
taken modulo 2^32. A word stands or falls whole: log entry 10. -/
def World.backs (w : World) (a : Word) (width : Width) : Bool :=
  (List.range width.bytes).all fun k => w.backed (a + BitVec.ofNat 32 k)

/-- FREE VALUE: the draw from which the configuration is taken. No body: nothing is known of it. -/
opaque Config.rawParams : Params

/-- FREE VALUE: the environment's answers (R55, U8, U9, U14). No body: nothing is known of it. -/
opaque Config.answer : List Access → Word → Word

/-- FREE VALUE: the platform's map of memory (R45, U21, log entry 10). No body. -/
opaque Config.backed : Word → Bool

/-- FREE VALUE: the unspecified contents of buffer memory (R202, log entry 2). No body. -/
opaque Config.powerOn : Word → Byte

/-- The configuration of the machine: any legal one (R7), none in particular. The draw counts when it
is legal; a draw that is not is "not a CBSEQ" (U22) and REF stands in for it. -/
def Config.params : Params := if Config.rawParams.Legal then Config.rawParams else Params.ref

/-- The world that `Sys2Proof.Machine.exec` and `Sys2Proof.Machine.step` run in. -/
def Config.world : World := ⟨Config.params, Config.answer, Config.backed, Config.powerOn⟩

end Sys2Proof
end

