-- ==== Sys2Proof/Syntax.lean ====
section
/-!
DEFINITION. The operations of CBSEQ (spec/30_encoding.md R70, R71): one constructor per row of
spec/opcode_table.json.
-/

namespace Sys2Proof

/-- An operation with its immediate. CMDOP is "the only immediate; it is an unsigned 8-bit value used
as it stands" (R70); every other operand comes from an operand register. -/
inductive Instr where
  /-- BUILD cc: build a plain command frame (R91). -/
  | build (cmdop : Byte)
  /-- BUILDC cc: build the checksum-bearing closing frame (R93). -/
  | buildc (cmdop : Byte)
  /-- WAITRDY: issue FRAME until the card answers a zero word (R112). -/
  | waitrdy
  /-- XFERRD: run one command and store the words the card returns (R135). -/
  | xferrd
  /-- XFERWR: run one command and feed it words from the buffer (R140). -/
  | xferwr
  deriving DecidableEq, Repr

end Sys2Proof
end

