-- ==== Sys2Proof/WellFormed.lean ====
section
/-!
DEFINITION. Which operations exist on which configuration (spec/30_encoding.md R72). The widths of the
operands are in the types, so one check is left: BUILDC needs `HAS_CKSUM`.
-/

namespace Sys2Proof

/-- An operation is well formed on a configuration when its word is legal there (R72): BUILDC only
where `HAS_CKSUM` is true, every other operation always. -/
def Instr.wellFormed (p : Params) : Instr → Bool
  | .build _ => true
  | .buildc _ => p.hasCksum
  | .waitrdy => true
  | .xferrd => true
  | .xferwr => true

end Sys2Proof
end

