-- ==== Sys2Proof/Decode.lean ====
section
/-!
DEFINITION. The operation word OPW: the decoder and, after it, the encoder (spec/30_encoding.md R70 to
R73, R82). Selecting a row (R71) needs no configuration; whether the word is legal (R72) does.
-/

namespace Sys2Proof

/-- Why a word selects no row of the operation table (R70, R71, R82). -/
inductive Reject where
  /-- Bits 31:16 are reserved and must be 0. -/
  | reservedNotZero
  /-- FN is 0x00 or 0x06 to 0xFF. -/
  | unknownFunction
  /-- CMDOP must be 0 for every operation but BUILD and BUILDC. -/
  | cmdopNotZero
  deriving DecidableEq, Repr

/-- The field FN, bits 7:0 (R70). -/
def fnField (v : Word) : Byte := v.extractLsb' 0 8

/-- The field CMDOP, bits 15:8 (R70). -/
def cmdopField (v : Word) : Byte := v.extractLsb' 8 8

/-- The reserved field, bits 31:16 (R70). -/
def reservedField (v : Word) : BitVec 16 := v.extractLsb' 16 16

/-- An operation without an immediate: its word has CMDOP 0 (R70). -/
def withoutCmdop (v : Word) (i : Instr) : Except Reject Instr :=
  if cmdopField v = 0 then .ok i else .error .cmdopNotZero

/-- The row of R71 that a 32-bit word selects, or why it selects none. Total on every word (R73). -/
def decode (v : Word) : Except Reject Instr :=
  if reservedField v ≠ 0 then .error .reservedNotZero
  else if fnField v = 0x01 then .ok (.build (cmdopField v))
  else if fnField v = 0x02 then .ok (.buildc (cmdopField v))
  else if fnField v = 0x03 then withoutCmdop v .waitrdy
  else if fnField v = 0x04 then withoutCmdop v .xferrd
  else if fnField v = 0x05 then withoutCmdop v .xferwr
  else .error .unknownFunction

/-- A word is legal (R72) when it selects a row and, for BUILDC, the configuration has `HAS_CKSUM`. -/
def legalWord (p : Params) (v : Word) : Bool :=
  match decode v with
  | .ok i => i.wellFormed p
  | .error _ => false

/-- The word with FN `fn` and CMDOP `cc`, reserved bits 0 (R70). -/
def opWord (cc fn : Byte) : Word := (0#16 ++ cc) ++ fn

/-- The operation word of an operation (R71, R83). -/
def encode : Instr → Word
  | .build cc => opWord cc 0x01
  | .buildc cc => opWord cc 0x02
  | .waitrdy => opWord 0x00 0x03
  | .xferrd => opWord 0x00 0x04
  | .xferwr => opWord 0x00 0x05

/-- One row of the operation table: the word `v` selects it when `v & mask == bits` (R71). -/
structure OpRow where
  mnemonic : String
  bits : Word
  mask : Word
  deriving DecidableEq, Repr

/-- The table of R71. -/
def opRows : List OpRow :=
  [⟨"BUILD", 0x00000001, 0xFFFF00FF⟩, ⟨"BUILDC", 0x00000002, 0xFFFF00FF⟩,
    ⟨"WAITRDY", 0x00000003, 0xFFFFFFFF⟩, ⟨"XFERRD", 0x00000004, 0xFFFFFFFF⟩,
    ⟨"XFERWR", 0x00000005, 0xFFFFFFFF⟩]

/-- The mnemonic of an operation (R71). -/
def Instr.mnemonic : Instr → String
  | .build _ => "BUILD"
  | .buildc _ => "BUILDC"
  | .waitrdy => "WAITRDY"
  | .xferrd => "XFERRD"
  | .xferwr => "XFERWR"

/-- What `decode` reads from a table row's bits. An operation word is the 32-bit value of a host
write (R53, R70), so the number is the word; bits the row does not give are 0, and a longer or wider
number is no operation word. -/
def decodeTableWord (nbits w : Nat) : Option Instr :=
  if nbits ≤ 32 then
    if w < 2 ^ nbits then (decode (BitVec.ofNat 32 w)).toOption else none
  else none

end Sys2Proof
end

