-- ==== Sys2Proof/Machine/State.lean ====
section
/-!
DEFINITION. The state of the machine. `Cbseq` is the block's own state, register for register the table
of spec/10_state.md section 1; `State` puts beside it what surrounds the block in a run: the buffer
memory, what the outside world is about to do, and the record of transactions that the environment's
answers depend on (R55). R35 keeps these three out of CBSEQ, so they are no fields of `Cbseq`.
-/

namespace Sys2Proof.Machine

/-- The micro-sequencer phase PH (R20). -/
inductive Phase where
  | idle
  | issEn
  | issCmd (t : Fin 8)
  | start
  | poll
  | data
  | mem (k : Fin 4)
  deriving DecidableEq, Repr

/-- OPK: the kind of the running operation (R33). -/
inductive OpKind where
  | none
  | waitrdy
  | xferrd
  | xferwr
  deriving DecidableEq, Repr

/-- The five used bits of STAT (R14). Bits 31:5 read as 0 and ignore writes, so they hold nothing. -/
structure Stat where
  run : Bool
  done : Bool
  tmo : Bool
  ill : Bool
  ovr : Bool
  deriving DecidableEq, Repr

/-- The command frame FRAME[0..7] (R19, R74). -/
abbrev Frame := Vector Byte 8

/-- Every register of CBSEQ, under the spec's own names (R13 to R23, R30 to R33, R36). -/
structure Cbseq where
  op : Word
  stat : Stat
  addr : Word
  flags : Word
  buf : Word
  wcnt : Word
  frame : Frame
  /-- I: buffer words moved, read by the host as XCNT (R22). -/
  i : Word
  /-- N: poll cycles made, read by the host as PCNT (R23). -/
  n : Word
  ph : Phase
  opk : OpKind
  /-- S: the last CTRL read (R33). -/
  s : Word
  /-- W: the data word in flight (R33). -/
  w : Word
  last : Word
  ready : Bool
  aln : Bool
  deriving DecidableEq, Repr

/-- The reset values of R36. -/
def Cbseq.reset : Cbseq where
  op := 0
  stat := ⟨false, false, false, false, false⟩
  addr := 0
  flags := 0
  buf := 0
  wcnt := 0
  frame := #v[0, 0, 0, 0, 0, 0, 0, 0]
  i := 0
  n := 0
  ph := .idle
  opk := .none
  s := 0
  w := 0
  last := 0
  ready := false
  aln := false

/-- Something the outside world does to the machine between two turns of CBSEQ. -/
inductive Input where
  /-- A host write on port H at `HOST_BASE + off` (R12). -/
  | write (off : Word) (width : Width) (value : Word)
  /-- A host read on port H at `HOST_BASE + off` (R11). -/
  | read (off : Word) (width : Width)
  /-- The host reads STAT until RUN reads 0 (R83). -/
  | sync
  /-- The host, which owns the buffer memory (R5), writes one byte of it. -/
  | poke (addr : Word) (value : Byte)
  /-- The host reads one byte of the buffer memory. -/
  | peek (addr : Word)
  /-- Reset (R200, R201). -/
  | reset
  deriving DecidableEq, Repr

/-- An input, and how many turns CBSEQ takes before it arrives. Inputs fall "between two steps of
CBSEQ" (R186), so a list of these is one interleaving of the host with CBSEQ, and every interleaving
is some list. -/
structure Pending where
  after : Nat
  input : Input
  deriving DecidableEq, Repr

/-- One entry of the record of what happened on the ports. -/
inductive Event where
  /-- A transaction of CBSEQ on port B. -/
  | bus (a : Access)
  /-- A transaction of CBSEQ on port M. -/
  | mem (a : Access)
  /-- A transaction of the host on port H; `addr` is the offset from `HOST_BASE`. -/
  | host (a : Access)
  /-- An access of the host to the buffer memory. -/
  | own (a : Access)
  /-- Reset arrived. -/
  | reset
  deriving DecidableEq, Repr

/-- The state of a run. -/
structure State where
  /-- The block. -/
  cb : Cbseq
  /-- The buffer memory, in the 2^32 byte addresses behind port M (R41): the bytes that have been
  written, in rising order of address. -/
  mem : List Host.Cell
  /-- What the outside world does next, first input first. -/
  inputs : List Pending
  /-- Every port transaction so far, newest first (R40, R50, R55). -/
  trace : List Event
  deriving DecidableEq, Repr

/-- The machine right after reset (R36, R200): CBSEQ at its reset values, no transaction made, no
input waiting, no byte of memory written. -/
def State.reset : State := ⟨Cbseq.reset, [], [], []⟩

/-- Reasons to stop with a fault. -/
inductive Fault where
  /-- PH and OPK name no row of R20's phase table (a running phase with OPK NONE, or MEM under
  WAITRDY), so no step is defined. Raised by the sequencer; never from a state that meets
  `Safety.Inv`, hence never in a run from reset. Safe: the machine stops. -/
  | noPhaseRow
  /-- STUCK: the running transfer's port M transaction is at an address that the platform does not back
  with memory. The spec's words: "CBSEQ stuck at that transaction" (R45), and stuck is "the model has no
  step: the run does not continue" (U21). Raised by the port M operations, nothing of the transaction
  done. Safe: the machine stops. -/
  | unbackedMemory
  deriving DecidableEq, Repr

/-- Reasons to refuse. -/
inductive Refusal where
  /-- The instruction has no meaning yet. Raised by no arm of this model. Safe. -/
  | notModelled (mnemonic : String)
  /-- A host transaction that is not an aligned 32-bit one inside the host register block
  (R10, U11: "refuse"). Raised by the host port. Safe: the spec defines nothing there. -/
  | badHostAccess
  /-- A port B transaction of a shape that R44 does not list (U7: "refuse"). Raised by the port B
  operations; never reached. Safe: it shows a mistake in the model as a refusal. -/
  | badBusAccess
  /-- A 32-bit port M transaction at an address that is no multiple of 4 (U1: "refuse"). Raised by the
  port M operations; never from a state that meets `Safety.Inv`. Safe. -/
  | misalignedWord
  /-- A transfer whose buffer contains a port B register or the host block, on a platform where the
  spaces are one (R54(b), U10: "refuse the launch"). Raised by XFERRD and XFERWR. Safe. -/
  | bufferOverlapsRegisters
  /-- The host itself accesses, as memory, a port B register or the host block on such a platform
  (R54(c): the environment has "no other writer"). Raised by the host's memory accesses. Safe. -/
  | hostTouchesRegisters
  /-- The host itself accesses, as memory, a byte that the platform does not back with memory (R5: the
  host owns the buffer memory, and there is none there; log entry 10). Raised by the host's memory
  accesses. Safe: the spec defines nothing there. -/
  | hostTouchesUnbacked
  deriving DecidableEq, Repr

/-- What a step, or a part of one, answers. -/
abbrev Res := Host.Outcome State Fault Refusal

end Sys2Proof.Machine
end

