-- ==== Sys2Proof/Machine/Operands.lean ====
section
/-!
DEFINITION. The operand forms of CBSEQ: bytes of a word, the frame's two host views and its mirror
image, the buffer slot a transfer is at, and the map of the host register block.
-/

namespace Sys2Proof.Machine

/-- Byte `k` of a word, `w[8k+7:8k]` (R46). -/
def byteOf (w : Word) (k : Fin 4) : Byte := w.extractLsb' (8 * k.val) 8

/-- `{b3, b2, b1, b0}`: a word from its bytes, least significant first (R46, R132). -/
def wordOf (b0 b1 b2 b3 : Byte) : Word := ((b3 ++ b2) ++ b1) ++ b0

/-- `w` with byte `k` replaced. -/
def setByte (w : Word) (k : Fin 4) (b : Byte) : Word :=
  match k with
  | 0 => wordOf b (byteOf w 1) (byteOf w 2) (byteOf w 3)
  | 1 => wordOf (byteOf w 0) b (byteOf w 2) (byteOf w 3)
  | 2 => wordOf (byteOf w 0) (byteOf w 1) b (byteOf w 3)
  | 3 => wordOf (byteOf w 0) (byteOf w 1) (byteOf w 2) b

/-- The value field of a byte transaction. -/
def byteValue (b : Byte) : Word := b.setWidth 32

/-- The next phase of Issue after FRAME[t] (R20): the next byte, or START after the eighth. -/
def afterIssue (t : Fin 8) : Phase :=
  if h : t.val + 1 < 8 then .issCmd ⟨t.val + 1, h⟩ else .start

/-- The phase after byte `k` of the byte path, or `last` after the fourth (R131, R132). -/
def afterByte (k : Fin 4) : Option (Fin 4) :=
  if h : k.val + 1 < 4 then some ⟨k.val + 1, h⟩ else none

/-- The frame read from its other end. -/
def Frame.mirror (f : Frame) : Frame := #v[f[7], f[6], f[5], f[4], f[3], f[2], f[1], f[0]]

/-- FRAME_LO, `{FRAME[3], FRAME[2], FRAME[1], FRAME[0]}` (R11, R19). -/
def Frame.lo (f : Frame) : Word := wordOf f[0] f[1] f[2] f[3]

/-- FRAME_HI, `{FRAME[7], FRAME[6], FRAME[5], FRAME[4]}` (R11, R19). -/
def Frame.hi (f : Frame) : Word := wordOf f[4] f[5] f[6] f[7]

/-- FRAME after a host write of `v` to FRAME_LO (R12). -/
def Frame.setLo (f : Frame) (v : Word) : Frame :=
  #v[byteOf v 0, byteOf v 1, byteOf v 2, byteOf v 3, f[4], f[5], f[6], f[7]]

/-- FRAME after a host write of `v` to FRAME_HI (R12). -/
def Frame.setHi (f : Frame) (v : Word) : Frame :=
  #v[f[0], f[1], f[2], f[3], byteOf v 0, byteOf v 1, byteOf v 2, byteOf v 3]

/-- Where Issue writes FRAME[t]: CMD[t], or CMD[7-t] with `ISSUE_MIRROR` (R96). -/
def cmdIndex (p : Params) (t : Fin 8) : Fin 8 := if p.issueMirror then t.rev else t

/-- The wire frame: what CMD[0..7] hold after Issue (R78). -/
def wireFrame (p : Params) (f : Frame) : Frame := if p.issueMirror then Frame.mirror f else f

/-- `BUF[1:0] == 0` (R32, R47). -/
def isAligned (buf : Word) : Bool := buf.extractLsb' 0 2 == 0

/-- HasSlot: `(BUF != 0) and (I < WCNT)`, the comparison unsigned (R133, R143). -/
def hasSlot (c : Cbseq) : Bool := c.buf != 0 && c.i.ult c.wcnt

/-- The address of slot I: `BUF +32 4*I` (R133, R143). -/
def slotAddr (c : Cbseq) : Word := c.buf + 4 * c.i

/-- The address of byte `k` of slot I, modulo 2^32 (R131, R143). -/
def slotByteAddr (c : Cbseq) (k : Fin 4) : Word := slotAddr c + BitVec.ofNat 32 k.val

/-- The word XFERWR pushes when there is no slot: LAST, or zero (R141). -/
def filler (p : Params) (c : Cbseq) : Word := if p.fillLast then c.last else 0

/-- The byte range of the buffer, `BUF .. BUF + 4*WCNT - 1` modulo 2^32, contains `a` (R42, R54). -/
def inBuffer (buf wcnt a : Word) : Bool := decide ((a - buf).toNat < 4 * wcnt.toNat)

/-- `a` is a byte of a port B register or of the host block on a platform whose spaces are one
(R54(b), R54(c)). -/
def isRegisterByte (p : Params) (a : Word) : Bool :=
  p.oneSpace && (p.busBytes ++ p.hostBytes).contains a

/-- The buffer of a transfer contains a port B register or part of the host block, on a platform where
the spaces are one (R54(b)). With a null pointer or a zero count there is no buffer (R133). -/
def bufferClash (p : Params) (buf wcnt : Word) : Bool :=
  buf != 0 && wcnt != 0 && p.oneSpace && (p.busBytes ++ p.hostBytes).any (inBuffer buf wcnt)

/-- The registers of the host block (R10). -/
inductive HostReg where
  | op
  | stat
  | addr
  | flags
  | buf
  | wcnt
  | frameLo
  | frameHi
  | xcnt
  | pcnt
  | reserved
  deriving DecidableEq, Repr

/-- The map of R10. -/
def hostReg (off : Word) : HostReg :=
  if off = 0x00 then .op else if off = 0x04 then .stat else if off = 0x08 then .addr
  else if off = 0x0C then .flags else if off = 0x10 then .buf else if off = 0x14 then .wcnt
  else if off = 0x18 then .frameLo else if off = 0x1C then .frameHi else if off = 0x20 then .xcnt
  else if off = 0x24 then .pcnt else .reserved

/-- A transaction that port H defines: aligned, 32 bits, at `HOST_BASE + 0x00 .. 0x3C` (R10, U11). -/
def isHostAccess (off : Word) (width : Width) : Bool :=
  width == .word && decide (off.toNat % 4 = 0) && decide (off.toNat < 0x40)

/-- The port H address of an offset (R10). -/
def hostAddr (p : Params) (off : Word) : Word := p.hostBase + off

end Sys2Proof.Machine
end

