-- ==== Sys2Proof/Machine/Flags.lean ====
section
/-!
DEFINITION. Every flag computation of CBSEQ: the host's view of STAT and its write-one-to-clear bits
(spec/10_state.md R14), the two status bits of a CTRL read (spec/30_encoding.md R81), the poll counter
(R23) and the readiness test (R31, R113).
-/

namespace Sys2Proof.Machine

/-- STAT as the host reads it: RUN, DONE, TMO, ILL, OVR in bits 0 to 4, bits 31:5 zero (R14). -/
def Stat.toWord (t : Stat) : Word :=
  0#27 ++ BitVec.ofBool t.ovr ++ BitVec.ofBool t.ill ++ BitVec.ofBool t.tmo ++ BitVec.ofBool t.done
    ++ BitVec.ofBool t.run

/-- STAT after a host write of `v`: bits 2, 3 and 4 are cleared by a one, the rest of `v` is ignored
(R14). -/
def Stat.clear (t : Stat) (v : Word) : Stat :=
  { t with
    tmo := t.tmo && !v.getLsbD 2
    ill := t.ill && !v.getLsbD 3
    ovr := t.ovr && !v.getLsbD 4 }

/-- BUSY of a status sample (R81). -/
def isBusy (p : Params) (s : Word) : Bool := s.getLsbD p.busyBit.val

/-- DATA_READY of a status sample (R81). -/
def isReady (p : Params) (s : Word) : Bool := s.getLsbD p.drdyBit.val

/-- N after one more CTRL read: it stays at 0xFFFFFFFF once there (R23). -/
def countPoll (n : Word) : Word := if n = 0xFFFFFFFF then n else n + 1

/-- READY after a word consumed by WAITRDY: only a zero word sets it, nothing clears it (R31, R113). -/
def readyAfter (ready : Bool) (w : Word) : Bool := ready || w == 0

/-- The poll bound of `Bound()` is reached (R111). Never, with `POLL_LIMIT = INF`. -/
def boundReached (p : Params) (c : Cbseq) : Bool := p.pollLimit == some c.n

end Sys2Proof.Machine
end

