-- ==== Sys2Proof/Machine/Ops.lean ====
section
/-!
DEFINITION. The operations every meaning is built from: the buffer memory, the record, one transaction
on port B or port M with the register updates that belong to its step (spec/10_state.md R20,
spec/20_memory.md R44 to R46), and the shared register updates: accepting an operation, `complete`
(R21) and the one operation that raises an error condition (spec/60_exceptions.md R181 to R183).
-/

namespace Sys2Proof.Machine

/-! ### The buffer memory -/

/-- The byte written last at `a`, if any was. -/
def readCell : List Host.Cell → Nat → Option Byte
  | [], _ => none
  | (b, v) :: m, a => if a = b then some v else readCell m a

/-- The memory with `v` written at `a`, in canonical form. -/
def writeCell : List Host.Cell → Nat → Byte → List Host.Cell
  | [], a, v => [(a, v)]
  | (b, u) :: m, a, v =>
    if a < b then (a, v) :: (b, u) :: m
    else if a = b then (a, v) :: m
    else (b, u) :: writeCell m a v

/-- The canonical form of memory: addresses strictly rising, each below 2^32. An unlisted address holds
no written byte, so no entry can equal what an unlisted address holds. -/
abbrev memWf (m : List Host.Cell) : Prop :=
  (m.map Prod.fst).Pairwise (· < ·) ∧ ∀ a ∈ m.map Prod.fst, a < 2 ^ 32

/-- The byte of buffer memory at `a`: the byte written last, or what the memory held at power-on, which
is unspecified (R202). -/
def memByte (w : World) (m : List Host.Cell) (a : Word) : Byte :=
  (readCell m a.toNat).getD (w.powerOn a)

/-- One byte stored. -/
def storeByte (m : List Host.Cell) (a : Word) (b : Byte) : List Host.Cell := writeCell m a.toNat b

/-- The little-endian word at `a`, its byte addresses modulo 2^32 (R46). -/
def memWord (w : World) (m : List Host.Cell) (a : Word) : Word :=
  wordOf (memByte w m a) (memByte w m (a + 1)) (memByte w m (a + 2)) (memByte w m (a + 3))

/-- A word stored little-endian (R46). -/
def storeWord (m : List Host.Cell) (a v : Word) : List Host.Cell :=
  storeByte (storeByte (storeByte (storeByte m a (byteOf v 0)) (a + 1) (byteOf v 1))
    (a + 2) (byteOf v 2)) (a + 3) (byteOf v 3)

/-! ### Updates of the state -/

/-- The registers of the block updated. -/
def State.mapCb (f : Cbseq → Cbseq) (s : State) : State := { s with cb := f s.cb }

/-- One more entry of the record. -/
def State.record (e : Event) (s : State) : State := { s with trace := e :: s.trace }

/-- The buffer memory replaced. -/
def State.setMem (m : List Host.Cell) (s : State) : State := { s with mem := m }

/-- The waiting inputs replaced. -/
def State.setInputs (ps : List Pending) (s : State) : State := { s with inputs := ps }

/-- The port B transaction an entry records, if it records one. -/
def Event.busAccess : Event → Option Access
  | .bus a => some a
  | _ => none

/-- The history of port B transactions, newest first (R55). -/
def busHistory (trace : List Event) : List Access := trace.filterMap Event.busAccess

/-! ### One transaction, with the register updates of its step -/

/-- The write shapes of R44: a byte to EN or to CMD[k], a word to CTRL or DATA. -/
def busWriteShape (p : Params) (a : Word) (width : Width) : Bool :=
  match width with
  | .byte => a == p.enAddr || decide ((a - p.cmdBase).toNat < 8)
  | .half => false
  | .word => a == p.ctrlAddr || a == p.dataAddr

/-- The read shapes of R44: a word from CTRL or DATA. EN and CMD are write only (U7). -/
def busReadShape (p : Params) (a : Word) : Bool := a == p.ctrlAddr || a == p.dataAddr

/-- `BusWrite(a, n, v)` on port B (R44, R56), then the register updates of the step. -/
def busWrite (w : World) (a : Word) (width : Width) (v : Word) (upd : Cbseq → Cbseq) (s : State) :
    Res :=
  if busWriteShape w.params a width then
    .next ((s.record (.bus ⟨.write, a, width, v⟩)).mapCb upd)
  else .refused .badBusAccess

/-- The environment's answer to a port B read at `a` (R55). -/
def busAnswer (w : World) (s : State) (a : Word) : Word := w.answer (busHistory s.trace) a

/-- `BusRead(a, 4)` on port B (R44, R55), then the register updates of the step. -/
def busRead (w : World) (a : Word) (upd : Word → Cbseq → Cbseq) (s : State) : Res :=
  if busReadShape w.params a then
    let v := busAnswer w s a
    .next ((s.record (.bus ⟨.read, a, .word, v⟩)).mapCb (upd v))
  else .refused .badBusAccess

/-- A port M transaction happens where the platform backs its address; elsewhere CBSEQ is "stuck at that
transaction" (R45, U21). -/
def onBacked (w : World) (a : Word) (width : Width) (r : Res) : Res :=
  if w.backs a width then r else .fault .unbackedMemory

/-- `MemWrite(a, 4, v)` on port M (R45, R46), then the register updates of the step. -/
def memWriteWord (w : World) (a v : Word) (upd : Cbseq → Cbseq) (s : State) : Res :=
  if isAligned a then
    onBacked w a .word
      (.next (((s.setMem (storeWord s.mem a v)).record (.mem ⟨.write, a, .word, v⟩)).mapCb upd))
  else .refused .misalignedWord

/-- `MemWrite(a, 1, b)` on port M (R45), then the register updates of the step. -/
def memWriteByte (w : World) (a : Word) (b : Byte) (upd : Cbseq → Cbseq) (s : State) : Res :=
  onBacked w a .byte
    (.next (((s.setMem (storeByte s.mem a b)).record (.mem ⟨.write, a, .byte, byteValue b⟩)).mapCb upd))

/-- `MemRead(a, 4)` on port M (R45, R46), then the register updates of the step. -/
def memReadWord (w : World) (a : Word) (upd : Word → Cbseq → Cbseq) (s : State) : Res :=
  if isAligned a then
    let v := memWord w s.mem a
    onBacked w a .word (.next ((s.record (.mem ⟨.read, a, .word, v⟩)).mapCb (upd v)))
  else .refused .misalignedWord

/-- `MemRead(a, 1)` on port M (R45), then the register updates of the step. -/
def memReadByte (w : World) (a : Word) (upd : Byte → Cbseq → Cbseq) (s : State) : Res :=
  let b := memByte w s.mem a
  onBacked w a .byte (.next ((s.record (.mem ⟨.read, a, .byte, byteValue b⟩)).mapCb (upd b)))

/-! ### Shared register updates -/

/-- The error conditions of R180. -/
inductive Condition where
  | timeout
  | illegal
  | overrun
  deriving DecidableEq, Repr

/-- Raising an error condition (R181, R182, R183). Nothing is saved and no control is transferred
(R187); only Timeout ends the running operation. -/
def Cbseq.raise (e : Condition) (c : Cbseq) : Cbseq :=
  match e with
  | .timeout => { c with stat := { c.stat with tmo := true, run := false }, opk := .none, ph := .idle }
  | .illegal => { c with stat := { c.stat with ill := true } }
  | .overrun => { c with stat := { c.stat with ovr := true } }

/-- The phase set. -/
def Cbseq.goto (ph : Phase) (c : Cbseq) : Cbseq := { c with ph := ph }

/-- `complete` (R21): the normal end of an operation. -/
def Cbseq.complete (c : Cbseq) : Cbseq :=
  { c with stat := { c.stat with done := true, run := false }, opk := .none, ph := .idle }

/-- `Bound()` before going on in phase `ph` (R111): Timeout at the poll bound, else `ph`. -/
def Cbseq.boundThen (p : Params) (ph : Phase) (c : Cbseq) : Cbseq :=
  if boundReached p c then c.raise .timeout else c.goto ph

/-- A legal operation word is accepted (R13): `OP <- v`, `STAT.DONE <- 0`. -/
def Cbseq.accept (i : Instr) (c : Cbseq) : Cbseq :=
  { c with op := encode i, stat := { c.stat with done := false } }

/-- A polling operation starts (R112, R135, R140): `STAT.RUN <- 1`, OPK, `N <- 0`, PH at ISS_EN. -/
def Cbseq.launch (k : OpKind) (c : Cbseq) : Cbseq :=
  { c with stat := { c.stat with run := true }, opk := k, n := 0, ph := .issEn }

/-- What precedes every meaning (R12(a), R186): with `STAT.RUN == 1` the operation word is dropped and
Overrun raised, else the meaning runs. -/
def whenIdle (s : State) (meaning : Res) : Res :=
  if s.cb.stat.run then .next (s.mapCb (Cbseq.raise .overrun)) else meaning

end Sys2Proof.Machine
end

