-- ==== Sys2Proof/Machine/FrameBuilder.lean ====
section
/-!
DEFINITION. The frame builder: BUILD and BUILDC (spec/40_frame_builder.md R90 to R95, with the layouts
of spec/30_encoding.md R74 to R77).
-/

namespace Sys2Proof.Machine

/-- The checksum byte `A3 ^ A2 ^ A1 ^ A0`; the opcode is not included (R77). -/
def checksum (addr : Word) : Byte := byteOf addr 3 ^^^ byteOf addr 2 ^^^ byteOf addr 1 ^^^ byteOf addr 0

/-- The frame of an opcode, an address and the byte `x` that follows the address going away from the
opcode: R75 for `OPCODE_POS == 0`, its mirror image R76 for `OPCODE_POS == 7`. -/
def buildFrame (p : Params) (opc : Byte) (addr : Word) (x : Byte) : Frame :=
  match p.opcodePos with
  | .byte0 => #v[opc, byteOf addr 3, byteOf addr 2, byteOf addr 1, byteOf addr 0, x, 0, 0]
  | .byte7 => #v[0, 0, x, byteOf addr 0, byteOf addr 1, byteOf addr 2, byteOf addr 3, opc]

/-- The address recovered from a frame by big-endian reassembly (R80). -/
def frameAddr (p : Params) (f : Frame) : Word :=
  match p.opcodePos with
  | .byte0 => wordOf f[4] f[3] f[2] f[1]
  | .byte7 => wordOf f[3] f[4] f[5] f[6]

/-- FRAME written whole, and the operation complete, in the step that accepts its word (R91, R95). -/
def finishBuild (p : Params) (i : Instr) (opc x : Byte) (c : Cbseq) : Cbseq :=
  Cbseq.complete { c.accept i with frame := buildFrame p opc c.addr x }

/-- BUILD in a given world (R91). -/
def buildIn (w : World) (cmdop : Byte) (s : State) : Res :=
  whenIdle s (.next (s.mapCb (finishBuild w.params (.build cmdop) cmdop 0)))

/-- BUILDC in a given world (R93). Where `HAS_CKSUM` is false the word is not legal (R72): Illegal is
raised and FRAME is left unchanged. -/
def buildcIn (w : World) (cmdop : Byte) (s : State) : Res :=
  whenIdle s (.next (s.mapCb fun c =>
    if w.params.hasCksum then finishBuild w.params (.buildc cmdop) cmdop (checksum c.addr) c
    else c.raise .illegal))

/-- BUILD (R91). -/
def execBuild (cmdop : Byte) (s : State) : Res := buildIn Config.world cmdop s

/-- BUILDC (R93). -/
def execBuildc (cmdop : Byte) (s : State) : Res := buildcIn Config.world cmdop s

end Sys2Proof.Machine
end

