-- ==== Sys2Proof/Machine/Issue.lean ====
section
/-!
DEFINITION. The launch that WAITRDY, XFERRD and XFERWR share (spec/40_frame_builder.md R96 to R99): the
EN write, the eight CMD writes, the CTRL write; and the status read that begins every poll cycle
(spec/41_ready_wait.md R110).
-/

namespace Sys2Proof.Machine

/-- Phase ISS_EN: `BusWrite(EN_ADDR, 1, EN_VALUE)` (R20, R96). -/
def issueEnable (w : World) (s : State) : Res :=
  busWrite w w.params.enAddr .byte (byteValue w.params.enValue) (Cbseq.goto (.issCmd 0)) s

/-- Phase ISS_CMD(t): `BusWrite(CMD_BASE + m(t), 1, FRAME[t])` (R20, R96). -/
def issueCommand (w : World) (t : Fin 8) (s : State) : Res :=
  busWrite w (w.params.cmdAddr (cmdIndex w.params t)) .byte (byteValue s.cb.frame[t])
    (Cbseq.goto (afterIssue t)) s

/-- Phase START: `BusWrite(CTRL_ADDR, 4, FLAGS)` (R20, R97). -/
def startBus (w : World) (s : State) : Res :=
  busWrite w w.params.ctrlAddr .word s.cb.flags (Cbseq.goto .poll) s

/-- The registers after the CTRL read of a poll cycle: `S <- v`, N counts up (R23, R110). -/
def Cbseq.sample (v : Word) (c : Cbseq) : Cbseq := { c with s := v, n := countPoll c.n }

/-- Phase POLL (R110): the CTRL read, then, within the same step, `onReady` when the sample has
DATA_READY set and the operation's loop decision `onIdle` when it has not. -/
def pollCycle (w : World) (onReady onIdle : Cbseq → Cbseq) (s : State) : Res :=
  busRead w w.params.ctrlAddr
    (fun v c => if isReady w.params v then onReady (c.sample v) else onIdle (c.sample v)) s

end Sys2Proof.Machine
end

