-- ==== Sys2Proof/Machine/ReadyWait.lean ====
section
/-!
DEFINITION. WAITRDY (spec/41_ready_wait.md R112 to R116): its acceptance, and its steps in the phases
POLL and DATA.
-/

namespace Sys2Proof.Machine

/-- WAITRDY accepted (R112). -/
def beginWaitrdy (c : Cbseq) : Cbseq :=
  { (c.accept .waitrdy).launch .waitrdy with ready := false }

/-- WAITRDY in a given world (R112). It reads no parameter of the world at acceptance. -/
def waitrdyIn (_w : World) (s : State) : Res := whenIdle s (.next (s.mapCb beginWaitrdy))

/-- WAITRDY (R112). -/
def execWaitrdy (s : State) : Res := waitrdyIn Config.world s

/-- The loop decision of WAITRDY (R112, R113): poll on while BUSY; else complete if READY, and if not
launch again; the bound stands before each further poll cycle and before each further launch. -/
def waitDecision (p : Params) (c : Cbseq) : Cbseq :=
  if isBusy p c.s then c.boundThen p .poll
  else if c.ready then c.complete
  else c.boundThen p .issEn

/-- WAITRDY in phase POLL. -/
def waitPoll (w : World) (s : State) : Res :=
  pollCycle w (Cbseq.goto .data) (waitDecision w.params) s

/-- The registers after WAITRDY has consumed the word `v`: it is compared and dropped (R113, R115). -/
def consumeProbe (p : Params) (v : Word) (c : Cbseq) : Cbseq :=
  waitDecision p { c with w := v, ready := readyAfter c.ready v }

/-- WAITRDY in phase DATA: `W <- BusRead(DATA_ADDR, 4)`, the readiness test, the loop decision. -/
def waitData (w : World) (s : State) : Res :=
  busRead w w.params.dataAddr (consumeProbe w.params) s

end Sys2Proof.Machine
end

