-- ==== Sys2Proof/Machine/Transfer.lean ====
section
/-!
DEFINITION. The transfer engine (spec/42_transfer.md R130 to R144): XFERRD and XFERWR, their
acceptance and their steps in the phases POLL, DATA and MEM(k), with the word serializer.
-/

namespace Sys2Proof.Machine

/-- A transfer accepted (R133, R135): `I <- 0`, `ALN <- (BUF[1:0] == 0)`. -/
def beginTransfer (i : Instr) (k : OpKind) (c : Cbseq) : Cbseq :=
  { (c.accept i).launch k with i := 0, aln := isAligned c.buf }

/-- XFERWR accepted (R140): also `LAST <- 0`. -/
def beginWrite (c : Cbseq) : Cbseq := { beginTransfer .xferwr .xferwr c with last := 0 }

/-- A transfer's launch, refused where its buffer would contain the bus registers (R54(b), U10). -/
def launchTransfer (p : Params) (start : Cbseq → Cbseq) (s : State) : Res :=
  if bufferClash p s.cb.buf s.cb.wcnt then .refused .bufferOverlapsRegisters
  else .next (s.mapCb start)

/-- XFERRD in a given world (R135). -/
def xferrdIn (w : World) (s : State) : Res :=
  whenIdle s (launchTransfer w.params (beginTransfer .xferrd .xferrd) s)

/-- XFERWR in a given world (R140). -/
def xferwrIn (w : World) (s : State) : Res :=
  whenIdle s (launchTransfer w.params beginWrite s)

/-- XFERRD (R135). -/
def execXferrd (s : State) : Res := xferrdIn Config.world s

/-- XFERWR (R140). -/
def execXferwr (s : State) : Res := xferwrIn Config.world s

/-- The loop decision of a transfer (R135, R137, R140): only BUSY counts, the word count does not. -/
def transferDecision (p : Params) (c : Cbseq) : Cbseq :=
  if isBusy p c.s then c.boundThen p .poll else c.complete

/-- One more buffer word moved (R22). -/
def Cbseq.countWord (c : Cbseq) : Cbseq := { c with i := c.i + 1 }

/-! ### XFERRD -/

/-- XFERRD in phase POLL. -/
def readPoll (w : World) (s : State) : Res :=
  pollCycle w (Cbseq.goto .data) (transferDecision w.params) s

/-- The registers after XFERRD has popped `v`: stored next if there is a slot, else dropped (R136). -/
def takeWord (p : Params) (v : Word) (c : Cbseq) : Cbseq :=
  if hasSlot c then { c with w := v, ph := .mem 0 } else transferDecision p { c with w := v }

/-- XFERRD in phase DATA: `W <- BusRead(DATA_ADDR, 4)`, whether or not W is then stored (R135). -/
def readData (w : World) (s : State) : Res := busRead w w.params.dataAddr (takeWord w.params) s

/-- The registers after the last transaction of StoreWord. -/
def afterStore (p : Params) (c : Cbseq) : Cbseq := transferDecision p c.countWord

/-- The registers after byte `k` of StoreWord: the next byte, or the end of the store. -/
def afterStoreByte (p : Params) (k : Fin 4) (c : Cbseq) : Cbseq :=
  match afterByte k with
  | some k' => c.goto (.mem k')
  | none => afterStore p c

/-- XFERRD in phase MEM(k): StoreWord (R131), one aligned word or byte `k` of the word in flight. -/
def readMem (w : World) (k : Fin 4) (s : State) : Res :=
  if s.cb.aln then memWriteWord w (slotAddr s.cb) s.cb.w (afterStore w.params) s
  else memWriteByte w (slotByteAddr s.cb k) (byteOf s.cb.w k) (afterStoreByte w.params k) s

/-! ### XFERWR -/

/-- XFERWR after a sample with DATA_READY (R140): load a word if there is a slot, else take the
filler and make no port M transaction (R141). -/
def chooseWord (p : Params) (c : Cbseq) : Cbseq :=
  if hasSlot c then c.goto (.mem 0) else { c with w := filler p c, ph := .data }

/-- XFERWR in phase POLL. -/
def writePoll (w : World) (s : State) : Res :=
  pollCycle w (chooseWord w.params) (transferDecision w.params) s

/-- XFERWR in phase DATA: `BusWrite(DATA_ADDR, 4, W)`, then the loop decision (R140). -/
def writeData (w : World) (s : State) : Res :=
  busWrite w w.params.dataAddr .word s.cb.w (transferDecision w.params) s

/-- The registers after the last transaction of LoadWord: `LAST <- W`, I counts, the push is next. -/
def Cbseq.loaded (c : Cbseq) : Cbseq := { c.countWord with last := c.w, ph := .data }

/-- The registers after byte `k` of LoadWord is `b`: it stands in byte `k` of W (log entry 4), and the
next byte follows, or the end of the load. -/
def afterLoadByte (k : Fin 4) (b : Byte) (c : Cbseq) : Cbseq :=
  match afterByte k with
  | some k' => { c with w := setByte c.w k b, ph := .mem k' }
  | none => Cbseq.loaded { c with w := setByte c.w k b }

/-- The registers after the one transaction of an aligned LoadWord. -/
def afterLoadWord (v : Word) (c : Cbseq) : Cbseq := Cbseq.loaded { c with w := v }

/-- XFERWR in phase MEM(k): LoadWord (R132), one aligned word, or byte `k` into byte `k` of W. -/
def writeMem (w : World) (k : Fin 4) (s : State) : Res :=
  if s.cb.aln then memReadWord w (slotAddr s.cb) afterLoadWord s
  else memReadByte w (slotByteAddr s.cb k) (afterLoadByte k) s

end Sys2Proof.Machine
end

