-- ==== Sys2Proof/Machine/Sequencer.lean ====
section
/-!
DEFINITION. The micro-sequencer: one turn of CBSEQ, by the phase table of spec/10_state.md R20.
-/

namespace Sys2Proof.Machine

/-- Phase POLL of the running operation. -/
def pollTurn (w : World) (s : State) : Res :=
  match s.cb.opk with
  | .none => .fault .noPhaseRow
  | .waitrdy => waitPoll w s
  | .xferrd => readPoll w s
  | .xferwr => writePoll w s

/-- Phase DATA of the running operation. -/
def dataTurn (w : World) (s : State) : Res :=
  match s.cb.opk with
  | .none => .fault .noPhaseRow
  | .waitrdy => waitData w s
  | .xferrd => readData w s
  | .xferwr => writeData w s

/-- Phase MEM(k) of the running transfer. -/
def memTurn (w : World) (k : Fin 4) (s : State) : Res :=
  match s.cb.opk with
  | .none => .fault .noPhaseRow
  | .waitrdy => .fault .noPhaseRow
  | .xferrd => readMem w k s
  | .xferwr => writeMem w k s

/-- One turn of CBSEQ: the one port transaction of its phase with the register updates that follow it
(R20). In phase IDLE it takes no step and nothing changes. -/
def blockTurn (w : World) (s : State) : Res :=
  match s.cb.ph with
  | .idle => .next s
  | .issEn => issueEnable w s
  | .issCmd t => issueCommand w t s
  | .start => startBus w s
  | .poll => pollTurn w s
  | .data => dataTurn w s
  | .mem k => memTurn w k s

end Sys2Proof.Machine
end

