-- ==== Sys2Proof/Machine/Dispatch.lean ====
section
/-!
DEFINITION. One arm per operation of spec/opcode_table.json. An arm is what happens in the step of the
host write that brings the operation word (spec/10_state.md R13); BUILD and BUILDC finish in it, the
others go on in the turns of `blockTurn`.
-/

namespace Sys2Proof.Machine

def exec (i : Instr) (s : State) : Host.Outcome State Fault Refusal :=
  match i with
  | .build cmdop => Sys2Proof.Machine.execBuild cmdop s
  | .buildc cmdop => Sys2Proof.Machine.execBuildc cmdop s
  | .waitrdy => Sys2Proof.Machine.execWaitrdy s
  | .xferrd => Sys2Proof.Machine.execXferrd s
  | .xferwr => Sys2Proof.Machine.execXferwr s

end Sys2Proof.Machine
end

