-- ==== Sys2Proof/Machine/HostPort.lean ====
section
/-!
DEFINITION. What the outside world does to CBSEQ: host reads and writes on port H (spec/10_state.md R11
to R14, spec/60_exceptions.md R186), the host's own accesses to the buffer memory (spec/00_scope.md R5),
reset (spec/70_reset_and_hazards.md R200 to R202), and whose turn it is. A meaning of operations is an
argument here (`ex`), so that the same text serves every world.
-/

namespace Sys2Proof.Machine

/-- The value a host read returns (R11). -/
def hostReadValue (c : Cbseq) (off : Word) : Word :=
  match hostReg off with
  | .op => c.op
  | .stat => Stat.toWord c.stat
  | .addr => c.addr
  | .flags => c.flags
  | .buf => c.buf
  | .wcnt => c.wcnt
  | .frameLo => Frame.lo c.frame
  | .frameHi => Frame.hi c.frame
  | .xcnt => c.i
  | .pcnt => c.n
  | .reserved => 0

/-- The registers after a host write that takes effect, at any offset but OP's (R12(b)): XCNT, PCNT and
the reserved offsets ignore it. -/
def writeReg (off v : Word) (c : Cbseq) : Cbseq :=
  match hostReg off with
  | .op => c
  | .stat => { c with stat := Stat.clear c.stat v }
  | .addr => { c with addr := v }
  | .flags => { c with flags := v }
  | .buf => { c with buf := v }
  | .wcnt => { c with wcnt := v }
  | .frameLo => { c with frame := Frame.setLo c.frame v }
  | .frameHi => { c with frame := Frame.setHi c.frame v }
  | .xcnt => c
  | .pcnt => c
  | .reserved => c

/-- A write to OP with RUN = 0: decode, then run the operation or raise Illegal (R13, R73). -/
def writeOp (ex : Instr → State → Res) (v : Word) (s : State) : Res :=
  match decode v with
  | .ok i => ex i s
  | .error _ => .next (s.mapCb (Cbseq.raise .illegal))

/-- `HostWrite(off, v)`, its checks in the order of R12 and R186. -/
def hostWrite (ex : Instr → State → Res) (off v : Word) (s : State) : Res :=
  if s.cb.stat.run then .next (s.mapCb (Cbseq.raise .overrun))
  else if hostReg off = .op then writeOp ex v s
  else .next (s.mapCb (writeReg off v))

/-- `HostRead(off)`: nothing changes; the value returned is recorded (R11). -/
def hostRead (off : Word) (s : State) : State :=
  s.record (.host ⟨.read, off, .word, hostReadValue s.cb off⟩)

/-- Reset (R200 to R202): every register of the block at its reset value; memory, the environment and
what the outside world does next untouched. -/
def resetBlock (s : State) : State := (s.mapCb fun _ => Cbseq.reset).record .reset

/-- One line `SYNC` (R83): the host reads STAT, and does so again after CBSEQ's next turn if RUN was 1. -/
def syncRead (s : State) : State :=
  let t := hostRead 0x04 s
  if s.cb.stat.run then t.setInputs (⟨1, .sync⟩ :: s.inputs) else t

/-- The host's own access to the byte `a` of buffer memory (R5): never to a register's byte (R54(c)), and
only where there is memory (log entry 10). -/
def hostOwn (w : World) (a : Word) (r : Res) : Res :=
  if isRegisterByte w.params a then .refused .hostTouchesRegisters
  else if w.backed a then r
  else .refused .hostTouchesUnbacked

/-- An input arrives; it has been taken from the queue already. -/
def deliver (w : World) (ex : Instr → State → Res) (inp : Input) (s : State) : Res :=
  match inp with
  | .write off width v =>
    if isHostAccess off width then
      hostWrite ex off v (s.record (.host ⟨.write, off, .word, v⟩))
    else .refused .badHostAccess
  | .read off width =>
    if isHostAccess off width then .next (hostRead off s) else .refused .badHostAccess
  | .sync => .next (syncRead s)
  | .poke a b =>
    hostOwn w a (.next ((s.setMem (storeByte s.mem a b)).record (.own ⟨.write, a, .byte, byteValue b⟩)))
  | .peek a =>
    hostOwn w a (.next (s.record (.own ⟨.read, a, .byte, byteValue (memByte w s.mem a)⟩)))
  | .reset => .next (resetBlock s)

/-- One turn of the machine: the next input if it is due, else one turn of CBSEQ, `block`. -/
def turn (w : World) (ex : Instr → State → Res) (block : State → Res) (s : State) : Res :=
  match s.inputs with
  | [] => block s
  | ⟨0, inp⟩ :: ps => deliver w ex inp (s.setInputs ps)
  | ⟨n + 1, inp⟩ :: ps => block (s.setInputs (⟨n, inp⟩ :: ps))

/-- The block at rest, so that the next host write takes effect. Nothing changes in a block that is at
rest already. -/
def Cbseq.atRest (c : Cbseq) : Cbseq :=
  { c with stat := { c.stat with run := false }, opk := .none, ph := .idle }

end Sys2Proof.Machine
end

