-- ==== Sys2Proof/Machine/Step.lean ====
section
/-!
DEFINITION. The step of the machine, the same step in any given world, and how the host places an
operation word so that the next step takes it.
-/

namespace Sys2Proof.Machine

/-- One step: the next input of the outside world if it is due, else one turn of CBSEQ. -/
def step (s : State) : Host.Outcome State Fault Refusal :=
  turn Config.world exec (blockTurn Config.world) s

/-- The meaning of an operation in a given world: "A model takes every `OPEN` parameter as an argument"
(R6). `exec` is this at `Config.world`. -/
def execIn (w : World) (i : Instr) (s : State) : Res :=
  match i with
  | .build cmdop => buildIn w cmdop s
  | .buildc cmdop => buildcIn w cmdop s
  | .waitrdy => waitrdyIn w s
  | .xferrd => xferrdIn w s
  | .xferwr => xferwrIn w s

/-- The step in a given world; `step` is this at `Config.world`. -/
def stepIn (w : World) (s : State) : Res := turn w (execIn w) (blockTurn w) s

/-- `s` with the operation word whose bits are `w` about to be written to OP: CBSEQ fetches nothing, an
operation arrives as a host write (R20, R53). The block is put at rest, because a host write to a
running block is dropped (R12). -/
def State.withFetchWord (s : State) (_nbits w : Nat) : State :=
  (s.mapCb Cbseq.atRest).setInputs (⟨0, .write 0x00 .word (BitVec.ofNat 32 w)⟩ :: s.inputs)

end Sys2Proof.Machine
end

