-- ==== Sys2Proof/Machine/HostSoftware.lean ====
section
/-!
DEFINITION. Host programs, as lists of inputs: the line notation of spec/30_encoding.md R83 and R84 and
the host sequences of spec/43_sector_adapter.md R161 to R167. Nothing here is part of CBSEQ (R3): a
program is what an observer puts into `State.inputs`.
-/

namespace Sys2Proof.Machine

/-- The offset of a host register (R10); the first of the reserved ones for `reserved`. -/
def hostOffset : HostReg → Word
  | .op => 0x00
  | .stat => 0x04
  | .addr => 0x08
  | .flags => 0x0C
  | .buf => 0x10
  | .wcnt => 0x14
  | .frameLo => 0x18
  | .frameHi => 0x1C
  | .xcnt => 0x20
  | .pcnt => 0x24
  | .reserved => 0x28

/-- `SET reg, value` (R83). -/
def setLine (r : HostReg) (v : Word) : Pending := ⟨0, .write (hostOffset r) .word v⟩

/-- `BUILD cc`, `BUILDC cc`, `WAITRDY`, `XFERRD`, `XFERWR` (R83). -/
def opLine (i : Instr) : Pending := ⟨0, .write 0x00 .word (encode i)⟩

/-- `SYNC` (R83). -/
def syncLine : Pending := ⟨0, .sync⟩

/-- `CMD cc, a` (R84). -/
def cmdLines (cc : Byte) (a : Word) : List Pending := [setLine .addr a, opLine (.build cc)]

/-- `BUILD0 cc` (R84): a no-address command. -/
def build0Lines (cc : Byte) : List Pending := cmdLines cc 0

/-- `CMDC cc, a` (R84). -/
def cmdcLines (cc : Byte) (a : Word) : List Pending := [setLine .addr a, opLine (.buildc cc)]

/-- `WAITREADY f` (R84, R162). -/
def waitReadyLines (f : Word) : List Pending := [setLine .flags f, opLine .waitrdy, syncLine]

/-- `TRANSFER.RD f, b, n` and `TRANSFER.WR f, b, n` (R84, R161), `i` being XFERRD or XFERWR. -/
def transferLines (i : Instr) (f b n : Word) : List Pending :=
  [setLine .flags f, setLine .buf b, setLine .wcnt n, opLine i, syncLine]

/-- Sector `j` of `readSectors` (R163): one 128-word XFERRD at device address `startSector + j`. -/
def readSector (rdOp : Byte) (rdFlags startSector buffer : Word) (j : Nat) : List Pending :=
  cmdLines rdOp (startSector + BitVec.ofNat 32 j)
    ++ transferLines .xferrd rdFlags (buffer + 512 * BitVec.ofNat 32 j) 128

/-- `readSectors(startSector, count, buffer)` (R163). -/
def readSectors (rdOp : Byte) (rdFlags startSector : Word) (count : Nat) (buffer : Word) :
    List Pending :=
  (List.range count).flatMap (readSector rdOp rdFlags startSector buffer)

/-- Sector `j` of `writeSectors`, in the shape R164 gives as an illustration: the transfer, the closing
command (BUILDC in a variant with checksum, else BUILD), the ready-wait. -/
def writeSector (p : Params) (wrOp closeOp : Byte) (wrFlags stFlags startSector buffer : Word)
    (j : Nat) : List Pending :=
  cmdLines wrOp (startSector + BitVec.ofNat 32 j)
    ++ transferLines .xferwr wrFlags (buffer + 512 * BitVec.ofNat 32 j) 128
    ++ (if p.hasCksum then cmdcLines closeOp (startSector + BitVec.ofNat 32 j)
        else cmdLines closeOp (startSector + BitVec.ofNat 32 j))
    ++ waitReadyLines stFlags

/-- `writeSectors(startSector, count, buffer)` (R164). -/
def writeSectors (p : Params) (wrOp closeOp : Byte) (wrFlags stFlags startSector : Word) (count : Nat)
    (buffer : Word) : List Pending :=
  (List.range count).flatMap (writeSector p wrOp closeOp wrFlags stFlags startSector buffer)

/-- `clearStatus` and `shutdown` "need not touch any register" (R165, R167). -/
def clearStatusLines : List Pending := []

end Sys2Proof.Machine
end

