-- ==== Sys2Proof/Safety.lean ====
section
/-!
DEFINITION. The terms that claims about CBSEQ use: runs, the invariants, the record seen from ports B
and M alone, and what a launch leaves in it.
-/

namespace Sys2Proof.Safety

open Sys2Proof.Machine

/-- `k` steps of the machine in a given world, stopping at the first fault or refusal. -/
def runIn (w : World) : Nat → State → Res
  | 0, s => .next s
  | k + 1, s =>
    match stepIn w s with
    | .next t => runIn w k t
    | .fault r => .fault r
    | .refused r => .refused r

/-- `k` turns of CBSEQ alone, no input arriving. -/
def blockRun (w : World) : Nat → State → Res
  | 0, s => .next s
  | k + 1, s =>
    match blockTurn w s with
    | .next t => blockRun w k t
    | .fault r => .fault r
    | .refused r => .refused r

/-- No input is due at this step. -/
def Quiet (s : State) : Prop := ∀ p ∈ s.inputs.head?, p.after ≠ 0

/-- The inputs after a step in which none was due: one turn of CBSEQ less to wait. -/
def waitedInputs : List Pending → List Pending
  | [] => []
  | p :: ps => { p with after := p.after - 1 } :: ps

/-- The running operation is a transfer. -/
def Transferring (c : Cbseq) : Prop := c.opk = .xferrd ∨ c.opk = .xferwr

/-- The invariant of the machine: what R20, R21, R22, R32 and the canonical form of memory say of every
state that a run from reset can reach. -/
structure Inv (s : State) : Prop where
  /-- "`RUN == 1` exactly when `PH != IDLE`" (R20). -/
  run_iff : s.cb.stat.run = true ↔ s.cb.ph ≠ .idle
  /-- OPK "is NONE when PH is IDLE" (R33), and only then. -/
  opk_iff : s.cb.opk = .none ↔ s.cb.ph = .idle
  /-- DONE is cleared by acceptance and set only by `complete`, which ends the operation (R14). -/
  done_clear : s.cb.stat.run = true → s.cb.stat.done = false
  /-- A transfer's path is the one its buffer pointer decides (R32, R47). -/
  aln_eq : Transferring s.cb → s.cb.aln = isAligned s.cb.buf
  /-- "`I <= WCNT` always holds during a transfer" (R22). -/
  i_le : Transferring s.cb → s.cb.i ≤ s.cb.wcnt
  /-- Port M is used by a transfer only, at a slot that exists, and in one transaction on the aligned
  path (R131 to R133). -/
  mem_slot : ∀ k, s.cb.ph = .mem k →
    Transferring s.cb ∧ hasSlot s.cb = true ∧ (k ≠ 0 → s.cb.aln = false)
  /-- Memory is in canonical form. -/
  mem_wf : memWf s.mem

/-- The poll bound kept (R111): with a finite `POLL_LIMIT`, a running operation has made at most that
many CTRL reads, and fewer while a launch or a poll cycle is still to come. -/
def WithinPollLimit (p : Params) (c : Cbseq) : Prop :=
  ∀ l, p.pollLimit = some l → c.ph ≠ .idle →
    c.n ≤ l ∧ (c.ph ≠ .data → (∀ k, c.ph ≠ .mem k) → c.n < l)

/-- The entry of a transaction on port B or port M. -/
def isBlockEvent : Event → Bool
  | .bus _ => true
  | .mem _ => true
  | _ => false

/-- The record of CBSEQ's own transactions, newest first: the total order of R50. -/
def blockTrace (trace : List Event) : List Event := trace.filter isBlockEvent

/-- The port M transactions of a record, newest first. -/
def memTrace (trace : List Event) : List Event :=
  trace.filter fun e => match e with
    | .mem _ => true
    | _ => false

/-- The EN write of Issue (R96). -/
def enWrite (p : Params) : Event := .bus ⟨.write, p.enAddr, .byte, byteValue p.enValue⟩

/-- The write of FRAME[t] by Issue (R96). -/
def cmdWrite (p : Params) (f : Frame) (t : Fin 8) : Event :=
  .bus ⟨.write, p.cmdAddr (cmdIndex p t), .byte, byteValue f[t]⟩

/-- The CTRL write of START (R97). -/
def ctrlWrite (p : Params) (flags : Word) : Event := .bus ⟨.write, p.ctrlAddr, .word, flags⟩

/-- What Issue has written before FRAME[t], newest first. -/
def issuedBefore (p : Params) (f : Frame) : Nat → List Event
  | 0 => [enWrite p]
  | t + 1 => (if h : t < 8 then [cmdWrite p f ⟨t, h⟩] else []) ++ issuedBefore p f t

/-- Every CTRL write of a record of ports B and M is the tenth transaction of a launch: straight before
it come the eight CMD writes of one frame and the EN write (R97). -/
def LaunchesWhole (p : Params) : List Event → Prop
  | [] => True
  | e :: es => (∀ flags, e = ctrlWrite p flags → ∃ f, issuedBefore p f 8 <+: es) ∧ LaunchesWhole p es

/-- `LaunchesWhole` as an invariant: a launch in progress has written its frame so far. -/
structure LaunchInv (p : Params) (s : State) : Prop where
  whole : LaunchesWhole p (blockTrace s.trace)
  issuing : ∀ t : Fin 8, s.cb.ph = .issCmd t →
    issuedBefore p s.cb.frame t.val <+: blockTrace s.trace
  starting : s.cb.ph = .start → issuedBefore p s.cb.frame 8 <+: blockTrace s.trace

/-- The bytes of an access lie in the buffer `BUF .. BUF + 4*WCNT - 1`, modulo 2^32 (R42). -/
def InBufferAccess (c : Cbseq) (a : Access) : Prop :=
  ∀ k, k < a.width.bytes → inBuffer c.buf c.wcnt (a.addr + BitVec.ofNat 32 k) = true

/-- The port M transaction that comes next is at an address the platform does not back with memory (R45,
U21): the whole word on the aligned path, the one byte on the byte path. -/
def AtUnbackedMemory (w : World) (s : State) : Prop :=
  ∃ k : Fin 4, s.cb.ph = .mem k ∧
    ((s.cb.aln = true ∧ ∃ j : Fin 4, w.backed (slotAddr s.cb + BitVec.ofNat 32 j.val) = false) ∨
      (s.cb.aln = false ∧ w.backed (slotAddr s.cb + BitVec.ofNat 32 k.val) = false))

/-- Two states that differ at most in STAT.OVR and in the record's entries of port H and of the host's
own accesses: what an overrun may change (R183). -/
structure SameButOverrun (a b : State) : Prop where
  cb : { a.cb with stat := { a.cb.stat with ovr := false } }
    = { b.cb with stat := { b.cb.stat with ovr := false } }
  mem : a.mem = b.mem
  inputs : a.inputs = b.inputs
  trace : blockTrace a.trace = blockTrace b.trace

/-- Two answers of the same kind, the next states alike up to an overrun. -/
def SameAnswers : Res → Res → Prop
  | .next a, .next b => SameButOverrun a b
  | .fault x, .fault y => x = y
  | .refused x, .refused y => x = y
  | _, _ => False

/-- The words popped from DATA since the last CTRL write of a record of ports B and M, newest first. -/
def poppedWords (p : Params) : List Event → List Word
  | [] => []
  | .bus a :: es =>
    if a.dir = .read ∧ a.addr = p.dataAddr then a.value :: poppedWords p es
    else if a.dir = .write ∧ a.addr = p.ctrlAddr then []
    else poppedWords p es
  | _ :: es => poppedWords p es

/-- The words pushed to DATA since the last CTRL write of a record of ports B and M, newest first. -/
def pushedWords (p : Params) : List Event → List Word
  | [] => []
  | .bus a :: es =>
    if a.dir = .write ∧ a.addr = p.dataAddr then a.value :: pushedWords p es
    else if a.dir = .write ∧ a.addr = p.ctrlAddr then []
    else pushedWords p es
  | _ :: es => pushedWords p es

/-- The address of slot `j` of the buffer (R133). -/
def slotOf (c : Cbseq) (j : Nat) : Word := c.buf + 4 * BitVec.ofNat 32 j

/-- R136: of the words popped (newest first), the first `min(WCNT, how many)` are stored, in order, at
consecutive slots from BUF; none with a null BUF. -/
def StoredInOrder (w : World) (c : Cbseq) (m : List Host.Cell) (words : List Word) : Prop :=
  c.i.toNat = (if c.buf = 0 then 0 else min words.length c.wcnt.toNat) ∧
    ∀ j, j < c.i.toNat → words.reverse[j]? = some (memWord w m (slotOf c j))

/-- `StoredInOrder` through the phases of an XFERRD: nothing is stored before the first poll; in MEM(k)
the word in flight is the newest one popped, and bytes 0 to k-1 of its slot are written. -/
def ReadInv (w : World) (s : State) : Prop :=
  match s.cb.ph with
  | .idle => True
  | .issEn => s.cb.i = 0
  | .issCmd _ => s.cb.i = 0
  | .start => s.cb.i = 0
  | .poll => StoredInOrder w s.cb s.mem (poppedWords w.params (blockTrace s.trace))
  | .data => StoredInOrder w s.cb s.mem (poppedWords w.params (blockTrace s.trace))
  | .mem k =>
    ∃ rest, poppedWords w.params (blockTrace s.trace) = s.cb.w :: rest ∧
      StoredInOrder w s.cb s.mem rest ∧
      ∀ j : Fin 4, j < k →
        memByte w s.mem (slotAddr s.cb + BitVec.ofNat 32 j.val) = byteOf s.cb.w j

/-- The `j`-th word that XFERWR pushes (R140, R141): the word of slot `j` while there is one, then the
filler, which is the last word loaded with `FILL_LAST` and zero without, or when none was loaded. -/
def wordToPush (w : World) (c : Cbseq) (m : List Host.Cell) (j : Nat) : Word :=
  if c.buf ≠ 0 ∧ j < c.wcnt.toNat then memWord w m (slotOf c j)
  else if w.params.fillLast = true ∧ c.buf ≠ 0 ∧ c.wcnt ≠ 0 then
    memWord w m (slotOf c (c.wcnt.toNat - 1))
  else 0

/-- R140: the words pushed (newest first) are, in order, the words of the buffer and then the filler; I
is how many of them came from the buffer. -/
def PushedInOrder (w : World) (c : Cbseq) (m : List Host.Cell) (words : List Word) : Prop :=
  c.i.toNat = (if c.buf = 0 then 0 else min words.length c.wcnt.toNat) ∧
    ∀ j, j < words.length → words.reverse[j]? = some (wordToPush w c m j)

/-- LAST is the word of the most recent LoadWord of this operation, zero if there has been none
(R141). -/
def LastLoaded (w : World) (c : Cbseq) (m : List Host.Cell) : Prop :=
  c.last = if c.i = 0 then 0 else memWord w m (slotOf c (c.i.toNat - 1))

/-- `PushedInOrder` through the phases of an XFERWR: nothing is pushed before the first poll; in MEM(k)
bytes 0 to k-1 of the word in flight are loaded (that they stand in W meanwhile is the model's choice, log
entry 4); in DATA the word in flight is the next one to push and
is already counted if it came from the buffer. -/
def WriteInv (w : World) (s : State) : Prop :=
  match s.cb.ph with
  | .idle => True
  | .issEn => s.cb.i = 0 ∧ s.cb.last = 0
  | .issCmd _ => s.cb.i = 0 ∧ s.cb.last = 0
  | .start => s.cb.i = 0 ∧ s.cb.last = 0
  | .poll =>
    PushedInOrder w s.cb s.mem (pushedWords w.params (blockTrace s.trace)) ∧
      LastLoaded w s.cb s.mem
  | .data =>
    PushedInOrder w s.cb s.mem (s.cb.w :: pushedWords w.params (blockTrace s.trace)) ∧
      LastLoaded w s.cb s.mem
  | .mem k =>
    PushedInOrder w s.cb s.mem (pushedWords w.params (blockTrace s.trace)) ∧
      LastLoaded w s.cb s.mem ∧
      ∀ j : Fin 4, j < k →
        byteOf s.cb.w j = memByte w s.mem (slotAddr s.cb + BitVec.ofNat 32 j.val)

end Sys2Proof.Safety
end

