-- ==== Sys2Proof/Certificates/Slice0/Obligations.lean ====
section
/-!
DEFINITION. The statements for the provers. `w` is any world (spec/00_scope.md R6, R7): any
configuration, any environment, any map of memory and any power-on contents of it; `step` and `exec` are `stepIn` and
`execIn` at `Config.world`, of which nothing is known but that its configuration is legal. An inference
of the model's own is named with its log entry.
-/

open Sys2Proof Sys2Proof.Machine Sys2Proof.Safety

/-! ### Encoding -/

/-- R70, R71: a word selects an operation exactly when it is that operation's word, so no bit of an
encoding is dropped and no two words mean the same. -/
def Obligations.DecodeInvertsEncode : Prop :=
  ∀ (v : Word) (i : Instr), decode v = .ok i ↔ v = encode i

/-- R72: the legal words, by the table's masks and by the rule's own list. -/
def Obligations.LegalOperationWords : Prop :=
  ∀ (p : Params) (v : Word),
    (legalWord p v = true ↔
      ∃ r ∈ opRows, v &&& r.mask = r.bits ∧ (r.mnemonic = "BUILDC" → p.hasCksum = true)) ∧
    (legalWord p v = true ↔
      (∃ cc : Byte, v = (0#16 ++ cc) ++ 0x01#8) ∨
      (p.hasCksum = true ∧ ∃ cc : Byte, v = (0#16 ++ cc) ++ 0x02#8) ∨
      v = 0x00000003 ∨ v = 0x00000004 ∨ v = 0x00000005)

/-- R71: the five rows are disjoint, and the operation decoded is the one of the row that the word
selects, with CMDOP its bits 15:8. -/
def Obligations.TableRowSelectsOperation : Prop :=
  ∀ v : Word,
    (∀ r ∈ opRows, ∀ r' ∈ opRows, v &&& r.mask = r.bits → v &&& r'.mask = r'.bits → r = r') ∧
    (∀ i : Instr, decode v = .ok i ↔
      ∃ r ∈ opRows, v &&& r.mask = r.bits ∧ r.mnemonic = i.mnemonic ∧
        ∀ cc, i = .build cc ∨ i = .buildc cc → cc = v.extractLsb 15 8)

/-- Words written out from R71 and from vectors V1, V6 and V51. -/
def Obligations.SampleWordsDecode : Prop :=
  decode 0x0000C901 = .ok (.build 0xC9) ∧ decode 0x0000C502 = .ok (.buildc 0xC5) ∧
    decode 0x00000003 = .ok .waitrdy ∧ decode 0x00000004 = .ok .xferrd ∧
    decode 0x00000005 = .ok .xferwr ∧ decode 0x00000000 = .error .unknownFunction ∧
    decode 0x00010001 = .error .reservedNotZero ∧ decode 0x00000104 = .error .cmdopNotZero

/-! ### The step -/

/-- The machine runs in `Config.world`, a legal configuration (R6, R7, U22; what stands in for a draw that
is not legal is the model's choice, log entry 1). -/
def Obligations.StepIsTheAnyWorldStep : Prop :=
  Config.world.params.Legal ∧
    (∀ (i : Instr) (s : State), exec i s = execIn Config.world i s) ∧
    ∀ s : State, step s = stepIn Config.world s

/-- R13, R73: a host write of a word that decodes to `i`, due with RUN = 0, runs `exec i` on the state in
which that input has been taken and recorded. -/
def Obligations.StepRunsDecodedOperation : Prop :=
  ∀ (s : State) (v : Word) (i : Instr) (ps : List Pending),
    s.inputs = ⟨0, .write 0x00 .word v⟩ :: ps → s.cb.stat.run = false → decode v = .ok i →
      step s = exec i
        { s with inputs := ps, trace := .host ⟨.write, 0x00, .word, v⟩ :: s.trace }

/-- R20, R186: with no input due, a step is one turn of CBSEQ, and the first input waits one turn less
(how inputs wait is the model's choice, log entry 6). -/
def Obligations.StepTakesBlockTurn : Prop :=
  ∀ (s : State), Quiet s →
    step s = blockTurn Config.world { s with inputs := waitedInputs s.inputs }

/-- R20, R200: an idle block takes no step and makes no transaction, for as long as no input arrives (the
machine's step then changes nothing: the model's choice, log entry 8). -/
def Obligations.IdleBlockStaysIdle : Prop :=
  ∀ (w : World) (k : Nat) (s : State), s.cb.ph = .idle → s.inputs = [] → runIn w k s = .next s

/-! ### The host port -/

/-- R11: what a host read of each offset returns, at any time, and that it changes nothing. (The record of
transactions is where the model writes the value returned: log entry 14.) -/
def Obligations.HostReadReturnsRegister : Prop :=
  ∀ (w : World) (s : State) (off : Word) (ps : List Pending),
    s.inputs = ⟨0, .read off .word⟩ :: ps → off.toNat % 4 = 0 → off.toNat < 0x40 →
      stepIn w s = .next { s with
        inputs := ps
        trace := .host ⟨.read, off, .word,
          if off = 0x00 then s.cb.op
          else if off = 0x04 then Stat.toWord s.cb.stat
          else if off = 0x08 then s.cb.addr
          else if off = 0x0C then s.cb.flags
          else if off = 0x10 then s.cb.buf
          else if off = 0x14 then s.cb.wcnt
          else if off = 0x18 then s.cb.frame[3] ++ s.cb.frame[2] ++ s.cb.frame[1] ++ s.cb.frame[0]
          else if off = 0x1C then s.cb.frame[7] ++ s.cb.frame[6] ++ s.cb.frame[5] ++ s.cb.frame[4]
          else if off = 0x20 then s.cb.i
          else if off = 0x24 then s.cb.n
          else 0⟩ :: s.trace }

/-- R14: the bits of STAT as the host reads it. -/
def Obligations.StatusWordBits : Prop :=
  ∀ (t : Stat) (k : Nat),
    (Stat.toWord t).getLsbD k =
      if k = 0 then t.run else if k = 1 then t.done else if k = 2 then t.tmo
      else if k = 3 then t.ill else if k = 4 then t.ovr else false

/-- R12: what a host write does, at every offset, with RUN = 1 and with RUN = 0. -/
def Obligations.HostWriteEffects : Prop :=
  ∀ (w : World) (s : State) (off v : Word) (ps : List Pending),
    s.inputs = ⟨0, .write off .word v⟩ :: ps → off.toNat % 4 = 0 → off.toNat < 0x40 →
      let s' : State :=
        { s with inputs := ps, trace := .host ⟨.write, off, .word, v⟩ :: s.trace }
      stepIn w s =
        if s.cb.stat.run = true then
          .next { s' with cb := { s.cb with stat := { s.cb.stat with ovr := true } } }
        else if off = 0x00 then
          match decode v with
          | .ok i => execIn w i s'
          | .error _ => .next { s' with cb := { s.cb with stat := { s.cb.stat with ill := true } } }
        else if off = 0x04 then
          .next { s' with cb := { s.cb with stat := { s.cb.stat with
            tmo := s.cb.stat.tmo && !v.getLsbD 2
            ill := s.cb.stat.ill && !v.getLsbD 3
            ovr := s.cb.stat.ovr && !v.getLsbD 4 } } }
        else if off = 0x08 then .next { s' with cb := { s.cb with addr := v } }
        else if off = 0x0C then .next { s' with cb := { s.cb with flags := v } }
        else if off = 0x10 then .next { s' with cb := { s.cb with buf := v } }
        else if off = 0x14 then .next { s' with cb := { s.cb with wcnt := v } }
        else if off = 0x18 then
          .next { s' with cb := { s.cb with frame :=
            #v[v.extractLsb 7 0, v.extractLsb 15 8, v.extractLsb 23 16, v.extractLsb 31 24,
              s.cb.frame[4], s.cb.frame[5], s.cb.frame[6], s.cb.frame[7]] } }
        else if off = 0x1C then
          .next { s' with cb := { s.cb with frame :=
            #v[s.cb.frame[0], s.cb.frame[1], s.cb.frame[2], s.cb.frame[3],
              v.extractLsb 7 0, v.extractLsb 15 8, v.extractLsb 23 16, v.extractLsb 31 24] } }
        else .next s'

/-- R10, U11: a host transaction that is not an aligned 32-bit one inside the block is refused, whether
RUN is 0 or 1 (that this check comes before R12's is the model's reading, log entry 15). -/
def Obligations.BadHostTransactionRefused : Prop :=
  ∀ (w : World) (s : State) (off v : Word) (width : Width) (ps : List Pending),
    width ≠ .word ∨ off.toNat % 4 ≠ 0 ∨ 0x40 ≤ off.toNat →
      (s.inputs = ⟨0, .write off width v⟩ :: ps → stepIn w s = .refused .badHostAccess) ∧
      (s.inputs = ⟨0, .read off width⟩ :: ps → stepIn w s = .refused .badHostAccess)

/-- R182: `raise Illegal` sets STAT.ILL and nothing else, and happens with RUN = 0 only, at a host write
to OP of a word that is not legal. -/
def Obligations.IllegalWordSetsOnlyIll : Prop :=
  ∀ (w : World) (s : State),
    (∀ (v : Word) (ps : List Pending), s.inputs = ⟨0, .write 0x00 .word v⟩ :: ps →
      s.cb.stat.run = false → legalWord w.params v = false →
      stepIn w s = .next { s with
        cb := { s.cb with stat := { s.cb.stat with ill := true } }
        inputs := ps
        trace := .host ⟨.write, 0x00, .word, v⟩ :: s.trace }) ∧
    (∀ t, stepIn w s = .next t → s.cb.stat.ill = false → t.cb.stat.ill = true →
      s.cb.stat.run = false ∧
        ∃ v ps, s.inputs = ⟨0, .write 0x00 .word v⟩ :: ps ∧ legalWord w.params v = false)

/-- R183: `raise Overrun` sets STAT.OVR and nothing else; the run goes on, on ports B and M, as if the
write had never come; and it happens with RUN = 1 only. -/
def Obligations.OverrunLeavesOperationUndisturbed : Prop :=
  ∀ (w : World) (s : State),
    (∀ (off v : Word) (ps : List Pending), s.inputs = ⟨0, .write off .word v⟩ :: ps →
      off.toNat % 4 = 0 → off.toNat < 0x40 → s.cb.stat.run = true →
      ∃ t, stepIn w s = .next t ∧
        t.cb = { s.cb with stat := { s.cb.stat with ovr := true } } ∧
        t.mem = s.mem ∧ t.inputs = ps ∧ blockTrace t.trace = blockTrace s.trace ∧
        ∀ k, SameAnswers (runIn w k t) (runIn w k { s with inputs := ps })) ∧
    (∀ t, stepIn w s = .next t → s.cb.stat.ovr = false → t.cb.stat.ovr = true →
      s.cb.stat.run = true)

/-- R183, as a lemma about one step: two states that differ in STAT.OVR and in the record of the host's
own transactions answer alike, whatever is due and whatever the block is doing, and go on differing in
nothing else. -/
def Obligations.OverrunInvisibleToStep : Prop :=
  ∀ (w : World) (a b : State), SameButOverrun a b → SameAnswers (stepIn w a) (stepIn w b)

/-- R13: OP holds the last legal word accepted, and acceptance clears DONE; for BUILD and BUILDC
`complete` then sets it again in the same step. -/
def Obligations.AcceptedWordStored : Prop :=
  ∀ (w : World) (s t : State) (v : Word) (ps : List Pending),
    s.inputs = ⟨0, .write 0x00 .word v⟩ :: ps → s.cb.stat.run = false →
    legalWord w.params v = true → stepIn w s = .next t →
      t.cb.op = v ∧ (t.cb.stat.done = true ↔ v.extractLsb 7 0 = 0x01 ∨ v.extractLsb 7 0 = 0x02) ∧
      (t.cb.stat.run = true ↔ t.cb.stat.done = false)

/-- R19, R15 to R18, R53: OP and the operand registers ADDR, FLAGS, BUF, WCNT are written by the host
(or reset) only, FRAME by the host, BUILD, BUILDC (or reset) only; none changes in a step with RUN = 1
that is no reset. -/
def Obligations.OperandsKeptWhileRunning : Prop :=
  ∀ (w : World) (s t : State), stepIn w s = .next t →
    (∀ ps, s.inputs ≠ ⟨0, .reset⟩ :: ps) →
    (s.cb.stat.run = true ∨ Quiet s) →
      t.cb.op = s.cb.op ∧ t.cb.addr = s.cb.addr ∧ t.cb.flags = s.cb.flags ∧
      t.cb.buf = s.cb.buf ∧ t.cb.wcnt = s.cb.wcnt ∧ t.cb.frame = s.cb.frame

/-! ### Reset -/

/-- R36, R200: reset, whenever it arrives, puts every register of CBSEQ at the rule's value; the machine
starts there. That memory and the waiting inputs stay as they were is the model's reading of R202, which
calls the contents of memory after reset unspecified (DEDUCED, log entry 13). -/
def Obligations.ResetRestoresRegisters : Prop :=
  (∀ (w : World) (s t : State) (ps : List Pending), s.inputs = ⟨0, .reset⟩ :: ps →
    stepIn w s = .next t → t.mem = s.mem ∧ t.inputs = ps ∧ t.cb = State.reset.cb) ∧
  (∀ (w : World) (s : State) (ps : List Pending), s.inputs = ⟨0, .reset⟩ :: ps →
    ∃ t, stepIn w s = .next t) ∧
  State.reset.cb.op = 0 ∧ Stat.toWord State.reset.cb.stat = 0 ∧ State.reset.cb.addr = 0 ∧
  State.reset.cb.flags = 0 ∧ State.reset.cb.buf = 0 ∧ State.reset.cb.wcnt = 0 ∧
  (∀ k : Fin 8, State.reset.cb.frame[k] = 0x00) ∧ State.reset.cb.i = 0 ∧
  State.reset.cb.n = 0 ∧ State.reset.cb.s = 0 ∧ State.reset.cb.w = 0 ∧
  State.reset.cb.last = 0 ∧ State.reset.cb.ready = false ∧ State.reset.cb.aln = false ∧
  State.reset.cb.ph = .idle ∧ State.reset.cb.opk = .none

/-- R201: reset abandons a running operation where it stands; no further transaction follows on port B
or port M until another operation is started. (Reset arrives between two turns: log entry 13.) -/
def Obligations.ResetAbandonsOperation : Prop :=
  ∀ (w : World) (s : State) (k : Nat), s.inputs = [⟨0, .reset⟩] →
    ∃ t, runIn w (k + 1) s = .next t ∧ blockTrace t.trace = blockTrace s.trace ∧
      t.cb.stat.run = false ∧ t.cb.ph = .idle

/-! ### The frame builder -/

/-- R91: BUILD, in both layouts, whole in the step of its acceptance; dropped with RUN = 1. -/
def Obligations.BuildWritesPlainFrame : Prop :=
  ∀ (cc : Byte) (s : State),
    encode (.build cc) = (0#16 ++ cc) ++ 0x01#8 ∧
    (s.cb.stat.run = false →
      exec (.build cc) s = .next { s with cb := { s.cb with
        op := encode (.build cc)
        frame := match Config.params.opcodePos with
          | .byte0 => #v[cc, s.cb.addr.extractLsb 31 24, s.cb.addr.extractLsb 23 16,
              s.cb.addr.extractLsb 15 8, s.cb.addr.extractLsb 7 0, 0x00, 0x00, 0x00]
          | .byte7 => #v[0x00, 0x00, 0x00, s.cb.addr.extractLsb 7 0, s.cb.addr.extractLsb 15 8,
              s.cb.addr.extractLsb 23 16, s.cb.addr.extractLsb 31 24, cc]
        stat := { s.cb.stat with done := true, run := false }
        opk := .none
        ph := .idle } }) ∧
    (s.cb.stat.run = true →
      exec (.build cc) s = .next { s with cb := { s.cb with
        stat := { s.cb.stat with ovr := true } } })

/-- R93: BUILDC, in both layouts; where `HAS_CKSUM` is false, Illegal and FRAME unchanged. -/
def Obligations.BuildcWritesChecksumFrame : Prop :=
  ∀ (cc : Byte) (s : State),
    encode (.buildc cc) = (0#16 ++ cc) ++ 0x02#8 ∧
    (s.cb.stat.run = false →
      exec (.buildc cc) s = .next { s with cb :=
        if Config.params.hasCksum = true then
          { s.cb with
            op := encode (.buildc cc)
            frame :=
              let ck := s.cb.addr.extractLsb 31 24 ^^^ s.cb.addr.extractLsb 23 16 ^^^
                s.cb.addr.extractLsb 15 8 ^^^ s.cb.addr.extractLsb 7 0
              match Config.params.opcodePos with
              | .byte0 => #v[cc, s.cb.addr.extractLsb 31 24, s.cb.addr.extractLsb 23 16,
                  s.cb.addr.extractLsb 15 8, s.cb.addr.extractLsb 7 0, ck, 0x00, 0x00]
              | .byte7 => #v[0x00, 0x00, ck, s.cb.addr.extractLsb 7 0,
                  s.cb.addr.extractLsb 15 8, s.cb.addr.extractLsb 23 16,
                  s.cb.addr.extractLsb 31 24, cc]
            stat := { s.cb.stat with done := true, run := false }
            opk := .none
            ph := .idle }
        else { s.cb with stat := { s.cb.stat with ill := true } } }) ∧
    (s.cb.stat.run = true →
      exec (.buildc cc) s = .next { s with cb := { s.cb with
        stat := { s.cb.stat with ovr := true } } })

/-- R92, R80: after BUILD, for every configuration, the opcode stands at `OPCODE_POS`, the address is
recovered by big-endian reassembly, and the other three bytes are zero. -/
def Obligations.BuiltFrameDecodesBack : Prop :=
  ∀ (w : World) (cc : Byte) (s : State), s.cb.stat.run = false →
    ∃ t, execIn w (.build cc) s = .next t ∧
      (w.params.opcodePos = .byte0 →
        t.cb.frame[0] = cc ∧
        t.cb.frame[1] ++ t.cb.frame[2] ++ t.cb.frame[3] ++ t.cb.frame[4] = s.cb.addr ∧
        t.cb.frame[5] = 0 ∧ t.cb.frame[6] = 0 ∧ t.cb.frame[7] = 0) ∧
      (w.params.opcodePos = .byte7 →
        t.cb.frame[7] = cc ∧
        t.cb.frame[6] ++ t.cb.frame[5] ++ t.cb.frame[4] ++ t.cb.frame[3] = s.cb.addr ∧
        t.cb.frame[2] = 0 ∧ t.cb.frame[1] = 0 ∧ t.cb.frame[0] = 0)

/-- R77: BUILDC's checksum byte is the exclusive or of the four address bytes and nothing else, next
after the address field; BUILD writes zero there. -/
def Obligations.ChecksumIsXorOfAddressBytes : Prop :=
  ∀ (w : World) (cc : Byte) (s : State), s.cb.stat.run = false → w.params.hasCksum = true →
    ∃ t u, execIn w (.buildc cc) s = .next t ∧ execIn w (.build cc) s = .next u ∧
      (w.params.opcodePos = .byte0 →
        t.cb.frame[5] = t.cb.frame[1] ^^^ t.cb.frame[2] ^^^ t.cb.frame[3] ^^^ t.cb.frame[4] ∧
        t.cb.frame[1] ++ t.cb.frame[2] ++ t.cb.frame[3] ++ t.cb.frame[4] = s.cb.addr ∧
        u.cb.frame[5] = 0 ∧ ∀ k : Fin 8, k ≠ 5 → t.cb.frame[k] = u.cb.frame[k]) ∧
      (w.params.opcodePos = .byte7 →
        t.cb.frame[2] = t.cb.frame[6] ^^^ t.cb.frame[5] ^^^ t.cb.frame[4] ^^^ t.cb.frame[3] ∧
        t.cb.frame[6] ++ t.cb.frame[5] ++ t.cb.frame[4] ++ t.cb.frame[3] = s.cb.addr ∧
        u.cb.frame[2] = 0 ∧ ∀ k : Fin 8, k ≠ 2 → t.cb.frame[k] = u.cb.frame[k])

/-- R79 (with R75, R76, R78): what CMD[0..7] hold after an Issue of a built frame. Opcode first on the
wire when exactly one of the two is so (`OPCODE_POS == 0` without mirror, or 7 with it), else opcode
last; the two layouts are mirror images. -/
def Obligations.WireFrameOfBuiltFrame : Prop :=
  ∀ (p : Params) (opc x : Byte) (addr : Word),
    let a3 := addr.extractLsb 31 24
    let a2 := addr.extractLsb 23 16
    let a1 := addr.extractLsb 15 8
    let a0 := addr.extractLsb 7 0
    let f := buildFrame p opc addr x
    (∀ k : Fin 8, (wireFrame p f)[k] = f[cmdIndex p k]) ∧
    ((p.opcodePos = .byte0 ↔ p.issueMirror = false) →
      wireFrame p f = #v[opc, a3, a2, a1, a0, x, 0x00, 0x00]) ∧
    ((p.opcodePos = .byte7 ↔ p.issueMirror = false) →
      wireFrame p f = #v[0x00, 0x00, x, a0, a1, a2, a3, opc])

/-- R90, R95: the frame of BUILD and BUILDC. Whatever they do, they touch no memory, no input and no
port, and of the registers only OP, STAT, FRAME and the idle PH and OPK. -/
def Obligations.BuildersTouchFrameOnly : Prop :=
  ∀ (i : Instr) (s t : State), (∃ cc, i = .build cc ∨ i = .buildc cc) → exec i s = .next t →
    (∀ a, memByte Config.world t.mem a = memByte Config.world s.mem a) ∧
    t.inputs = s.inputs ∧ t.trace = s.trace ∧
    t.cb.addr = s.cb.addr ∧ t.cb.flags = s.cb.flags ∧ t.cb.buf = s.cb.buf ∧
    t.cb.wcnt = s.cb.wcnt ∧ t.cb.i = s.cb.i ∧ t.cb.n = s.cb.n ∧ t.cb.s = s.cb.s ∧
    t.cb.w = s.cb.w ∧ t.cb.last = s.cb.last ∧ t.cb.ready = s.cb.ready ∧ t.cb.aln = s.cb.aln ∧
    t.cb.stat.tmo = s.cb.stat.tmo

/-! ### The launch -/

/-- R96, R97, R98: from ISS_EN, whatever the operation and the frame, exactly ten port B writes in this
order: EN, the eight bytes of FRAME in ascending index, each to its own CMD sub-register, then CTRL;
no other register of CBSEQ changes but PH. -/
def Obligations.LaunchMakesTenWrites : Prop :=
  ∀ (w : World) (s : State), s.cb.ph = .issEn →
    let b (t k : Fin 8) : Event :=
      .bus ⟨.write, w.params.cmdBase +
        BitVec.ofNat 32 (if w.params.issueMirror = true then k.val else t.val), .byte,
        s.cb.frame[t].setWidth 32⟩
    blockRun w 10 s = .next { s with
      cb := { s.cb with ph := .poll }
      trace :=
        [.bus ⟨.write, w.params.ctrlAddr, .word, s.cb.flags⟩,
          b 7 0, b 6 1, b 5 2, b 4 3, b 3 4, b 2 5, b 1 6, b 0 7,
          .bus ⟨.write, w.params.enAddr, .byte, w.params.enValue.setWidth 32⟩] ++ s.trace }

/-- R97, H-1: in the record of every run, a CTRL write is made straight after a complete Issue and never
otherwise. The invariant, kept by every step. -/
def Obligations.LaunchInvariantKept : Prop :=
  ∀ (s t : State), Inv s → LaunchInv Config.world.params s → step s = .next t →
    LaunchInv Config.world.params t

/-- The launch invariant holds at reset. -/
def Obligations.LaunchInvariantAtReset : Prop := ∀ p : Params, LaunchInv p State.reset

/-! ### WAITRDY -/

/-- R112, the acceptance of WAITRDY: READY and N are cleared and the launch begins; with RUN = 1 the
word is dropped. -/
def Obligations.WaitrdyAccepted : Prop :=
  ∀ s : State,
    (s.cb.stat.run = false →
      exec .waitrdy s = .next { s with cb := { s.cb with
        op := 0x00000003
        stat := { s.cb.stat with done := false, run := true }
        opk := .waitrdy
        n := 0
        ready := false
        ph := .issEn } }) ∧
    (s.cb.stat.run = true →
      exec .waitrdy s = .next { s with cb := { s.cb with
        stat := { s.cb.stat with ovr := true } } })

/-- R112, from the CTRL write on: the status read, the DATA read, the readiness test, the loop decision
with its bound, for every answer of the environment. -/
def Obligations.WaitrdyTurns : Prop :=
  ∀ (w : World) (s : State), s.cb.opk = .waitrdy →
    let ended (done : Bool) (c : Cbseq) : Cbseq :=
      { c with
        stat := { c.stat with
          run := false
          done := done || c.stat.done
          tmo := c.stat.tmo || !done }
        opk := .none
        ph := .idle }
    let decision (c : Cbseq) : Cbseq :=
      if c.s.getLsbD w.params.busyBit.val = true then
        if w.params.pollLimit = some c.n then ended false c else { c with ph := .poll }
      else if c.ready = true then ended true c
      else if w.params.pollLimit = some c.n then ended false c
      else { c with ph := .issEn }
    (s.cb.ph = .poll →
      let v := w.answer (busHistory s.trace) w.params.ctrlAddr
      let c : Cbseq := { s.cb with s := v, n := if s.cb.n = 0xFFFFFFFF then s.cb.n else s.cb.n + 1 }
      blockTurn w s = .next { s with
        cb := if v.getLsbD w.params.drdyBit.val = true then { c with ph := .data } else decision c
        trace := .bus ⟨.read, w.params.ctrlAddr, .word, v⟩ :: s.trace }) ∧
    (s.cb.ph = .data →
      let v := w.answer (busHistory s.trace) w.params.dataAddr
      blockTurn w s = .next { s with
        cb := decision { s.cb with w := v, ready := if v = 0 then true else s.cb.ready }
        trace := .bus ⟨.read, w.params.dataAddr, .word, v⟩ :: s.trace })

/-- R113, R31: READY changes by acceptance of a WAITRDY, by reset, and when a running WAITRDY consumes a
zero word, which sets it. -/
def Obligations.ReadySetByZeroWordOnly : Prop :=
  ∀ (w : World) (s t : State), stepIn w s = .next t → t.cb.ready ≠ s.cb.ready →
    (∃ ps, s.inputs = ⟨0, .reset⟩ :: ps) ∨
    (∃ ps, s.inputs = ⟨0, .write 0x00 .word 0x00000003⟩ :: ps ∧ s.cb.stat.run = false ∧
      t.cb.ready = false) ∨
    (s.cb.opk = .waitrdy ∧ s.cb.ph = .data ∧ t.cb.ready = true ∧
      w.answer (busHistory s.trace) w.params.dataAddr = 0)

/-- R115: a running WAITRDY makes no port M transaction and reads or changes none of BUF, WCNT, I, LAST,
ALN; its acceptance neither. -/
def Obligations.WaitrdyLeavesBufferAlone : Prop :=
  (∀ (w : World) (s t : State), s.cb.opk = .waitrdy → blockTurn w s = .next t →
    memTrace t.trace = memTrace s.trace ∧ t.mem = s.mem ∧ t.cb.buf = s.cb.buf ∧
    t.cb.wcnt = s.cb.wcnt ∧ t.cb.i = s.cb.i ∧ t.cb.last = s.cb.last ∧ t.cb.aln = s.cb.aln ∧
    ∀ (b n i l : Word) (al : Bool),
      blockTurn w { s with cb := { s.cb with buf := b, wcnt := n, i := i, last := l, aln := al } } =
        .next { t with cb := { t.cb with buf := b, wcnt := n, i := i, last := l, aln := al } }) ∧
  (∀ (s t : State), exec .waitrdy s = .next t →
    memTrace t.trace = memTrace s.trace ∧ t.mem = s.mem ∧ t.cb.buf = s.cb.buf ∧
    t.cb.wcnt = s.cb.wcnt ∧ t.cb.i = s.cb.i ∧ t.cb.last = s.cb.last ∧ t.cb.aln = s.cb.aln)

/-- R116: with `POLL_LIMIT = INF` a turn ends WAITRDY exactly when READY is then set and the status
sample has BUSY clear, and it ends it by `complete`. -/
def Obligations.WaitrdyEndsOnlyWhenReady : Prop :=
  ∀ (w : World) (s t : State), w.params.pollLimit = none → s.cb.opk = .waitrdy →
    s.cb.stat.run = true → s.cb.ph = .poll ∨ s.cb.ph = .data → blockTurn w s = .next t →
      (t.cb.stat.run = false ↔
        t.cb.ready = true ∧ t.cb.s.getLsbD w.params.busyBit.val = false ∧ t.cb.ph ≠ .data) ∧
      (t.cb.stat.run = false → t.cb.stat.done = true ∧ t.cb.stat.tmo = s.cb.stat.tmo)

/-! ### XFERRD and XFERWR -/

/-- R135, R133, the acceptance of XFERRD; on a platform whose spaces are one, a buffer that contains the
bus registers is refused (R54(b), log entry 5). -/
def Obligations.XferrdAccepted : Prop :=
  ∀ s : State,
    (s.cb.stat.run = false → bufferClash Config.params s.cb.buf s.cb.wcnt = false →
      exec .xferrd s = .next { s with cb := { s.cb with
        op := 0x00000004
        stat := { s.cb.stat with done := false, run := true }
        opk := .xferrd
        n := 0
        i := 0
        aln := decide (s.cb.buf.extractLsb 1 0 = 0)
        ph := .issEn } }) ∧
    (s.cb.stat.run = true →
      exec .xferrd s = .next { s with cb := { s.cb with
        stat := { s.cb.stat with ovr := true } } })

/-- R140, R133, the acceptance of XFERWR, which also clears LAST; on a platform whose spaces are one, a
buffer that contains the bus registers is refused (R54(b), log entry 5). -/
def Obligations.XferwrAccepted : Prop :=
  ∀ s : State,
    (s.cb.stat.run = false → bufferClash Config.params s.cb.buf s.cb.wcnt = false →
      exec .xferwr s = .next { s with cb := { s.cb with
        op := 0x00000005
        stat := { s.cb.stat with done := false, run := true }
        opk := .xferwr
        n := 0
        i := 0
        last := 0
        aln := decide (s.cb.buf.extractLsb 1 0 = 0)
        ph := .issEn } }) ∧
    (s.cb.stat.run = true →
      exec .xferwr s = .next { s with cb := { s.cb with
        stat := { s.cb.stat with ovr := true } } })

/-- R54(b), U10: a transfer is refused exactly when the platform's spaces are one, there is a buffer, and
it contains a byte of a port B register or of the host block. (That a parameter says whether the spaces are
one is the model's reading of R54, log entry 5.) -/
def Obligations.OverlappingLaunchRefused : Prop :=
  ∀ (w : World) (i : Instr) (s : State), i = .xferrd ∨ i = .xferwr → s.cb.stat.run = false →
    (execIn w i s = .refused .bufferOverlapsRegisters ↔
      w.params.oneSpace = true ∧ s.cb.buf ≠ 0 ∧
      ∃ (j : Nat) (a : Word), j < 4 * s.cb.wcnt.toNat ∧ a = s.cb.buf + BitVec.ofNat 32 j ∧
        (a = w.params.enAddr ∨ (∃ k < 8, a = w.params.cmdBase + BitVec.ofNat 32 k) ∨
          (∃ k < 4, a = w.params.ctrlAddr + BitVec.ofNat 32 k) ∨
          (∃ k < 4, a = w.params.dataAddr + BitVec.ofNat 32 k) ∨
          (∃ k < 64, a = w.params.hostBase + BitVec.ofNat 32 k)))

/-- The frame of WAITRDY, XFERRD and XFERWR at acceptance: no memory, no port, and of the registers only
OP, STAT's RUN and DONE (or OVR), N, PH, OPK, and READY (WAITRDY) or I, ALN (transfers), LAST
(XFERWR). -/
def Obligations.PollingOperationsAcceptanceFrame : Prop :=
  ∀ (i : Instr) (s t : State), i = .waitrdy ∨ i = .xferrd ∨ i = .xferwr → exec i s = .next t →
    (∀ a, memByte Config.world t.mem a = memByte Config.world s.mem a) ∧
    t.inputs = s.inputs ∧ t.trace = s.trace ∧
    t.cb.addr = s.cb.addr ∧ t.cb.flags = s.cb.flags ∧ t.cb.buf = s.cb.buf ∧
    t.cb.wcnt = s.cb.wcnt ∧ t.cb.frame = s.cb.frame ∧ t.cb.s = s.cb.s ∧ t.cb.w = s.cb.w ∧
    t.cb.stat.tmo = s.cb.stat.tmo ∧ t.cb.stat.ill = s.cb.stat.ill ∧
    (i ≠ .waitrdy → t.cb.ready = s.cb.ready) ∧
    (i = .waitrdy → t.cb.i = s.cb.i ∧ t.cb.aln = s.cb.aln) ∧
    (i ≠ .xferwr → t.cb.last = s.cb.last)

/-- R135, from the CTRL write on: XFERRD's status read, DATA read, store and loop decision, for every
answer of the environment; stuck where the store finds no memory (R45, U21, log entry 10). -/
def Obligations.XferrdTurns : Prop :=
  ∀ (w : World) (s : State), s.cb.opk = .xferrd →
    let decision (c : Cbseq) : Cbseq :=
      if c.s.getLsbD w.params.busyBit.val = true then
        if w.params.pollLimit = some c.n then
          { c with stat := { c.stat with run := false, tmo := true }, opk := .none, ph := .idle }
        else { c with ph := .poll }
      else { c with stat := { c.stat with run := false, done := true }, opk := .none, ph := .idle }
    let slot := s.cb.buf + 4 * s.cb.i
    (s.cb.ph = .poll →
      let v := w.answer (busHistory s.trace) w.params.ctrlAddr
      let c : Cbseq := { s.cb with s := v, n := if s.cb.n = 0xFFFFFFFF then s.cb.n else s.cb.n + 1 }
      blockTurn w s = .next { s with
        cb := if v.getLsbD w.params.drdyBit.val = true then { c with ph := .data } else decision c
        trace := .bus ⟨.read, w.params.ctrlAddr, .word, v⟩ :: s.trace }) ∧
    (s.cb.ph = .data →
      let v := w.answer (busHistory s.trace) w.params.dataAddr
      let c : Cbseq := { s.cb with w := v }
      blockTurn w s = .next { s with
        cb := if s.cb.buf ≠ 0 ∧ s.cb.i.toNat < s.cb.wcnt.toNat then { c with ph := .mem 0 }
          else decision c
        trace := .bus ⟨.read, w.params.dataAddr, .word, v⟩ :: s.trace }) ∧
    (s.cb.ph = .mem 0 → s.cb.aln = true → s.cb.buf.toNat % 4 = 0 →
      blockTurn w s =
        if ∀ j : Fin 4, w.backed (slot + BitVec.ofNat 32 j.val) = true then .next { s with
          cb := decision { s.cb with i := s.cb.i + 1 }
          mem := storeWord s.mem slot s.cb.w
          trace := .mem ⟨.write, slot, .word, s.cb.w⟩ :: s.trace }
        else .fault .unbackedMemory) ∧
    (∀ k : Fin 4, s.cb.ph = .mem k → s.cb.aln = false →
      let b : Byte := s.cb.w.extractLsb' (8 * k.val) 8
      let a := slot + BitVec.ofNat 32 k.val
      blockTurn w s =
        if w.backed a = true then .next { s with
          cb := if h : k.val + 1 < 4 then { s.cb with ph := .mem ⟨k.val + 1, h⟩ }
            else decision { s.cb with i := s.cb.i + 1 }
          mem := storeByte s.mem a b
          trace := .mem ⟨.write, a, .byte, b.setWidth 32⟩ :: s.trace }
        else .fault .unbackedMemory)

/-- R140, from the CTRL write on: XFERWR's status read, load or filler, DATA write and loop decision,
for every answer of the environment. (Where the bytes of a word stand while it is loaded is the model's
choice, log entry 4.) Stuck where the load finds no memory (R45, U21, log entry 10). -/
def Obligations.XferwrTurns : Prop :=
  ∀ (w : World) (s : State), s.cb.opk = .xferwr →
    let decision (c : Cbseq) : Cbseq :=
      if c.s.getLsbD w.params.busyBit.val = true then
        if w.params.pollLimit = some c.n then
          { c with stat := { c.stat with run := false, tmo := true }, opk := .none, ph := .idle }
        else { c with ph := .poll }
      else { c with stat := { c.stat with run := false, done := true }, opk := .none, ph := .idle }
    let slot := s.cb.buf + 4 * s.cb.i
    (s.cb.ph = .poll →
      let v := w.answer (busHistory s.trace) w.params.ctrlAddr
      let c : Cbseq := { s.cb with s := v, n := if s.cb.n = 0xFFFFFFFF then s.cb.n else s.cb.n + 1 }
      blockTurn w s = .next { s with
        cb := if v.getLsbD w.params.drdyBit.val = true then
            if s.cb.buf ≠ 0 ∧ s.cb.i.toNat < s.cb.wcnt.toNat then { c with ph := .mem 0 }
            else { c with w := if w.params.fillLast = true then s.cb.last else 0, ph := .data }
          else decision c
        trace := .bus ⟨.read, w.params.ctrlAddr, .word, v⟩ :: s.trace }) ∧
    (s.cb.ph = .data →
      blockTurn w s = .next { s with
        cb := decision s.cb
        trace := .bus ⟨.write, w.params.dataAddr, .word, s.cb.w⟩ :: s.trace }) ∧
    (s.cb.ph = .mem 0 → s.cb.aln = true → s.cb.buf.toNat % 4 = 0 →
      let v := memWord w s.mem slot
      blockTurn w s =
        if ∀ j : Fin 4, w.backed (slot + BitVec.ofNat 32 j.val) = true then .next { s with
          cb := { s.cb with w := v, last := v, i := s.cb.i + 1, ph := .data }
          trace := .mem ⟨.read, slot, .word, v⟩ :: s.trace }
        else .fault .unbackedMemory) ∧
    (∀ k : Fin 4, s.cb.ph = .mem k → s.cb.aln = false →
      let a := slot + BitVec.ofNat 32 k.val
      let b := memByte w s.mem a
      ∃ v : Word, (∀ j : Fin 4, v.extractLsb' (8 * j.val) 8 =
          if j = k then b else s.cb.w.extractLsb' (8 * j.val) 8) ∧
        blockTurn w s =
          if w.backed a = true then .next { s with
            cb := if h : k.val + 1 < 4 then { s.cb with w := v, ph := .mem ⟨k.val + 1, h⟩ }
              else { s.cb with w := v, last := v, i := s.cb.i + 1, ph := .data }
            trace := .mem ⟨.read, a, .byte, b.setWidth 32⟩ :: s.trace }
          else .fault .unbackedMemory)

/-- R131, R139: StoreWord leaves the same four bytes on both paths, the little-endian bytes of the word
at `BUF +32 4*I`, every other byte as before; one port M transaction on the aligned path, four on the
byte path. (Where there is no memory, see UnbackedTransactionIsStuck.) -/
def Obligations.StoreWordSameOnBothPaths : Prop :=
  ∀ (w : World) (s : State), s.cb.opk = .xferrd → s.cb.ph = .mem 0 →
    s.cb.aln = isAligned s.cb.buf →
    (∀ j : Fin 4, w.backed (slotAddr s.cb + BitVec.ofNat 32 j.val) = true) →
    ∃ t, blockRun w (if s.cb.aln = true then 1 else 4) s = .next t ∧
      (∀ a, memByte w t.mem a =
        if a = slotAddr s.cb then s.cb.w.extractLsb 7 0
        else if a = slotAddr s.cb + 1 then s.cb.w.extractLsb 15 8
        else if a = slotAddr s.cb + 2 then s.cb.w.extractLsb 23 16
        else if a = slotAddr s.cb + 3 then s.cb.w.extractLsb 31 24
        else memByte w s.mem a) ∧
      t.cb.i = s.cb.i + 1 ∧
      (memTrace t.trace).length = (memTrace s.trace).length + (if s.cb.aln = true then 1 else 4)

/-- R132, R139: LoadWord returns the same word on both paths, the little-endian word of the four bytes at
`BUF +32 4*I`, into W and LAST; memory is not changed. (Where there is no memory, see UnbackedTransactionIsStuck.) -/
def Obligations.LoadWordSameOnBothPaths : Prop :=
  ∀ (w : World) (s : State), s.cb.opk = .xferwr → s.cb.ph = .mem 0 →
    s.cb.aln = isAligned s.cb.buf →
    (∀ j : Fin 4, w.backed (slotAddr s.cb + BitVec.ofNat 32 j.val) = true) →
    ∃ t, blockRun w (if s.cb.aln = true then 1 else 4) s = .next t ∧
      t.cb.w = memByte w s.mem (slotAddr s.cb + 3) ++ memByte w s.mem (slotAddr s.cb + 2) ++
        memByte w s.mem (slotAddr s.cb + 1) ++ memByte w s.mem (slotAddr s.cb) ∧
      t.cb.last = t.cb.w ∧ t.cb.i = s.cb.i + 1 ∧ t.mem = s.mem ∧ t.cb.ph = .data ∧
      (memTrace t.trace).length = (memTrace s.trace).length + (if s.cb.aln = true then 1 else 4)

/-- R138, R133: with `WCNT == 0` or `BUF == 0` no turn uses port M or counts a word. -/
def Obligations.NoBufferNoPortM : Prop :=
  ∀ (w : World) (s t : State), Inv s → s.cb.wcnt = 0 ∨ s.cb.buf = 0 → blockTurn w s = .next t →
    memTrace t.trace = memTrace s.trace ∧ t.mem = s.mem ∧ t.cb.i = s.cb.i

/-- R137: a turn ends a transfer only by a status sample with BUSY clear, or at the poll bound; the word
count does not. -/
def Obligations.TransferEndsOnlyWhenNotBusy : Prop :=
  ∀ (w : World) (s t : State), Transferring s.cb → s.cb.stat.run = true → blockTurn w s = .next t →
    t.cb.stat.run = false →
      (t.cb.s.getLsbD w.params.busyBit.val = false ∧ t.cb.stat.done = true ∧
        t.cb.stat.tmo = s.cb.stat.tmo) ∨
      (t.cb.s.getLsbD w.params.busyBit.val = true ∧ w.params.pollLimit = some t.cb.n ∧
        t.cb.stat.tmo = true ∧ t.cb.stat.done = s.cb.stat.done)

/-- R32, R47: ALN changes only by reset or by the acceptance of a transfer, and then to `BUF[1:0] == 0`, so
never in mid-transfer. (That an acceptance always writes it: XferrdAccepted, XferwrAccepted.) -/
def Obligations.AlignmentDecidedOnce : Prop :=
  ∀ (w : World) (s t : State), stepIn w s = .next t →
    (∃ ps, s.inputs = ⟨0, .reset⟩ :: ps) ∨
    (∃ v ps, s.inputs = ⟨0, .write 0x00 .word v⟩ :: ps ∧ (v = 0x00000004 ∨ v = 0x00000005) ∧
      s.cb.stat.run = false ∧ t.cb.aln = decide (s.cb.buf.extractLsb 1 0 = 0)) ∨
    t.cb.aln = s.cb.aln

/-- The frame of a running operation's turn: FRAME and the operand registers, the inputs, and STAT's ILL
and OVR stay; memory changes only in a store of XFERRD, only in the bytes of its slot. -/
def Obligations.TurnFrame : Prop :=
  ∀ (w : World) (s t : State), blockTurn w s = .next t →
    t.cb.op = s.cb.op ∧ t.cb.addr = s.cb.addr ∧ t.cb.flags = s.cb.flags ∧ t.cb.buf = s.cb.buf ∧
    t.cb.wcnt = s.cb.wcnt ∧ t.cb.frame = s.cb.frame ∧ t.cb.aln = s.cb.aln ∧
    t.cb.stat.ill = s.cb.stat.ill ∧ t.cb.stat.ovr = s.cb.stat.ovr ∧ t.inputs = s.inputs ∧
    (s.cb.opk ≠ .xferwr → t.cb.last = s.cb.last) ∧
    (s.cb.opk ≠ .waitrdy → t.cb.ready = s.cb.ready) ∧
    (s.cb.ph ≠ .poll → t.cb.s = s.cb.s ∧ t.cb.n = s.cb.n) ∧
    ((∀ k, s.cb.ph ≠ .mem k) → t.cb.i = s.cb.i) ∧
    (¬ (s.cb.opk = .xferrd ∧ ∃ k, s.cb.ph = .mem k) →
      ∀ a, memByte w t.mem a = memByte w s.mem a) ∧
    (∀ k, s.cb.opk = .xferrd → s.cb.ph = .mem k → ∀ a,
      (∀ j : Fin 4, a ≠ slotAddr s.cb + BitVec.ofNat 32 j.val) →
        memByte w t.mem a = memByte w s.mem a)

/-- R136, R144: through a whole XFERRD whose slots do not wrap onto each other, the words stored are the
first `min(WCNT, words popped)`, in order, at consecutive slots. The invariant, kept by every turn of
CBSEQ (the host keeping off the buffer, R54(a)), and true when the operation has ended. -/
def Obligations.XferrdStoresPoppedWordsInOrder : Prop :=
  ∀ (w : World) (s t : State), w.params.Legal → Inv s → s.cb.opk = .xferrd →
    4 * s.cb.wcnt.toNat ≤ 2 ^ 32 → ReadInv w s → blockTurn w s = .next t →
      ReadInv w t ∧
      (t.cb.ph = .idle → StoredInOrder w t.cb t.mem (poppedWords w.params (blockTrace t.trace)))

/-- R140, R141, R142: through a whole XFERWR, the words pushed are the words of the buffer in order and
then the filler: the last word loaded, or zero. The invariant, kept by every turn of CBSEQ, and true when
the operation has ended; memory is never written. WriteInv's clause of MEM(k), that the bytes loaded so
far stand in W, rests on the model's choice, log entry 4. -/
def Obligations.XferwrPushesBufferThenFiller : Prop :=
  ∀ (w : World) (s t : State), w.params.Legal → Inv s → s.cb.opk = .xferwr → WriteInv w s →
    blockTurn w s = .next t →
      WriteInv w t ∧ t.mem = s.mem ∧
      (t.cb.ph = .idle → PushedInOrder w t.cb t.mem (pushedWords w.params (blockTrace t.trace)))

/-! ### Error conditions and the poll bound -/

/-- R181: `raise Timeout`, the only way STAT.TMO is set: at a loop decision where N has reached a finite
`POLL_LIMIT`. It sets TMO, clears RUN, and puts OPK at NONE and PH at IDLE; every other register, DONE,
ILL, OVR and ALN among them, is as before the step but for what the step's own transaction wrote before
the decision (R110, R112, R135, R140): S and N in POLL, W or W and READY in DATA, I in MEM(k). -/
def Obligations.TimeoutEndsOperation : Prop :=
  ∀ (w : World) (s t : State), stepIn w s = .next t → s.cb.stat.tmo = false →
    t.cb.stat.tmo = true →
      w.params.pollLimit = some t.cb.n ∧
      ∃ c : Cbseq,
        t.cb = { c with
          stat := { s.cb.stat with run := false, tmo := true }
          opk := .none
          ph := .idle } ∧
        ((s.cb.ph = .poll ∧ c = { s.cb with
            s := w.answer (busHistory s.trace) w.params.ctrlAddr
            n := if s.cb.n = 0xFFFFFFFF then s.cb.n else s.cb.n + 1 }) ∨
          (s.cb.ph = .data ∧ s.cb.opk = .waitrdy ∧
            let v := w.answer (busHistory s.trace) w.params.dataAddr
            c = { s.cb with w := v, ready := if v = 0 then true else s.cb.ready }) ∨
          (s.cb.ph = .data ∧ s.cb.opk = .xferrd ∧
            c = { s.cb with w := w.answer (busHistory s.trace) w.params.dataAddr }) ∨
          (s.cb.ph = .data ∧ s.cb.opk = .xferwr ∧ c = s.cb) ∨
          ((∃ k, s.cb.ph = .mem k) ∧ s.cb.opk = .xferrd ∧ c = { s.cb with i := s.cb.i + 1 }))

/-- R111: with a finite `POLL_LIMIT` an operation makes at most that many CTRL reads. The invariant, kept
by every step. -/
def Obligations.PollLimitKept : Prop :=
  ∀ (s t : State), Inv s → WithinPollLimit Config.world.params s.cb → step s = .next t →
    WithinPollLimit Config.world.params t.cb

/-- R184, U2: with `POLL_LIMIT = INF` nothing but its own exit condition ends a running operation: a turn
of a running block is a next state in which it still runs, or has completed with DONE set and a sample
that has BUSY clear. (Stuck is something else, U2 says: see UnbackedTransactionIsStuck.) -/
def Obligations.UnboundedOperationNeverGivesUp : Prop :=
  ∀ (w : World) (s : State), Inv s → s.cb.stat.run = true → w.params.pollLimit = none →
    ¬ AtUnbackedMemory w s →
    ∃ t, blockTurn w s = .next t ∧ t.cb.stat.tmo = s.cb.stat.tmo ∧
      (t.cb.stat.run = true ∨
        t.cb.stat.run = false ∧ t.cb.stat.done = true ∧
          t.cb.s.getLsbD w.params.busyBit.val = false)

/-- R21: a step ends a running operation by `complete`, by `raise Timeout` or by reset. -/
def Obligations.OperationEndsThreeWays : Prop :=
  ∀ (w : World) (s t : State), stepIn w s = .next t → s.cb.stat.run = true →
    t.cb.stat.run = false →
      (∃ ps, s.inputs = ⟨0, .reset⟩ :: ps) ∨
      (t.cb.opk = .none ∧ t.cb.ph = .idle ∧ t.cb.stat.done = true ∧
        t.cb.stat.tmo = s.cb.stat.tmo) ∨
      (t.cb.opk = .none ∧ t.cb.ph = .idle ∧ t.cb.stat.tmo = true ∧
        t.cb.stat.done = s.cb.stat.done ∧ w.params.pollLimit = some t.cb.n)

/-- R23: in a step of CBSEQ N counts up exactly when the step makes a CTRL read, and it stays at
0xFFFFFFFF once there. -/
def Obligations.PollCounterCountsReads : Prop :=
  ∀ (w : World) (s t : State), stepIn w s = .next t → Quiet s →
    t.cb.n = if s.cb.ph = .poll then
        (if s.cb.n.toNat = 2 ^ 32 - 1 then s.cb.n else s.cb.n + 1)
      else s.cb.n

/-! ### Whole-machine invariants -/

/-- The invariant holds at reset. -/
def Obligations.InvariantAtReset : Prop := Inv State.reset

/-- R20, R22, R32, R33: every step, from every state that meets the invariant, leaves one that does. (That
RUN and PH are both stored is the model's choice, log entry 9; so is the form of memory, log entry 2.) -/
def Obligations.InvariantKept : Prop := ∀ (s t : State), Inv s → step s = .next t → Inv t

/-- R44, R45, U1, U7: from a state that meets the invariant a turn of CBSEQ always ends in a next state,
whatever the world, but for the one stop that R45 and U21 give: it is stuck at a port M transaction whose
address the platform does not back with memory (a word stands or falls whole: log entry 10). -/
def Obligations.BlockTurnStopsAtUnbackedMemoryOnly : Prop :=
  ∀ (w : World) (s : State), Inv s →
    (¬ AtUnbackedMemory w s → ∃ t, blockTurn w s = .next t) ∧
    (AtUnbackedMemory w s → blockTurn w s = .fault .unbackedMemory)

/-- R45, U21: a step is stuck for want of memory exactly when no input is due and the transfer's next port
M transaction, in one of R45's two shapes, is at an address that the platform does not back; in every
state, also one that no run reaches. (A word stands or falls whole: log entry 10.) -/
def Obligations.UnbackedTransactionIsStuck : Prop :=
  ∀ (w : World) (s : State),
    stepIn w s = .fault .unbackedMemory ↔
      Quiet s ∧ Transferring s.cb ∧ AtUnbackedMemory w s ∧
        (s.cb.aln = true → s.cb.buf.toNat % 4 = 0)

/-- R42, R44, R45, R20: the port transactions of every step: at most one; on port B only to EN, CMD, CTRL
and DATA in their widths, none of EN or CMD read (which bytes these are: R41's table, not the counts of
R42 and R52, DEDUCED, log entry 17); on port M only inside the buffer and only by a transfer,
32 bits wide only at a multiple of 4; and BUILD, BUILDC make none, WAITRDY none on port M. -/
def Obligations.PortTransactionsInBounds : Prop :=
  (∀ (w : World) (s t : State), Inv s → stepIn w s = .next t →
    ∃ es, es.length ≤ 1 ∧ blockTrace t.trace = es ++ blockTrace s.trace ∧
      (∀ a, .bus a ∈ es →
        (a.dir = .write ∧ a.width = .byte ∧
          (a.addr = w.params.enAddr ∨ ∃ k < 8, a.addr = w.params.cmdBase + BitVec.ofNat 32 k)) ∨
        (a.width = .word ∧ (a.addr = w.params.ctrlAddr ∨ a.addr = w.params.dataAddr))) ∧
      (∀ a, .mem a ∈ es → Transferring s.cb ∧ InBufferAccess s.cb a ∧
        (a.dir = .write ↔ s.cb.opk = .xferrd) ∧
        ((a.width = .byte ∧ s.cb.aln = false) ∨
          (a.width = .word ∧ s.cb.aln = true ∧ a.addr.toNat % 4 = 0)))) ∧
  (∀ (w : World) (i : Instr) (s t : State), execIn w i s = .next t → t.trace = s.trace)

/-! ### Memory -/

/-- R46: a word stored at an aligned address has the same effect on memory as its four byte stores,
least significant byte lowest; and reading it gives `{M[p+3], M[p+2], M[p+1], M[p]}`. -/
def Obligations.LittleEndianMemory : Prop :=
  ∀ (w : World) (m : List Host.Cell) (p v a : Word),
    memByte w (storeWord m p v) a =
      memByte w (storeByte (storeByte (storeByte (storeByte m p (v.extractLsb 7 0))
        (p + 1) (v.extractLsb 15 8)) (p + 2) (v.extractLsb 23 16)) (p + 3) (v.extractLsb 31 24)) a ∧
    memWord w m p =
      memByte w m (p + 3) ++ memByte w m (p + 2) ++ memByte w m (p + 1) ++ memByte w m p ∧
    memWord w (storeWord m p v) p = v

/-- R5, R49, R54: the host's own accesses to the buffer memory: a byte written is the byte read, no
register of CBSEQ and no byte elsewhere changes; on a platform whose spaces are one, an access to a bus
register or to the host block is refused, and so is one where the platform has no memory (the model's
choices, log entries 5, 10 and 11). -/
def Obligations.HostMemoryAccess : Prop :=
  ∀ (w : World) (s : State) (a : Word) (b : Byte) (ps : List Pending),
    (isRegisterByte w.params a = false → w.backed a = true →
      (s.inputs = ⟨0, .poke a b⟩ :: ps → ∃ t, stepIn w s = .next t ∧ t.cb = s.cb ∧
        t.inputs = ps ∧ blockTrace t.trace = blockTrace s.trace ∧
        ∀ c, memByte w t.mem c = if c = a then b else memByte w s.mem c) ∧
      (s.inputs = ⟨0, .peek a⟩ :: ps → stepIn w s = .next { s with
        inputs := ps
        trace := .own ⟨.read, a, .byte, (memByte w s.mem a).setWidth 32⟩ :: s.trace })) ∧
    (isRegisterByte w.params a = true →
      (s.inputs = ⟨0, .poke a b⟩ :: ps ∨ s.inputs = ⟨0, .peek a⟩ :: ps) →
        stepIn w s = .refused .hostTouchesRegisters) ∧
    (isRegisterByte w.params a = false → w.backed a = false →
      (s.inputs = ⟨0, .poke a b⟩ :: ps ∨ s.inputs = ⟨0, .peek a⟩ :: ps) →
        stepIn w s = .refused .hostTouchesUnbacked)
end

