-- ==== Sys2Proof/Laws/Words.lean ====
section
/-!
SUPPORT. Bytes of a word, the fields of an operation word, and the configuration.
-/

namespace Sys2Proof.Machine

/-! ### Bytes of a word -/

theorem getLsbD_wordOf (b0 b1 b2 b3 : Byte) (n : Nat) :
    (wordOf b0 b1 b2 b3).getLsbD n =
      if n < 8 then b0.getLsbD n else if n < 16 then b1.getLsbD (n - 8)
      else if n < 24 then b2.getLsbD (n - 16) else b3.getLsbD (n - 24) := by
  unfold wordOf
  rw [BitVec.getLsbD_append]
  split
  · rfl
  · rw [BitVec.getLsbD_append]
    by_cases h : n < 16
    · rw [if_pos (by omega), if_pos h]
    · rw [if_neg (by omega), if_neg h, BitVec.getLsbD_append]
      by_cases h : n < 24
      · rw [if_pos (by omega), if_pos h]; congr 1
      · rw [if_neg (by omega), if_neg h]; congr 1

theorem getLsbD_byteOf (w : Word) (k : Fin 4) (n : Nat) :
    (byteOf w k).getLsbD n = (decide (n < 8) && w.getLsbD (8 * k.val + n)) := by
  simp [byteOf]

@[simp] theorem byteOf_wordOf_zero (b0 b1 b2 b3 : Byte) : byteOf (wordOf b0 b1 b2 b3) 0 = b0 := by
  apply BitVec.eq_of_getLsbD_eq; intro i hi
  rw [getLsbD_byteOf, getLsbD_wordOf]; simp [hi]

@[simp] theorem byteOf_wordOf_one (b0 b1 b2 b3 : Byte) : byteOf (wordOf b0 b1 b2 b3) 1 = b1 := by
  apply BitVec.eq_of_getLsbD_eq; intro i hi
  rw [getLsbD_byteOf, getLsbD_wordOf]
  have h : 8 * (1 : Fin 4).val + i - 8 = i := by simp
  rw [h, if_neg (by simp), if_pos (by simp; omega)]; simp [hi]

@[simp] theorem byteOf_wordOf_two (b0 b1 b2 b3 : Byte) : byteOf (wordOf b0 b1 b2 b3) 2 = b2 := by
  apply BitVec.eq_of_getLsbD_eq; intro i hi
  rw [getLsbD_byteOf, getLsbD_wordOf]
  have h : 8 * (2 : Fin 4).val + i - 16 = i := by simp
  rw [h, if_neg (by simp; omega), if_neg (by simp), if_pos (by simp; omega)]; simp [hi]

@[simp] theorem byteOf_wordOf_three (b0 b1 b2 b3 : Byte) :
    byteOf (wordOf b0 b1 b2 b3) 3 = b3 := by
  apply BitVec.eq_of_getLsbD_eq; intro i hi
  rw [getLsbD_byteOf, getLsbD_wordOf]
  have h : 8 * (3 : Fin 4).val + i - 24 = i := by simp
  rw [h, if_neg (by simp; omega), if_neg (by simp; omega), if_neg (by simp)]; simp [hi]

/-- A word is its four bytes. -/
@[simp] theorem wordOf_byteOf (w : Word) :
    wordOf (byteOf w 0) (byteOf w 1) (byteOf w 2) (byteOf w 3) = w := by
  apply BitVec.eq_of_getLsbD_eq; intro i hi
  simp only [getLsbD_wordOf, getLsbD_byteOf]
  split
  · simp; omega
  · split
    · have h : 8 * (1 : Fin 4).val + (i - 8) = i := by simp; omega
      rw [h]; simp; omega
    · split
      · have h : 8 * (2 : Fin 4).val + (i - 16) = i := by simp; omega
        rw [h]; simp; omega
      · have h : 8 * (3 : Fin 4).val + (i - 24) = i := by simp; omega
        rw [h]; simp; omega

/-- A word is decided by its four bytes. -/
theorem word_ext {v w : Word} (h0 : byteOf v 0 = byteOf w 0) (h1 : byteOf v 1 = byteOf w 1)
    (h2 : byteOf v 2 = byteOf w 2) (h3 : byteOf v 3 = byteOf w 3) : v = w := by
  rw [← wordOf_byteOf v, ← wordOf_byteOf w, h0, h1, h2, h3]

/-- Replacing a byte of a word leaves the others. -/
theorem setByte_bytes (w : Word) (k : Fin 4) (b : Byte) (j : Fin 4) :
    byteOf (setByte w k b) j = if j = k then b else byteOf w j := by
  match k, j with
  | 0, 0 | 0, 1 | 0, 2 | 0, 3 | 1, 0 | 1, 1 | 1, 2 | 1, 3
  | 2, 0 | 2, 1 | 2, 2 | 2, 3 | 3, 0 | 3, 1 | 3, 2 | 3, 3 => simp [setByte]

/-! ### The fields of an operation word -/

/-- The fields of `opWord`, read at the places R70 gives them. -/
theorem opWord_fields (cc fn : Byte) :
    fnField (opWord cc fn) = fn ∧ cmdopField (opWord cc fn) = cc ∧
      reservedField (opWord cc fn) = 0 := by
  refine ⟨?_, ?_, ?_⟩ <;> apply BitVec.eq_of_getLsbD_eq <;> intro i hi
  · simp only [fnField, opWord, BitVec.getLsbD_extractLsb', BitVec.getLsbD_append]
    rw [if_pos (by omega)]; simp [hi]
  · simp only [cmdopField, opWord, BitVec.getLsbD_extractLsb', BitVec.getLsbD_append]
    rw [if_neg (by omega), if_pos (by omega)]
    have h : 8 + i - 8 = i := by omega
    rw [h]; simp [hi]
  · simp only [reservedField, opWord, BitVec.getLsbD_extractLsb', BitVec.getLsbD_append]
    rw [if_neg (by omega), if_neg (by omega)]; simp

/-- A word whose reserved bits are 0 is made of its two other fields. -/
theorem opWord_of_fields {v : Word} (h : reservedField v = 0) :
    opWord (cmdopField v) (fnField v) = v := by
  apply BitVec.eq_of_getLsbD_eq; intro i hi
  simp only [fnField, cmdopField, opWord, BitVec.getLsbD_append, BitVec.getLsbD_extractLsb']
  by_cases h1 : i < 8
  · rw [if_pos h1]; simp [h1]
  · rw [if_neg h1]
    by_cases h2 : i - 8 < 8
    · have e : 8 + (i - 8) = i := by omega
      rw [if_pos h2, e]; simp [h2]
    · rw [if_neg h2]
      have h3 := congrArg (fun x : BitVec 16 => x.getLsbD (i - 16)) h
      have e : 16 + (i - 16) = i := by omega
      simp only [reservedField, BitVec.getLsbD_extractLsb', e] at h3
      have h4 : i - 16 < 16 := by omega
      simp [h4] at h3
      simp [h3]

/-! ### The configuration -/

/-- REF is a legal configuration. -/
theorem ref_legal : Params.ref.Legal := by decide

/-- The machine's configuration is legal, whatever the draw. -/
theorem config_legal : Config.params.Legal := by
  unfold Config.params
  split
  · assumption
  · exact ref_legal

/-- DATA and CTRL are different locations of a legal configuration (R52). -/
theorem data_ne_ctrl {p : Params} (h : p.Legal) : p.dataAddr ≠ p.ctrlAddr := by
  have hn := h.2.2.2.2.1
  intro he
  simp [Params.busBytes, List.range_succ, he] at hn

end Sys2Proof.Machine
end

