-- ==== Sys2Proof/Laws/Memory.lean ====
section
/-!
SUPPORT. The buffer memory: what a read finds after a write, and that every memory operation keeps the
canonical form.
-/

namespace Sys2Proof.Machine

/-! ### Cells -/

/-- The canonical form, without the bound on addresses. -/
abbrev Rising (m : List Host.Cell) : Prop := (m.map Prod.fst).Pairwise (· < ·)

theorem readCell_writeCell (m : List Host.Cell) (a b : Nat) (v : Byte) :
    readCell (writeCell m a v) b = if b = a then some v else readCell m b := by
  induction m with
  | nil => simp only [writeCell, readCell]
  | cons x m ih =>
    obtain ⟨c, u⟩ := x
    simp only [writeCell]
    split
    · simp only [readCell]
    · split
      · next h => subst h; simp only [readCell]; split <;> rfl
      · next h1 h2 =>
        simp only [readCell, ih]
        by_cases hb : b = c
        · subst hb; rw [if_pos rfl, if_neg (by omega)]; simp
        · simp only [if_neg hb]

theorem mem_writeCell (m : List Host.Cell) (a : Nat) (v : Byte) (b : Nat) :
    b ∈ (writeCell m a v).map Prod.fst → b = a ∨ b ∈ m.map Prod.fst := by
  induction m with
  | nil => simp [writeCell]
  | cons x m ih =>
    obtain ⟨c, u⟩ := x
    simp only [writeCell]
    split
    · simp
    · split
      · next h => subst h; simp
      · simp only [List.map_cons, List.mem_cons]
        rintro (h | h)
        · exact .inr (.inl h)
        · rcases ih h with h | h
          · exact .inl h
          · exact .inr (.inr h)

theorem rising_writeCell {m : List Host.Cell} (h : Rising m) (a : Nat) (v : Byte) :
    Rising (writeCell m a v) := by
  induction m with
  | nil => simp [Rising, writeCell]
  | cons x m ih =>
    obtain ⟨c, u⟩ := x
    have hc := List.pairwise_cons.1 h
    simp only [writeCell]
    split
    · next hlt =>
      refine List.pairwise_cons.2 ⟨fun b hb => ?_, h⟩
      rcases List.mem_cons.1 hb with h' | h'
      · exact h' ▸ hlt
      · exact Nat.lt_trans hlt (hc.1 b h')
    · split
      · next he => subst he; exact List.pairwise_cons.2 ⟨hc.1, hc.2⟩
      · refine List.pairwise_cons.2 ⟨fun b hb => ?_, ih hc.2⟩
        rcases mem_writeCell m a v b hb with h' | h'
        · subst h'; show c < b; omega
        · exact hc.1 b h'

/-! ### Bytes -/

/-- A stored byte keeps the canonical form. -/
theorem memWf_storeByte {m : List Host.Cell} (h : memWf m) (a : Word) (b : Byte) :
    memWf (storeByte m a b) := by
  refine ⟨rising_writeCell h.1 _ _, fun c hc => ?_⟩
  rcases mem_writeCell m a.toNat b c hc with h' | h'
  · subst h'; exact a.isLt
  · exact h.2 c h'

/-- A read after a one-byte store. -/
theorem memByte_storeByte (w : World) (m : List Host.Cell) (a c : Word) (b : Byte) :
    memByte w (storeByte m a b) c = if c = a then b else memByte w m c := by
  simp only [memByte, storeByte, readCell_writeCell]
  by_cases h : c = a
  · subst h; simp
  · have h' : c.toNat ≠ a.toNat := fun e => h (BitVec.eq_of_toNat_eq e)
    rw [if_neg h', if_neg h]

/-! ### Words -/

/-- A stored word keeps the canonical form. -/
theorem memWf_storeWord {m : List Host.Cell} (h : memWf m) (a v : Word) :
    memWf (storeWord m a v) := by
  unfold storeWord
  exact memWf_storeByte (memWf_storeByte (memWf_storeByte (memWf_storeByte h _ _) _ _) _ _) _ _

/-- A read after a one-word store: byte `k` of the word at `a + k`, every other byte as before. -/
theorem memByte_storeWord (w : World) (m : List Host.Cell) (a v c : Word) :
    memByte w (storeWord m a v) c =
      if c = a + 3 then byteOf v 3 else if c = a + 2 then byteOf v 2
      else if c = a + 1 then byteOf v 1 else if c = a then byteOf v 0 else memByte w m c := by
  unfold storeWord
  simp only [memByte_storeByte]

/-- A word read back from where it was stored. -/
theorem memWord_storeWord (w : World) (m : List Host.Cell) (a v : Word) :
    memWord w (storeWord m a v) a = v := by
  have h01 : a ≠ a + 1 := by bv_omega
  have h02 : a ≠ a + 2 := by bv_omega
  have h03 : a ≠ a + 3 := by bv_omega
  have h12 : a + 1 ≠ a + 2 := by bv_omega
  have h13 : a + 1 ≠ a + 3 := by bv_omega
  have h23 : a + 2 ≠ a + 3 := by bv_omega
  have h10 : a + 1 ≠ a := by bv_omega
  have h20 : a + 2 ≠ a := by bv_omega
  unfold memWord
  rw [memByte_storeWord, memByte_storeWord, memByte_storeWord, memByte_storeWord,
    if_neg h03, if_neg h02, if_neg h01, if_pos rfl, if_neg h13, if_neg h12, if_pos rfl,
    if_neg h23, if_pos rfl, if_pos rfl, wordOf_byteOf]

/-- A one-byte store outside a word leaves the word. -/
theorem memWord_storeByte_of_ne (w : World) (m : List Host.Cell) (a c : Word) (b : Byte)
    (h : ∀ k : Fin 4, c + BitVec.ofNat 32 k.val ≠ a) :
    memWord w (storeByte m a b) c = memWord w m c := by
  have h0 : c ≠ a := by simpa using h 0
  have h1 : c + 1 ≠ a := h 1
  have h2 : c + 2 ≠ a := h 2
  have h3 : c + 3 ≠ a := h 3
  simp only [memWord, memByte_storeByte, if_neg h0, if_neg h1, if_neg h2, if_neg h3]

end Sys2Proof.Machine
end

