-- ==== Sys2Proof/Laws/State.lean ====
section
/-!
SUPPORT. One lemma per field per update: of `State`, and of the block's registers.
-/

namespace Sys2Proof.Machine

/-! ### Updates of the state -/

@[simp] theorem State.mapCb_cb (f : Cbseq → Cbseq) (s : State) : (s.mapCb f).cb = f s.cb := rfl
@[simp] theorem State.mapCb_mem (f : Cbseq → Cbseq) (s : State) : (s.mapCb f).mem = s.mem := rfl
@[simp] theorem State.mapCb_inputs (f : Cbseq → Cbseq) (s : State) : (s.mapCb f).inputs = s.inputs := rfl
@[simp] theorem State.mapCb_trace (f : Cbseq → Cbseq) (s : State) : (s.mapCb f).trace = s.trace := rfl

@[simp] theorem State.record_cb (e : Event) (s : State) : (s.record e).cb = s.cb := rfl
@[simp] theorem State.record_mem (e : Event) (s : State) : (s.record e).mem = s.mem := rfl
@[simp] theorem State.record_inputs (e : Event) (s : State) : (s.record e).inputs = s.inputs := rfl
@[simp] theorem State.record_trace (e : Event) (s : State) : (s.record e).trace = e :: s.trace := rfl

@[simp] theorem State.setMem_cb (m : List Host.Cell) (s : State) : (s.setMem m).cb = s.cb := rfl
@[simp] theorem State.setMem_mem (m : List Host.Cell) (s : State) : (s.setMem m).mem = m := rfl
@[simp] theorem State.setMem_inputs (m : List Host.Cell) (s : State) : (s.setMem m).inputs = s.inputs := rfl
@[simp] theorem State.setMem_trace (m : List Host.Cell) (s : State) : (s.setMem m).trace = s.trace := rfl

@[simp] theorem State.setInputs_cb (ps : List Pending) (s : State) : (s.setInputs ps).cb = s.cb := rfl
@[simp] theorem State.setInputs_mem (ps : List Pending) (s : State) : (s.setInputs ps).mem = s.mem := rfl
@[simp] theorem State.setInputs_inputs (ps : List Pending) (s : State) : (s.setInputs ps).inputs = ps := rfl
@[simp] theorem State.setInputs_trace (ps : List Pending) (s : State) : (s.setInputs ps).trace = s.trace := rfl

/-! ### Updates of the registers -/

@[simp] theorem Cbseq.goto_op (p : Phase) (c : Cbseq) : (c.goto p).op = c.op := rfl
@[simp] theorem Cbseq.goto_stat (p : Phase) (c : Cbseq) : (c.goto p).stat = c.stat := rfl
@[simp] theorem Cbseq.goto_addr (p : Phase) (c : Cbseq) : (c.goto p).addr = c.addr := rfl
@[simp] theorem Cbseq.goto_flags (p : Phase) (c : Cbseq) : (c.goto p).flags = c.flags := rfl
@[simp] theorem Cbseq.goto_buf (p : Phase) (c : Cbseq) : (c.goto p).buf = c.buf := rfl
@[simp] theorem Cbseq.goto_wcnt (p : Phase) (c : Cbseq) : (c.goto p).wcnt = c.wcnt := rfl
@[simp] theorem Cbseq.goto_frame (p : Phase) (c : Cbseq) : (c.goto p).frame = c.frame := rfl
@[simp] theorem Cbseq.goto_i (p : Phase) (c : Cbseq) : (c.goto p).i = c.i := rfl
@[simp] theorem Cbseq.goto_n (p : Phase) (c : Cbseq) : (c.goto p).n = c.n := rfl
@[simp] theorem Cbseq.goto_ph (p : Phase) (c : Cbseq) : (c.goto p).ph = p := rfl
@[simp] theorem Cbseq.goto_opk (p : Phase) (c : Cbseq) : (c.goto p).opk = c.opk := rfl
@[simp] theorem Cbseq.goto_s (p : Phase) (c : Cbseq) : (c.goto p).s = c.s := rfl
@[simp] theorem Cbseq.goto_w (p : Phase) (c : Cbseq) : (c.goto p).w = c.w := rfl
@[simp] theorem Cbseq.goto_last (p : Phase) (c : Cbseq) : (c.goto p).last = c.last := rfl
@[simp] theorem Cbseq.goto_ready (p : Phase) (c : Cbseq) : (c.goto p).ready = c.ready := rfl
@[simp] theorem Cbseq.goto_aln (p : Phase) (c : Cbseq) : (c.goto p).aln = c.aln := rfl

@[simp] theorem Cbseq.complete_op (c : Cbseq) : (c.complete).op = c.op := rfl
@[simp] theorem Cbseq.complete_stat (c : Cbseq) : (c.complete).stat = { c.stat with done := true, run := false } := rfl
@[simp] theorem Cbseq.complete_addr (c : Cbseq) : (c.complete).addr = c.addr := rfl
@[simp] theorem Cbseq.complete_flags (c : Cbseq) : (c.complete).flags = c.flags := rfl
@[simp] theorem Cbseq.complete_buf (c : Cbseq) : (c.complete).buf = c.buf := rfl
@[simp] theorem Cbseq.complete_wcnt (c : Cbseq) : (c.complete).wcnt = c.wcnt := rfl
@[simp] theorem Cbseq.complete_frame (c : Cbseq) : (c.complete).frame = c.frame := rfl
@[simp] theorem Cbseq.complete_i (c : Cbseq) : (c.complete).i = c.i := rfl
@[simp] theorem Cbseq.complete_n (c : Cbseq) : (c.complete).n = c.n := rfl
@[simp] theorem Cbseq.complete_ph (c : Cbseq) : (c.complete).ph = .idle := rfl
@[simp] theorem Cbseq.complete_opk (c : Cbseq) : (c.complete).opk = .none := rfl
@[simp] theorem Cbseq.complete_s (c : Cbseq) : (c.complete).s = c.s := rfl
@[simp] theorem Cbseq.complete_w (c : Cbseq) : (c.complete).w = c.w := rfl
@[simp] theorem Cbseq.complete_last (c : Cbseq) : (c.complete).last = c.last := rfl
@[simp] theorem Cbseq.complete_ready (c : Cbseq) : (c.complete).ready = c.ready := rfl
@[simp] theorem Cbseq.complete_aln (c : Cbseq) : (c.complete).aln = c.aln := rfl

@[simp] theorem Cbseq.accept_op (x : Instr) (c : Cbseq) : (c.accept x).op = encode x := rfl
@[simp] theorem Cbseq.accept_stat (x : Instr) (c : Cbseq) : (c.accept x).stat = { c.stat with done := false } := rfl
@[simp] theorem Cbseq.accept_addr (x : Instr) (c : Cbseq) : (c.accept x).addr = c.addr := rfl
@[simp] theorem Cbseq.accept_flags (x : Instr) (c : Cbseq) : (c.accept x).flags = c.flags := rfl
@[simp] theorem Cbseq.accept_buf (x : Instr) (c : Cbseq) : (c.accept x).buf = c.buf := rfl
@[simp] theorem Cbseq.accept_wcnt (x : Instr) (c : Cbseq) : (c.accept x).wcnt = c.wcnt := rfl
@[simp] theorem Cbseq.accept_frame (x : Instr) (c : Cbseq) : (c.accept x).frame = c.frame := rfl
@[simp] theorem Cbseq.accept_i (x : Instr) (c : Cbseq) : (c.accept x).i = c.i := rfl
@[simp] theorem Cbseq.accept_n (x : Instr) (c : Cbseq) : (c.accept x).n = c.n := rfl
@[simp] theorem Cbseq.accept_ph (x : Instr) (c : Cbseq) : (c.accept x).ph = c.ph := rfl
@[simp] theorem Cbseq.accept_opk (x : Instr) (c : Cbseq) : (c.accept x).opk = c.opk := rfl
@[simp] theorem Cbseq.accept_s (x : Instr) (c : Cbseq) : (c.accept x).s = c.s := rfl
@[simp] theorem Cbseq.accept_w (x : Instr) (c : Cbseq) : (c.accept x).w = c.w := rfl
@[simp] theorem Cbseq.accept_last (x : Instr) (c : Cbseq) : (c.accept x).last = c.last := rfl
@[simp] theorem Cbseq.accept_ready (x : Instr) (c : Cbseq) : (c.accept x).ready = c.ready := rfl
@[simp] theorem Cbseq.accept_aln (x : Instr) (c : Cbseq) : (c.accept x).aln = c.aln := rfl

@[simp] theorem Cbseq.launch_op (k : OpKind) (c : Cbseq) : (c.launch k).op = c.op := rfl
@[simp] theorem Cbseq.launch_stat (k : OpKind) (c : Cbseq) : (c.launch k).stat = { c.stat with run := true } := rfl
@[simp] theorem Cbseq.launch_addr (k : OpKind) (c : Cbseq) : (c.launch k).addr = c.addr := rfl
@[simp] theorem Cbseq.launch_flags (k : OpKind) (c : Cbseq) : (c.launch k).flags = c.flags := rfl
@[simp] theorem Cbseq.launch_buf (k : OpKind) (c : Cbseq) : (c.launch k).buf = c.buf := rfl
@[simp] theorem Cbseq.launch_wcnt (k : OpKind) (c : Cbseq) : (c.launch k).wcnt = c.wcnt := rfl
@[simp] theorem Cbseq.launch_frame (k : OpKind) (c : Cbseq) : (c.launch k).frame = c.frame := rfl
@[simp] theorem Cbseq.launch_i (k : OpKind) (c : Cbseq) : (c.launch k).i = c.i := rfl
@[simp] theorem Cbseq.launch_n (k : OpKind) (c : Cbseq) : (c.launch k).n = 0 := rfl
@[simp] theorem Cbseq.launch_ph (k : OpKind) (c : Cbseq) : (c.launch k).ph = .issEn := rfl
@[simp] theorem Cbseq.launch_opk (k : OpKind) (c : Cbseq) : (c.launch k).opk = k := rfl
@[simp] theorem Cbseq.launch_s (k : OpKind) (c : Cbseq) : (c.launch k).s = c.s := rfl
@[simp] theorem Cbseq.launch_w (k : OpKind) (c : Cbseq) : (c.launch k).w = c.w := rfl
@[simp] theorem Cbseq.launch_last (k : OpKind) (c : Cbseq) : (c.launch k).last = c.last := rfl
@[simp] theorem Cbseq.launch_ready (k : OpKind) (c : Cbseq) : (c.launch k).ready = c.ready := rfl
@[simp] theorem Cbseq.launch_aln (k : OpKind) (c : Cbseq) : (c.launch k).aln = c.aln := rfl

@[simp] theorem Cbseq.sample_op (v : Word) (c : Cbseq) : (c.sample v).op = c.op := rfl
@[simp] theorem Cbseq.sample_stat (v : Word) (c : Cbseq) : (c.sample v).stat = c.stat := rfl
@[simp] theorem Cbseq.sample_addr (v : Word) (c : Cbseq) : (c.sample v).addr = c.addr := rfl
@[simp] theorem Cbseq.sample_flags (v : Word) (c : Cbseq) : (c.sample v).flags = c.flags := rfl
@[simp] theorem Cbseq.sample_buf (v : Word) (c : Cbseq) : (c.sample v).buf = c.buf := rfl
@[simp] theorem Cbseq.sample_wcnt (v : Word) (c : Cbseq) : (c.sample v).wcnt = c.wcnt := rfl
@[simp] theorem Cbseq.sample_frame (v : Word) (c : Cbseq) : (c.sample v).frame = c.frame := rfl
@[simp] theorem Cbseq.sample_i (v : Word) (c : Cbseq) : (c.sample v).i = c.i := rfl
@[simp] theorem Cbseq.sample_n (v : Word) (c : Cbseq) : (c.sample v).n = countPoll c.n := rfl
@[simp] theorem Cbseq.sample_ph (v : Word) (c : Cbseq) : (c.sample v).ph = c.ph := rfl
@[simp] theorem Cbseq.sample_opk (v : Word) (c : Cbseq) : (c.sample v).opk = c.opk := rfl
@[simp] theorem Cbseq.sample_s (v : Word) (c : Cbseq) : (c.sample v).s = v := rfl
@[simp] theorem Cbseq.sample_w (v : Word) (c : Cbseq) : (c.sample v).w = c.w := rfl
@[simp] theorem Cbseq.sample_last (v : Word) (c : Cbseq) : (c.sample v).last = c.last := rfl
@[simp] theorem Cbseq.sample_ready (v : Word) (c : Cbseq) : (c.sample v).ready = c.ready := rfl
@[simp] theorem Cbseq.sample_aln (v : Word) (c : Cbseq) : (c.sample v).aln = c.aln := rfl

@[simp] theorem Cbseq.countWord_op (c : Cbseq) : (c.countWord).op = c.op := rfl
@[simp] theorem Cbseq.countWord_stat (c : Cbseq) : (c.countWord).stat = c.stat := rfl
@[simp] theorem Cbseq.countWord_addr (c : Cbseq) : (c.countWord).addr = c.addr := rfl
@[simp] theorem Cbseq.countWord_flags (c : Cbseq) : (c.countWord).flags = c.flags := rfl
@[simp] theorem Cbseq.countWord_buf (c : Cbseq) : (c.countWord).buf = c.buf := rfl
@[simp] theorem Cbseq.countWord_wcnt (c : Cbseq) : (c.countWord).wcnt = c.wcnt := rfl
@[simp] theorem Cbseq.countWord_frame (c : Cbseq) : (c.countWord).frame = c.frame := rfl
@[simp] theorem Cbseq.countWord_i (c : Cbseq) : (c.countWord).i = c.i + 1 := rfl
@[simp] theorem Cbseq.countWord_n (c : Cbseq) : (c.countWord).n = c.n := rfl
@[simp] theorem Cbseq.countWord_ph (c : Cbseq) : (c.countWord).ph = c.ph := rfl
@[simp] theorem Cbseq.countWord_opk (c : Cbseq) : (c.countWord).opk = c.opk := rfl
@[simp] theorem Cbseq.countWord_s (c : Cbseq) : (c.countWord).s = c.s := rfl
@[simp] theorem Cbseq.countWord_w (c : Cbseq) : (c.countWord).w = c.w := rfl
@[simp] theorem Cbseq.countWord_last (c : Cbseq) : (c.countWord).last = c.last := rfl
@[simp] theorem Cbseq.countWord_ready (c : Cbseq) : (c.countWord).ready = c.ready := rfl
@[simp] theorem Cbseq.countWord_aln (c : Cbseq) : (c.countWord).aln = c.aln := rfl

@[simp] theorem Cbseq.loaded_op (c : Cbseq) : (c.loaded).op = c.op := rfl
@[simp] theorem Cbseq.loaded_stat (c : Cbseq) : (c.loaded).stat = c.stat := rfl
@[simp] theorem Cbseq.loaded_addr (c : Cbseq) : (c.loaded).addr = c.addr := rfl
@[simp] theorem Cbseq.loaded_flags (c : Cbseq) : (c.loaded).flags = c.flags := rfl
@[simp] theorem Cbseq.loaded_buf (c : Cbseq) : (c.loaded).buf = c.buf := rfl
@[simp] theorem Cbseq.loaded_wcnt (c : Cbseq) : (c.loaded).wcnt = c.wcnt := rfl
@[simp] theorem Cbseq.loaded_frame (c : Cbseq) : (c.loaded).frame = c.frame := rfl
@[simp] theorem Cbseq.loaded_i (c : Cbseq) : (c.loaded).i = c.i + 1 := rfl
@[simp] theorem Cbseq.loaded_n (c : Cbseq) : (c.loaded).n = c.n := rfl
@[simp] theorem Cbseq.loaded_ph (c : Cbseq) : (c.loaded).ph = .data := rfl
@[simp] theorem Cbseq.loaded_opk (c : Cbseq) : (c.loaded).opk = c.opk := rfl
@[simp] theorem Cbseq.loaded_s (c : Cbseq) : (c.loaded).s = c.s := rfl
@[simp] theorem Cbseq.loaded_w (c : Cbseq) : (c.loaded).w = c.w := rfl
@[simp] theorem Cbseq.loaded_last (c : Cbseq) : (c.loaded).last = c.w := rfl
@[simp] theorem Cbseq.loaded_ready (c : Cbseq) : (c.loaded).ready = c.ready := rfl
@[simp] theorem Cbseq.loaded_aln (c : Cbseq) : (c.loaded).aln = c.aln := rfl

@[simp] theorem Cbseq.atRest_op (c : Cbseq) : (c.atRest).op = c.op := rfl
@[simp] theorem Cbseq.atRest_stat (c : Cbseq) : (c.atRest).stat = { c.stat with run := false } := rfl
@[simp] theorem Cbseq.atRest_addr (c : Cbseq) : (c.atRest).addr = c.addr := rfl
@[simp] theorem Cbseq.atRest_flags (c : Cbseq) : (c.atRest).flags = c.flags := rfl
@[simp] theorem Cbseq.atRest_buf (c : Cbseq) : (c.atRest).buf = c.buf := rfl
@[simp] theorem Cbseq.atRest_wcnt (c : Cbseq) : (c.atRest).wcnt = c.wcnt := rfl
@[simp] theorem Cbseq.atRest_frame (c : Cbseq) : (c.atRest).frame = c.frame := rfl
@[simp] theorem Cbseq.atRest_i (c : Cbseq) : (c.atRest).i = c.i := rfl
@[simp] theorem Cbseq.atRest_n (c : Cbseq) : (c.atRest).n = c.n := rfl
@[simp] theorem Cbseq.atRest_ph (c : Cbseq) : (c.atRest).ph = .idle := rfl
@[simp] theorem Cbseq.atRest_opk (c : Cbseq) : (c.atRest).opk = .none := rfl
@[simp] theorem Cbseq.atRest_s (c : Cbseq) : (c.atRest).s = c.s := rfl
@[simp] theorem Cbseq.atRest_w (c : Cbseq) : (c.atRest).w = c.w := rfl
@[simp] theorem Cbseq.atRest_last (c : Cbseq) : (c.atRest).last = c.last := rfl
@[simp] theorem Cbseq.atRest_ready (c : Cbseq) : (c.atRest).ready = c.ready := rfl
@[simp] theorem Cbseq.atRest_aln (c : Cbseq) : (c.atRest).aln = c.aln := rfl

/-! ### Raising an error condition, the poll bound -/

@[simp] theorem Cbseq.raise_op (e : Condition) (c : Cbseq) : (c.raise e).op = c.op := by
  cases e <;> rfl
@[simp] theorem Cbseq.raise_addr (e : Condition) (c : Cbseq) : (c.raise e).addr = c.addr := by
  cases e <;> rfl
@[simp] theorem Cbseq.raise_flags (e : Condition) (c : Cbseq) : (c.raise e).flags = c.flags := by
  cases e <;> rfl
@[simp] theorem Cbseq.raise_buf (e : Condition) (c : Cbseq) : (c.raise e).buf = c.buf := by
  cases e <;> rfl
@[simp] theorem Cbseq.raise_wcnt (e : Condition) (c : Cbseq) : (c.raise e).wcnt = c.wcnt := by
  cases e <;> rfl
@[simp] theorem Cbseq.raise_frame (e : Condition) (c : Cbseq) : (c.raise e).frame = c.frame := by
  cases e <;> rfl
@[simp] theorem Cbseq.raise_i (e : Condition) (c : Cbseq) : (c.raise e).i = c.i := by
  cases e <;> rfl
@[simp] theorem Cbseq.raise_n (e : Condition) (c : Cbseq) : (c.raise e).n = c.n := by
  cases e <;> rfl
@[simp] theorem Cbseq.raise_s (e : Condition) (c : Cbseq) : (c.raise e).s = c.s := by
  cases e <;> rfl
@[simp] theorem Cbseq.raise_w (e : Condition) (c : Cbseq) : (c.raise e).w = c.w := by
  cases e <;> rfl
@[simp] theorem Cbseq.raise_last (e : Condition) (c : Cbseq) : (c.raise e).last = c.last := by
  cases e <;> rfl
@[simp] theorem Cbseq.raise_ready (e : Condition) (c : Cbseq) : (c.raise e).ready = c.ready := by
  cases e <;> rfl
@[simp] theorem Cbseq.raise_aln (e : Condition) (c : Cbseq) : (c.raise e).aln = c.aln := by
  cases e <;> rfl
@[simp] theorem Cbseq.raise_timeout_stat (c : Cbseq) :
    (c.raise .timeout).stat = { c.stat with tmo := true, run := false } := rfl
@[simp] theorem Cbseq.raise_timeout_ph (c : Cbseq) : (c.raise .timeout).ph = .idle := rfl
@[simp] theorem Cbseq.raise_timeout_opk (c : Cbseq) : (c.raise .timeout).opk = .none := rfl
@[simp] theorem Cbseq.raise_illegal_stat (c : Cbseq) :
    (c.raise .illegal).stat = { c.stat with ill := true } := rfl
@[simp] theorem Cbseq.raise_illegal_ph (c : Cbseq) : (c.raise .illegal).ph = c.ph := rfl
@[simp] theorem Cbseq.raise_illegal_opk (c : Cbseq) : (c.raise .illegal).opk = c.opk := rfl
@[simp] theorem Cbseq.raise_overrun_stat (c : Cbseq) :
    (c.raise .overrun).stat = { c.stat with ovr := true } := rfl
@[simp] theorem Cbseq.raise_overrun_ph (c : Cbseq) : (c.raise .overrun).ph = c.ph := rfl
@[simp] theorem Cbseq.raise_overrun_opk (c : Cbseq) : (c.raise .overrun).opk = c.opk := rfl

@[simp] theorem Cbseq.boundThen_op (p : Params) (x : Phase) (c : Cbseq) :
    (c.boundThen p x).op = c.op := by
  unfold Cbseq.boundThen; split <;> simp
@[simp] theorem Cbseq.boundThen_addr (p : Params) (x : Phase) (c : Cbseq) :
    (c.boundThen p x).addr = c.addr := by
  unfold Cbseq.boundThen; split <;> simp
@[simp] theorem Cbseq.boundThen_flags (p : Params) (x : Phase) (c : Cbseq) :
    (c.boundThen p x).flags = c.flags := by
  unfold Cbseq.boundThen; split <;> simp
@[simp] theorem Cbseq.boundThen_buf (p : Params) (x : Phase) (c : Cbseq) :
    (c.boundThen p x).buf = c.buf := by
  unfold Cbseq.boundThen; split <;> simp
@[simp] theorem Cbseq.boundThen_wcnt (p : Params) (x : Phase) (c : Cbseq) :
    (c.boundThen p x).wcnt = c.wcnt := by
  unfold Cbseq.boundThen; split <;> simp
@[simp] theorem Cbseq.boundThen_frame (p : Params) (x : Phase) (c : Cbseq) :
    (c.boundThen p x).frame = c.frame := by
  unfold Cbseq.boundThen; split <;> simp
@[simp] theorem Cbseq.boundThen_i (p : Params) (x : Phase) (c : Cbseq) :
    (c.boundThen p x).i = c.i := by
  unfold Cbseq.boundThen; split <;> simp
@[simp] theorem Cbseq.boundThen_n (p : Params) (x : Phase) (c : Cbseq) :
    (c.boundThen p x).n = c.n := by
  unfold Cbseq.boundThen; split <;> simp
@[simp] theorem Cbseq.boundThen_s (p : Params) (x : Phase) (c : Cbseq) :
    (c.boundThen p x).s = c.s := by
  unfold Cbseq.boundThen; split <;> simp
@[simp] theorem Cbseq.boundThen_w (p : Params) (x : Phase) (c : Cbseq) :
    (c.boundThen p x).w = c.w := by
  unfold Cbseq.boundThen; split <;> simp
@[simp] theorem Cbseq.boundThen_last (p : Params) (x : Phase) (c : Cbseq) :
    (c.boundThen p x).last = c.last := by
  unfold Cbseq.boundThen; split <;> simp
@[simp] theorem Cbseq.boundThen_ready (p : Params) (x : Phase) (c : Cbseq) :
    (c.boundThen p x).ready = c.ready := by
  unfold Cbseq.boundThen; split <;> simp
@[simp] theorem Cbseq.boundThen_aln (p : Params) (x : Phase) (c : Cbseq) :
    (c.boundThen p x).aln = c.aln := by
  unfold Cbseq.boundThen; split <;> simp

@[simp] theorem Cbseq.boundThen_ill (p : Params) (x : Phase) (c : Cbseq) :
    (c.boundThen p x).stat.ill = c.stat.ill := by
  unfold Cbseq.boundThen; split <;> simp
@[simp] theorem Cbseq.boundThen_ovr (p : Params) (x : Phase) (c : Cbseq) :
    (c.boundThen p x).stat.ovr = c.stat.ovr := by
  unfold Cbseq.boundThen; split <;> simp

/-! ### The loop decisions: what they leave alone -/

@[simp] theorem transferDecision_op (p : Params) (c : Cbseq) :
    (transferDecision p c).op = c.op := by
  unfold transferDecision; split <;> simp
@[simp] theorem transferDecision_addr (p : Params) (c : Cbseq) :
    (transferDecision p c).addr = c.addr := by
  unfold transferDecision; split <;> simp
@[simp] theorem transferDecision_flags (p : Params) (c : Cbseq) :
    (transferDecision p c).flags = c.flags := by
  unfold transferDecision; split <;> simp
@[simp] theorem transferDecision_buf (p : Params) (c : Cbseq) :
    (transferDecision p c).buf = c.buf := by
  unfold transferDecision; split <;> simp
@[simp] theorem transferDecision_wcnt (p : Params) (c : Cbseq) :
    (transferDecision p c).wcnt = c.wcnt := by
  unfold transferDecision; split <;> simp
@[simp] theorem transferDecision_frame (p : Params) (c : Cbseq) :
    (transferDecision p c).frame = c.frame := by
  unfold transferDecision; split <;> simp
@[simp] theorem transferDecision_i (p : Params) (c : Cbseq) :
    (transferDecision p c).i = c.i := by
  unfold transferDecision; split <;> simp
@[simp] theorem transferDecision_n (p : Params) (c : Cbseq) :
    (transferDecision p c).n = c.n := by
  unfold transferDecision; split <;> simp
@[simp] theorem transferDecision_s (p : Params) (c : Cbseq) :
    (transferDecision p c).s = c.s := by
  unfold transferDecision; split <;> simp
@[simp] theorem transferDecision_w (p : Params) (c : Cbseq) :
    (transferDecision p c).w = c.w := by
  unfold transferDecision; split <;> simp
@[simp] theorem transferDecision_last (p : Params) (c : Cbseq) :
    (transferDecision p c).last = c.last := by
  unfold transferDecision; split <;> simp
@[simp] theorem transferDecision_ready (p : Params) (c : Cbseq) :
    (transferDecision p c).ready = c.ready := by
  unfold transferDecision; split <;> simp
@[simp] theorem transferDecision_aln (p : Params) (c : Cbseq) :
    (transferDecision p c).aln = c.aln := by
  unfold transferDecision; split <;> simp
@[simp] theorem transferDecision_ill (p : Params) (c : Cbseq) :
    (transferDecision p c).stat.ill = c.stat.ill := by
  unfold transferDecision; split <;> simp
@[simp] theorem transferDecision_ovr (p : Params) (c : Cbseq) :
    (transferDecision p c).stat.ovr = c.stat.ovr := by
  unfold transferDecision; split <;> simp

@[simp] theorem waitDecision_op (p : Params) (c : Cbseq) :
    (waitDecision p c).op = c.op := by
  unfold waitDecision; split
  · simp
  · split <;> simp
@[simp] theorem waitDecision_addr (p : Params) (c : Cbseq) :
    (waitDecision p c).addr = c.addr := by
  unfold waitDecision; split
  · simp
  · split <;> simp
@[simp] theorem waitDecision_flags (p : Params) (c : Cbseq) :
    (waitDecision p c).flags = c.flags := by
  unfold waitDecision; split
  · simp
  · split <;> simp
@[simp] theorem waitDecision_buf (p : Params) (c : Cbseq) :
    (waitDecision p c).buf = c.buf := by
  unfold waitDecision; split
  · simp
  · split <;> simp
@[simp] theorem waitDecision_wcnt (p : Params) (c : Cbseq) :
    (waitDecision p c).wcnt = c.wcnt := by
  unfold waitDecision; split
  · simp
  · split <;> simp
@[simp] theorem waitDecision_frame (p : Params) (c : Cbseq) :
    (waitDecision p c).frame = c.frame := by
  unfold waitDecision; split
  · simp
  · split <;> simp
@[simp] theorem waitDecision_i (p : Params) (c : Cbseq) :
    (waitDecision p c).i = c.i := by
  unfold waitDecision; split
  · simp
  · split <;> simp
@[simp] theorem waitDecision_n (p : Params) (c : Cbseq) :
    (waitDecision p c).n = c.n := by
  unfold waitDecision; split
  · simp
  · split <;> simp
@[simp] theorem waitDecision_s (p : Params) (c : Cbseq) :
    (waitDecision p c).s = c.s := by
  unfold waitDecision; split
  · simp
  · split <;> simp
@[simp] theorem waitDecision_w (p : Params) (c : Cbseq) :
    (waitDecision p c).w = c.w := by
  unfold waitDecision; split
  · simp
  · split <;> simp
@[simp] theorem waitDecision_last (p : Params) (c : Cbseq) :
    (waitDecision p c).last = c.last := by
  unfold waitDecision; split
  · simp
  · split <;> simp
@[simp] theorem waitDecision_ready (p : Params) (c : Cbseq) :
    (waitDecision p c).ready = c.ready := by
  unfold waitDecision; split
  · simp
  · split <;> simp
@[simp] theorem waitDecision_aln (p : Params) (c : Cbseq) :
    (waitDecision p c).aln = c.aln := by
  unfold waitDecision; split
  · simp
  · split <;> simp
@[simp] theorem waitDecision_ill (p : Params) (c : Cbseq) :
    (waitDecision p c).stat.ill = c.stat.ill := by
  unfold waitDecision; split
  · simp
  · split <;> simp
@[simp] theorem waitDecision_ovr (p : Params) (c : Cbseq) :
    (waitDecision p c).stat.ovr = c.stat.ovr := by
  unfold waitDecision; split
  · simp
  · split <;> simp

end Sys2Proof.Machine
end

