-- ==== Sys2Proof/Laws/Ops.lean ====
section
/-!
SUPPORT. What each shared operation answers: the transactions on ports B and M, the guard of the
meanings, the launch and the poll cycle. Each lemma says the answer whole, so a proof cites it and does
not unfold the operation.
-/

namespace Sys2Proof.Machine

open Sys2Proof.Safety

/-! ### Port B never refuses what CBSEQ asks of it (R44) -/

theorem cmdAddr_shape (p : Params) (k : Fin 8) : busWriteShape p (p.cmdAddr k) .byte = true := by
  have h : p.cmdAddr k - p.cmdBase = BitVec.ofNat 32 k.val := by
    unfold Params.cmdAddr; bv_omega
  have h8 : (BitVec.ofNat 32 k.val).toNat < 8 := by
    rw [BitVec.toNat_ofNat]; omega
  simp only [busWriteShape, h, h8, decide_true, Bool.or_true]

/-- The EN write of Issue. -/
theorem issueEnable_eq (w : World) (s : State) :
    issueEnable w s = .next ((s.record (enWrite w.params)).mapCb (Cbseq.goto (.issCmd 0))) := by
  simp [issueEnable, busWrite, busWriteShape, enWrite]

/-- The write of FRAME[t]. -/
theorem issueCommand_eq (w : World) (t : Fin 8) (s : State) :
    issueCommand w t s =
      .next ((s.record (cmdWrite w.params s.cb.frame t)).mapCb (Cbseq.goto (afterIssue t))) := by
  unfold issueCommand busWrite
  rw [if_pos (cmdAddr_shape w.params (cmdIndex w.params t))]
  rfl

/-- The CTRL write of a launch. -/
theorem startBus_eq (w : World) (s : State) :
    startBus w s =
      .next ((s.record (ctrlWrite w.params s.cb.flags)).mapCb (Cbseq.goto .poll)) := by
  simp [startBus, busWrite, busWriteShape, ctrlWrite]

/-- The record entry of a CTRL read. -/
def ctrlRead (w : World) (s : State) : Event :=
  .bus ⟨.read, w.params.ctrlAddr, .word, busAnswer w s w.params.ctrlAddr⟩

/-- The record entry of a DATA read. -/
def dataRead (w : World) (s : State) : Event :=
  .bus ⟨.read, w.params.dataAddr, .word, busAnswer w s w.params.dataAddr⟩

/-- A poll cycle's first step. -/
theorem pollCycle_eq (w : World) (onReady onIdle : Cbseq → Cbseq) (s : State) :
    pollCycle w onReady onIdle s =
      .next ((s.record (ctrlRead w s)).mapCb fun c =>
        if isReady w.params (busAnswer w s w.params.ctrlAddr) then
          onReady (c.sample (busAnswer w s w.params.ctrlAddr))
        else onIdle (c.sample (busAnswer w s w.params.ctrlAddr))) := by
  simp [pollCycle, busRead, busReadShape, ctrlRead]

/-- A DATA read. -/
theorem dataRead_eq (w : World) (upd : Word → Cbseq → Cbseq) (s : State) :
    busRead w w.params.dataAddr upd s =
      .next ((s.record (dataRead w s)).mapCb (upd (busAnswer w s w.params.dataAddr))) := by
  simp [busRead, busReadShape, dataRead]

/-- A DATA write. -/
theorem dataWrite_eq (w : World) (v : Word) (upd : Cbseq → Cbseq) (s : State) :
    busWrite w w.params.dataAddr .word v upd s =
      .next ((s.record (.bus ⟨.write, w.params.dataAddr, .word, v⟩)).mapCb upd) := by
  simp [busWrite, busWriteShape]

/-! ### Port M -/

/-- Byte by byte: what it is for an access to have memory behind it. -/
theorem backs_word (w : World) (a : Word) :
    w.backs a .word = true ↔ ∀ j : Fin 4, w.backed (a + BitVec.ofNat 32 j.val) = true := by
  simp [World.backs, Width.bytes, Fin.forall_iff]

theorem backs_byte (w : World) (a : Word) : w.backs a .byte = w.backed a := by
  simp [World.backs, Width.bytes]

theorem onBacked_backed {w : World} {a : Word} {width : Width} (h : w.backs a width = true)
    (r : Res) : onBacked w a width r = r := if_pos h

theorem onBacked_stuck {w : World} {a : Word} {width : Width} (h : w.backs a width = false)
    (r : Res) : onBacked w a width r = .fault .unbackedMemory := if_neg (by simp [h])

/-- A transaction that ends in a next state found memory at its address. -/
theorem onBacked_next {w : World} {a : Word} {width : Width} {r : Res} {t : State}
    (h : onBacked w a width r = .next t) : w.backs a width = true ∧ r = .next t := by
  cases hb : w.backs a width with
  | true => exact ⟨rfl, by rwa [onBacked_backed hb] at h⟩
  | false => rw [onBacked_stuck hb] at h; cases h

/-- An aligned word store. -/
theorem memWriteWord_eq (w : World) {a : Word} (ha : isAligned a = true) (v : Word)
    (upd : Cbseq → Cbseq) (s : State) :
    memWriteWord w a v upd s =
      onBacked w a .word
        (.next (((s.setMem (storeWord s.mem a v)).record (.mem ⟨.write, a, .word, v⟩)).mapCb upd)) := by
  simp [memWriteWord, ha]

/-- An aligned word load. -/
theorem memReadWord_eq (w : World) {a : Word} (ha : isAligned a = true)
    (upd : Word → Cbseq → Cbseq) (s : State) :
    memReadWord w a upd s =
      onBacked w a .word (.next ((s.record (.mem ⟨.read, a, .word, memWord w s.mem a⟩)).mapCb
        (upd (memWord w s.mem a)))) := by
  simp [memReadWord, ha]

/-- A slot of an aligned buffer is aligned (R47). -/
theorem isAligned_slotAddr {c : Cbseq} (h : isAligned c.buf = true) :
    isAligned (slotAddr c) = true := by
  have key : ∀ x : Word, isAligned x = true ↔ x.toNat % 4 = 0 := by
    intro x
    simp only [isAligned, beq_iff_eq]
    constructor
    · intro h'
      have := congrArg BitVec.toNat h'
      simpa using this
    · intro h'
      apply BitVec.eq_of_toNat_eq
      simpa using h'
  rw [key] at h ⊢
  unfold slotAddr
  have h4 : (4 : Word).toNat = 4 := rfl
  rw [BitVec.toNat_add, BitVec.toNat_mul, h4]
  omega

/-! ### The guard of the meanings -/

theorem whenIdle_idle {s : State} (h : s.cb.stat.run = false) (r : Res) : whenIdle s r = r := by
  simp [whenIdle, h]

theorem whenIdle_running {s : State} (h : s.cb.stat.run = true) (r : Res) :
    whenIdle s r = .next (s.mapCb (Cbseq.raise .overrun)) := by
  simp [whenIdle, h]

/-! ### The record -/

@[simp] theorem blockTrace_cons_bus (a : Access) (es : List Event) :
    blockTrace (.bus a :: es) = .bus a :: blockTrace es := rfl
@[simp] theorem blockTrace_cons_mem (a : Access) (es : List Event) :
    blockTrace (.mem a :: es) = .mem a :: blockTrace es := rfl
@[simp] theorem blockTrace_cons_host (a : Access) (es : List Event) :
    blockTrace (.host a :: es) = blockTrace es := rfl
@[simp] theorem blockTrace_cons_own (a : Access) (es : List Event) :
    blockTrace (.own a :: es) = blockTrace es := rfl
@[simp] theorem blockTrace_cons_reset (es : List Event) :
    blockTrace (.reset :: es) = blockTrace es := rfl

/-- The environment sees nothing but port B (R55): its history is a function of the record of ports B
and M. -/
theorem busHistory_blockTrace (es : List Event) : busHistory (blockTrace es) = busHistory es := by
  induction es with
  | nil => rfl
  | cons e es ih =>
    unfold busHistory at ih ⊢
    cases e with
    | bus a => rw [blockTrace_cons_bus]; simp only [List.filterMap_cons, Event.busAccess, ih]
    | mem a => rw [blockTrace_cons_mem]; simp only [List.filterMap_cons, Event.busAccess, ih]
    | host a => rw [blockTrace_cons_host]; simp only [List.filterMap_cons, Event.busAccess, ih]
    | own a => rw [blockTrace_cons_own]; simp only [List.filterMap_cons, Event.busAccess, ih]
    | reset => rw [blockTrace_cons_reset]; simp only [List.filterMap_cons, Event.busAccess, ih]

end Sys2Proof.Machine
end

