-- ==== Sys2Proof/Laws/Step.lean ====
section
/-!
SUPPORT. The step taken apart: one lemma per row of R20's phase table, what a turn of CBSEQ leaves
alone, and the three ways a step can go. The step in the machine's own world is the step in any world,
taken at `Config.world`.
-/

namespace Sys2Proof.Machine

open Sys2Proof.Safety

/-! ### Any world -/

theorem exec_eq_execIn (i : Instr) (s : State) : exec i s = execIn Config.world i s := by
  cases i <;> rfl

theorem step_eq_stepIn (s : State) : step s = stepIn Config.world s := by
  have h : exec = execIn Config.world := by
    funext i s; exact exec_eq_execIn i s
  unfold step stepIn
  rw [h]

/-! ### The phase table, row by row -/

theorem blockTurn_idle (w : World) {s : State} (h : s.cb.ph = .idle) : blockTurn w s = .next s := by
  simp [blockTurn, h]

theorem blockTurn_issEn (w : World) {s : State} (h : s.cb.ph = .issEn) :
    blockTurn w s = .next ((s.record (enWrite w.params)).mapCb (Cbseq.goto (.issCmd 0))) := by
  simp only [blockTurn, h, issueEnable_eq]

theorem blockTurn_issCmd (w : World) {s : State} {t : Fin 8} (h : s.cb.ph = .issCmd t) :
    blockTurn w s =
      .next ((s.record (cmdWrite w.params s.cb.frame t)).mapCb (Cbseq.goto (afterIssue t))) := by
  simp only [blockTurn, h, issueCommand_eq]

theorem blockTurn_start (w : World) {s : State} (h : s.cb.ph = .start) :
    blockTurn w s =
      .next ((s.record (ctrlWrite w.params s.cb.flags)).mapCb (Cbseq.goto .poll)) := by
  simp only [blockTurn, h, startBus_eq]

theorem blockTurn_poll_none (w : World) {s : State} (h : s.cb.ph = .poll) (hk : s.cb.opk = .none) :
    blockTurn w s = .fault .noPhaseRow := by
  simp only [blockTurn, h, pollTurn, hk]

theorem blockTurn_poll_waitrdy (w : World) {s : State} (h : s.cb.ph = .poll)
    (hk : s.cb.opk = .waitrdy) :
    blockTurn w s = pollCycle w (Cbseq.goto .data) (waitDecision w.params) s := by
  simp only [blockTurn, h, pollTurn, hk, waitPoll]

theorem blockTurn_poll_xferrd (w : World) {s : State} (h : s.cb.ph = .poll)
    (hk : s.cb.opk = .xferrd) :
    blockTurn w s = pollCycle w (Cbseq.goto .data) (transferDecision w.params) s := by
  simp only [blockTurn, h, pollTurn, hk, readPoll]

theorem blockTurn_poll_xferwr (w : World) {s : State} (h : s.cb.ph = .poll)
    (hk : s.cb.opk = .xferwr) :
    blockTurn w s = pollCycle w (chooseWord w.params) (transferDecision w.params) s := by
  simp only [blockTurn, h, pollTurn, hk, writePoll]

theorem blockTurn_data_none (w : World) {s : State} (h : s.cb.ph = .data) (hk : s.cb.opk = .none) :
    blockTurn w s = .fault .noPhaseRow := by
  simp only [blockTurn, h, dataTurn, hk]

theorem blockTurn_data_waitrdy (w : World) {s : State} (h : s.cb.ph = .data)
    (hk : s.cb.opk = .waitrdy) :
    blockTurn w s =
      .next ((s.record (dataRead w s)).mapCb
        (consumeProbe w.params (busAnswer w s w.params.dataAddr))) := by
  simp only [blockTurn, h, dataTurn, hk, waitData, dataRead_eq]

theorem blockTurn_data_xferrd (w : World) {s : State} (h : s.cb.ph = .data)
    (hk : s.cb.opk = .xferrd) :
    blockTurn w s =
      .next ((s.record (dataRead w s)).mapCb
        (takeWord w.params (busAnswer w s w.params.dataAddr))) := by
  simp only [blockTurn, h, dataTurn, hk, readData, dataRead_eq]

theorem blockTurn_data_xferwr (w : World) {s : State} (h : s.cb.ph = .data)
    (hk : s.cb.opk = .xferwr) :
    blockTurn w s =
      .next ((s.record (.bus ⟨.write, w.params.dataAddr, .word, s.cb.w⟩)).mapCb
        (transferDecision w.params)) := by
  simp only [blockTurn, h, dataTurn, hk, writeData, dataWrite_eq]

theorem blockTurn_mem_xferrd (w : World) {s : State} {k : Fin 4} (h : s.cb.ph = .mem k)
    (hk : s.cb.opk = .xferrd) : blockTurn w s = readMem w k s := by
  simp only [blockTurn, h, memTurn, hk]

theorem blockTurn_mem_xferwr (w : World) {s : State} {k : Fin 4} (h : s.cb.ph = .mem k)
    (hk : s.cb.opk = .xferwr) : blockTurn w s = writeMem w k s := by
  simp only [blockTurn, h, memTurn, hk]

/-! ### The word serializer, path by path -/

/-- StoreWord on the aligned path (R131). -/
theorem readMem_word (w : World) (k : Fin 4) {s : State} (ha : s.cb.aln = true)
    (hs : isAligned (slotAddr s.cb) = true) :
    readMem w k s = onBacked w (slotAddr s.cb) .word
      (.next (((s.setMem (storeWord s.mem (slotAddr s.cb) s.cb.w)).record
        (.mem ⟨.write, slotAddr s.cb, .word, s.cb.w⟩)).mapCb (afterStore w.params))) := by
  unfold readMem; rw [if_pos ha, memWriteWord_eq w hs]

/-- Byte `k` of StoreWord on the byte path (R131). -/
theorem readMem_byte (w : World) (k : Fin 4) {s : State} (ha : s.cb.aln = false) :
    readMem w k s = onBacked w (slotByteAddr s.cb k) .byte
      (.next (((s.setMem (storeByte s.mem (slotByteAddr s.cb k) (byteOf s.cb.w k))).record
        (.mem ⟨.write, slotByteAddr s.cb k, .byte, byteValue (byteOf s.cb.w k)⟩)).mapCb
          (afterStoreByte w.params k))) := by
  unfold readMem; rw [if_neg (by simp [ha])]; rfl

/-- LoadWord on the aligned path (R132). -/
theorem writeMem_word (w : World) (k : Fin 4) {s : State} (ha : s.cb.aln = true)
    (hs : isAligned (slotAddr s.cb) = true) :
    writeMem w k s = onBacked w (slotAddr s.cb) .word
      (.next ((s.record (.mem ⟨.read, slotAddr s.cb, .word, memWord w s.mem (slotAddr s.cb)⟩)).mapCb
        (afterLoadWord (memWord w s.mem (slotAddr s.cb))))) := by
  unfold writeMem; rw [if_pos ha, memReadWord_eq w hs]

/-- Byte `k` of LoadWord on the byte path (R132). -/
theorem writeMem_byte (w : World) (k : Fin 4) {s : State} (ha : s.cb.aln = false) :
    writeMem w k s = onBacked w (slotByteAddr s.cb k) .byte
      (.next ((s.record (.mem ⟨.read, slotByteAddr s.cb k, .byte,
        byteValue (memByte w s.mem (slotByteAddr s.cb k))⟩)).mapCb
          (afterLoadByte k (memByte w s.mem (slotByteAddr s.cb k))))) := by
  unfold writeMem; rw [if_neg (by simp [ha])]; rfl

/-! ### What a turn of CBSEQ leaves alone -/

/-- The registers that no turn of CBSEQ writes: OP and the operand registers (R13, R15 to R19), and
ALN (R32). -/
structure SameOperands (a b : Cbseq) : Prop where
  op : a.op = b.op
  addr : a.addr = b.addr
  flags : a.flags = b.flags
  buf : a.buf = b.buf
  wcnt : a.wcnt = b.wcnt
  frame : a.frame = b.frame
  aln : a.aln = b.aln

theorem SameOperands.rfl' (c : Cbseq) : SameOperands c c := ⟨rfl, rfl, rfl, rfl, rfl, rfl, rfl⟩

theorem SameOperands.trans' {a b c : Cbseq} (h : SameOperands a b) (k : SameOperands b c) :
    SameOperands a c :=
  ⟨h.op.trans k.op, h.addr.trans k.addr, h.flags.trans k.flags, h.buf.trans k.buf,
    h.wcnt.trans k.wcnt, h.frame.trans k.frame, h.aln.trans k.aln⟩

/-- `SameOperands`, where the registers in question are the same by computation. -/
theorem same_of_rfl {a b : Cbseq} (op : a.op = b.op := by rfl) (addr : a.addr = b.addr := by rfl)
    (flags : a.flags = b.flags := by rfl) (buf : a.buf = b.buf := by rfl)
    (wcnt : a.wcnt = b.wcnt := by rfl) (frame : a.frame = b.frame := by rfl)
    (aln : a.aln = b.aln := by rfl) : SameOperands a b :=
  ⟨op, addr, flags, buf, wcnt, frame, aln⟩

theorem boundThen_same (p : Params) (x : Phase) (c : Cbseq) : SameOperands (c.boundThen p x) c := by
  constructor <;> simp

theorem waitDecision_same (p : Params) (c : Cbseq) : SameOperands (waitDecision p c) c := by
  unfold waitDecision
  split
  · exact boundThen_same _ _ _
  · split
    · exact same_of_rfl
    · exact boundThen_same _ _ _

theorem transferDecision_same (p : Params) (c : Cbseq) : SameOperands (transferDecision p c) c := by
  unfold transferDecision
  split
  · exact boundThen_same _ _ _
  · exact same_of_rfl

theorem afterStoreByte_same (p : Params) (k : Fin 4) (c : Cbseq) :
    SameOperands (afterStoreByte p k c) c := by
  unfold afterStoreByte
  split
  · exact same_of_rfl
  · obtain ⟨a, b, d, e, f, g, h⟩ := transferDecision_same p c.countWord
    exact ⟨a, b, d, e, f, g, h⟩

theorem afterLoadByte_same (k : Fin 4) (b : Byte) (c : Cbseq) :
    SameOperands (afterLoadByte k b c) c := by
  unfold afterLoadByte
  split <;> exact same_of_rfl

theorem takeWord_same (p : Params) (v : Word) (c : Cbseq) : SameOperands (takeWord p v c) c := by
  unfold takeWord
  split
  · exact same_of_rfl
  · obtain ⟨a, b, d, e, f, g, h⟩ := transferDecision_same p { c with w := v }
    exact ⟨a, b, d, e, f, g, h⟩

theorem chooseWord_same (p : Params) (c : Cbseq) : SameOperands (chooseWord p c) c := by
  unfold chooseWord
  split <;> exact same_of_rfl

/-- Every way a turn of CBSEQ can go: R20's phase table with the next state written out. -/
inductive Turned (w : World) (s : State) : State → Prop
  | idle (hp : s.cb.ph = .idle) : Turned w s s
  | issEn (hp : s.cb.ph = .issEn) :
    Turned w s ((s.record (enWrite w.params)).mapCb (Cbseq.goto (.issCmd 0)))
  | issCmd (t : Fin 8) (hp : s.cb.ph = .issCmd t) :
    Turned w s ((s.record (cmdWrite w.params s.cb.frame t)).mapCb (Cbseq.goto (afterIssue t)))
  | start (hp : s.cb.ph = .start) :
    Turned w s ((s.record (ctrlWrite w.params s.cb.flags)).mapCb (Cbseq.goto .poll))
  | waitPoll (hp : s.cb.ph = .poll) (hk : s.cb.opk = .waitrdy) :
    Turned w s ((s.record (ctrlRead w s)).mapCb fun c =>
      if isReady w.params (busAnswer w s w.params.ctrlAddr) then
        (c.sample (busAnswer w s w.params.ctrlAddr)).goto .data
      else waitDecision w.params (c.sample (busAnswer w s w.params.ctrlAddr)))
  | readPoll (hp : s.cb.ph = .poll) (hk : s.cb.opk = .xferrd) :
    Turned w s ((s.record (ctrlRead w s)).mapCb fun c =>
      if isReady w.params (busAnswer w s w.params.ctrlAddr) then
        (c.sample (busAnswer w s w.params.ctrlAddr)).goto .data
      else transferDecision w.params (c.sample (busAnswer w s w.params.ctrlAddr)))
  | writePoll (hp : s.cb.ph = .poll) (hk : s.cb.opk = .xferwr) :
    Turned w s ((s.record (ctrlRead w s)).mapCb fun c =>
      if isReady w.params (busAnswer w s w.params.ctrlAddr) then
        chooseWord w.params (c.sample (busAnswer w s w.params.ctrlAddr))
      else transferDecision w.params (c.sample (busAnswer w s w.params.ctrlAddr)))
  | waitData (hp : s.cb.ph = .data) (hk : s.cb.opk = .waitrdy) :
    Turned w s ((s.record (dataRead w s)).mapCb
      (consumeProbe w.params (busAnswer w s w.params.dataAddr)))
  | readData (hp : s.cb.ph = .data) (hk : s.cb.opk = .xferrd) :
    Turned w s ((s.record (dataRead w s)).mapCb
      (takeWord w.params (busAnswer w s w.params.dataAddr)))
  | writeData (hp : s.cb.ph = .data) (hk : s.cb.opk = .xferwr) :
    Turned w s ((s.record (.bus ⟨.write, w.params.dataAddr, .word, s.cb.w⟩)).mapCb
      (transferDecision w.params))
  | storeWord (k : Fin 4) (hp : s.cb.ph = .mem k) (hk : s.cb.opk = .xferrd)
    (ha : s.cb.aln = true) (hs : isAligned (slotAddr s.cb) = true)
    (hb : w.backs (slotAddr s.cb) .word = true) :
    Turned w s (((s.setMem (storeWord s.mem (slotAddr s.cb) s.cb.w)).record
      (.mem ⟨.write, slotAddr s.cb, .word, s.cb.w⟩)).mapCb (afterStore w.params))
  | storeByte (k : Fin 4) (hp : s.cb.ph = .mem k) (hk : s.cb.opk = .xferrd)
    (ha : s.cb.aln = false) (hb : w.backs (slotByteAddr s.cb k) .byte = true) :
    Turned w s (((s.setMem (storeByte s.mem (slotByteAddr s.cb k) (byteOf s.cb.w k))).record
      (.mem ⟨.write, slotByteAddr s.cb k, .byte, byteValue (byteOf s.cb.w k)⟩)).mapCb
        (afterStoreByte w.params k))
  | loadWord (k : Fin 4) (hp : s.cb.ph = .mem k) (hk : s.cb.opk = .xferwr)
    (ha : s.cb.aln = true) (hs : isAligned (slotAddr s.cb) = true)
    (hb : w.backs (slotAddr s.cb) .word = true) :
    Turned w s ((s.record (.mem ⟨.read, slotAddr s.cb, .word, memWord w s.mem (slotAddr s.cb)⟩)).mapCb
      (afterLoadWord (memWord w s.mem (slotAddr s.cb))))
  | loadByte (k : Fin 4) (hp : s.cb.ph = .mem k) (hk : s.cb.opk = .xferwr)
    (ha : s.cb.aln = false) (hb : w.backs (slotByteAddr s.cb k) .byte = true) :
    Turned w s ((s.record (.mem ⟨.read, slotByteAddr s.cb k, .byte,
      byteValue (memByte w s.mem (slotByteAddr s.cb k))⟩)).mapCb
        (afterLoadByte k (memByte w s.mem (slotByteAddr s.cb k))))

/-- A turn that ends in a next state went one of the ways of `Turned`. -/
theorem blockTurn_next {w : World} {s t : State} (h : blockTurn w s = .next t) : Turned w s t := by
  cases hp : s.cb.ph with
  | idle => rw [blockTurn_idle w hp] at h; cases h; exact .idle hp
  | issEn => rw [blockTurn_issEn w hp] at h; cases h; exact .issEn hp
  | issCmd i => rw [blockTurn_issCmd w hp] at h; cases h; exact .issCmd i hp
  | start => rw [blockTurn_start w hp] at h; cases h; exact .start hp
  | poll =>
    cases hk : s.cb.opk with
    | none => rw [blockTurn_poll_none w hp hk] at h; cases h
    | waitrdy => rw [blockTurn_poll_waitrdy w hp hk, pollCycle_eq] at h; cases h; exact .waitPoll hp hk
    | xferrd => rw [blockTurn_poll_xferrd w hp hk, pollCycle_eq] at h; cases h; exact .readPoll hp hk
    | xferwr => rw [blockTurn_poll_xferwr w hp hk, pollCycle_eq] at h; cases h; exact .writePoll hp hk
  | data =>
    cases hk : s.cb.opk with
    | none => rw [blockTurn_data_none w hp hk] at h; cases h
    | waitrdy => rw [blockTurn_data_waitrdy w hp hk] at h; cases h; exact .waitData hp hk
    | xferrd => rw [blockTurn_data_xferrd w hp hk] at h; cases h; exact .readData hp hk
    | xferwr => rw [blockTurn_data_xferwr w hp hk] at h; cases h; exact .writeData hp hk
  | mem k =>
    cases hk : s.cb.opk with
    | none => simp only [blockTurn, hp, memTurn, hk] at h; cases h
    | waitrdy => simp only [blockTurn, hp, memTurn, hk] at h; cases h
    | xferrd =>
      rw [blockTurn_mem_xferrd w hp hk] at h
      cases ha : s.cb.aln with
      | true =>
        cases hs : isAligned (slotAddr s.cb) with
        | true =>
          rw [readMem_word w k ha hs] at h
          obtain ⟨hb, h⟩ := onBacked_next h
          cases h; exact .storeWord k hp hk ha hs hb
        | false => simp [readMem, memWriteWord, ha, hs] at h
      | false =>
        rw [readMem_byte w k ha] at h
        obtain ⟨hb, h⟩ := onBacked_next h
        cases h; exact .storeByte k hp hk ha hb
    | xferwr =>
      rw [blockTurn_mem_xferwr w hp hk] at h
      cases ha : s.cb.aln with
      | true =>
        cases hs : isAligned (slotAddr s.cb) with
        | true =>
          rw [writeMem_word w k ha hs] at h
          obtain ⟨hb, h⟩ := onBacked_next h
          cases h; exact .loadWord k hp hk ha hs hb
        | false => simp [writeMem, memReadWord, ha, hs] at h
      | false =>
        rw [writeMem_byte w k ha] at h
        obtain ⟨hb, h⟩ := onBacked_next h
        cases h; exact .loadByte k hp hk ha hb

/-- What a turn that ends in a next state may have done: the operands, the inputs and the memory as
they were, except that a store of XFERRD in MEM(k) writes memory; one transaction recorded, and none in
IDLE. -/
theorem blockTurn_frame {w : World} {s t : State} (h : blockTurn w s = .next t) :
    SameOperands t.cb s.cb ∧ t.inputs = s.inputs ∧
      (t.mem = s.mem ∨ (s.cb.opk = .xferrd ∧ ∃ k, s.cb.ph = .mem k)) ∧
      ((s.cb.ph = .idle ∧ t = s) ∨
        (s.cb.ph ≠ .idle ∧ ∃ e, isBlockEvent e = true ∧ t.trace = e :: s.trace)) := by
  have same : SameOperands t.cb s.cb := by
    cases blockTurn_next h with
    | idle hp => exact SameOperands.rfl' _
    | issEn hp => exact same_of_rfl
    | issCmd i hp => exact same_of_rfl
    | start hp => exact same_of_rfl
    | waitPoll hp hk =>
      simp only [State.mapCb_cb, State.record_cb]
      split
      · exact same_of_rfl
      · exact (waitDecision_same w.params _).trans' same_of_rfl
    | readPoll hp hk =>
      simp only [State.mapCb_cb, State.record_cb]
      split
      · exact same_of_rfl
      · exact (transferDecision_same w.params _).trans' same_of_rfl
    | writePoll hp hk =>
      simp only [State.mapCb_cb, State.record_cb]
      split
      · exact (chooseWord_same w.params _).trans' same_of_rfl
      · exact (transferDecision_same w.params _).trans' same_of_rfl
    | waitData hp hk => exact (waitDecision_same w.params _).trans' same_of_rfl
    | readData hp hk => exact takeWord_same _ _ _
    | writeData hp hk => exact transferDecision_same _ _
    | storeWord k hp hk ha hs hb => exact (transferDecision_same w.params _).trans' same_of_rfl
    | storeByte k hp hk ha hb => exact afterStoreByte_same _ _ _
    | loadWord k hp hk ha hs hb => exact same_of_rfl
    | loadByte k hp hk ha hb => exact afterLoadByte_same _ _ _
  refine ⟨same, ?_⟩
  cases blockTurn_next h with
  | idle hp => exact ⟨rfl, .inl rfl, .inl ⟨hp, rfl⟩⟩
  | storeWord k hp hk ha hs hb => exact ⟨rfl, .inr ⟨hk, k, hp⟩, .inr ⟨by simp [hp], _, rfl, rfl⟩⟩
  | storeByte k hp hk ha hb => exact ⟨rfl, .inr ⟨hk, k, hp⟩, .inr ⟨by simp [hp], _, rfl, rfl⟩⟩
  | _ => exact ⟨rfl, .inl rfl, .inr ⟨by simp [*], _, rfl, rfl⟩⟩

/-! ### The host port -/

theorem hostWrite_running {s : State} (h : s.cb.stat.run = true) (ex : Instr → State → Res)
    (off v : Word) : hostWrite ex off v s = .next (s.mapCb (Cbseq.raise .overrun)) := by
  unfold hostWrite; exact if_pos h

theorem hostWrite_op {s : State} (h : s.cb.stat.run = false) (ex : Instr → State → Res) (v : Word) :
    hostWrite ex 0x00 v s = writeOp ex v s := by
  unfold hostWrite
  rw [if_neg (by simp [h]), if_pos (by rfl)]

theorem hostReg_op {off : Word} : hostReg off = .op ↔ off = 0x00 := by
  unfold hostReg
  constructor
  · intro h
    by_contra h0
    simp only [if_neg h0] at h
    repeat (first | (split at h; · cases h) | cases h)
  · rintro rfl; rfl

theorem hostWrite_reg {s : State} {off : Word} (h : s.cb.stat.run = false) (h0 : off ≠ 0x00)
    (ex : Instr → State → Res) (v : Word) :
    hostWrite ex off v s = .next (s.mapCb (writeReg off v)) := by
  unfold hostWrite
  rw [if_neg (by simp [h]), if_neg (fun e => h0 (hostReg_op.1 e))]

theorem isHostAccess_word {off : Word} (h4 : off.toNat % 4 = 0) (h40 : off.toNat < 0x40) :
    isHostAccess off .word = true := by
  simp [isHostAccess, h4, h40]

/-- A word that is no legal one selects no row, or is BUILDC's where `HAS_CKSUM` is false (R72). -/
theorem decode_of_not_legal {p : Params} {v : Word} (h : legalWord p v = false) :
    (∃ r, decode v = .error r) ∨ ∃ cc, decode v = .ok (.buildc cc) ∧ p.hasCksum = false := by
  unfold legalWord at h
  split at h
  · next i hi =>
    cases i with
    | buildc cc => exact .inr ⟨cc, hi, h⟩
    | build cc => cases h
    | waitrdy => cases h
    | xferrd => cases h
    | xferwr => cases h
  · next r hr => exact .inl ⟨r, hr⟩

/-! ### The three ways a step goes -/

/-- A step with no input waiting is a turn of CBSEQ. -/
theorem stepIn_nil (w : World) {s : State} (h : s.inputs = []) : stepIn w s = blockTurn w s := by
  simp only [stepIn, turn, h]

/-- A step whose first input is not due is a turn of CBSEQ, one turn less to wait. -/
theorem stepIn_wait (w : World) {s : State} {n : Nat} {x : Input} {ps : List Pending}
    (h : s.inputs = ⟨n + 1, x⟩ :: ps) :
    stepIn w s = blockTurn w (s.setInputs (⟨n, x⟩ :: ps)) := by
  simp only [stepIn, turn, h]

/-- A step whose first input is due delivers it. -/
theorem stepIn_due (w : World) {s : State} {x : Input} {ps : List Pending}
    (h : s.inputs = ⟨0, x⟩ :: ps) :
    stepIn w s = deliver w (execIn w) x (s.setInputs ps) := by
  simp only [stepIn, turn, h]

/-- A step in which no input is due is a turn of CBSEQ. -/
theorem stepIn_quiet (w : World) {s : State} (h : Quiet s) :
    stepIn w s = blockTurn w (s.setInputs (waitedInputs s.inputs)) := by
  obtain ⟨cb, mem, inputs, trace⟩ := s
  match inputs with
  | [] => rfl
  | ⟨0, x⟩ :: ps => exact absurd rfl (h ⟨0, x⟩ (by simp))
  | ⟨n + 1, x⟩ :: ps => rfl

/-- A step has an input due or is quiet. -/
theorem quiet_or_due (s : State) : Quiet s ∨ ∃ x ps, s.inputs = ⟨0, x⟩ :: ps := by
  obtain ⟨cb, mem, inputs, trace⟩ := s
  match inputs with
  | [] => exact .inl (by simp [Quiet])
  | ⟨0, x⟩ :: ps => exact .inr ⟨x, ps, rfl⟩
  | ⟨n + 1, x⟩ :: ps => exact .inl (by simp [Quiet])

/-- Every way the acceptance of an operation in an idle block can go. -/
inductive Accepted (w : World) (s : State) : Instr → State → Prop
  | build (cc : Byte) :
    Accepted w s (.build cc) (s.mapCb (finishBuild w.params (.build cc) cc 0))
  | buildc (cc : Byte) (hc : w.params.hasCksum = true) :
    Accepted w s (.buildc cc)
      (s.mapCb fun c => finishBuild w.params (.buildc cc) cc (checksum c.addr) c)
  | illegal (cc : Byte) (hc : w.params.hasCksum = false) :
    Accepted w s (.buildc cc) (s.mapCb (Cbseq.raise .illegal))
  | waitrdy : Accepted w s .waitrdy (s.mapCb beginWaitrdy)
  | xferrd (hb : bufferClash w.params s.cb.buf s.cb.wcnt = false) :
    Accepted w s .xferrd (s.mapCb (beginTransfer .xferrd .xferrd))
  | xferwr (hb : bufferClash w.params s.cb.buf s.cb.wcnt = false) :
    Accepted w s .xferwr (s.mapCb beginWrite)

/-- An operation accepted in an idle block went one of the ways of `Accepted`. -/
theorem execIn_next {w : World} {i : Instr} {s t : State} (hr : s.cb.stat.run = false)
    (h : execIn w i s = .next t) : Accepted w s i t := by
  cases i with
  | build cc =>
    simp only [execIn, buildIn, whenIdle_idle hr] at h; cases h; exact .build cc
  | buildc cc =>
    simp only [execIn, buildcIn, whenIdle_idle hr] at h
    cases h
    cases hc : w.params.hasCksum with
    | true => simpa using Accepted.buildc cc hc
    | false => simpa using Accepted.illegal cc hc
  | waitrdy => simp only [execIn, waitrdyIn, whenIdle_idle hr] at h; cases h; exact .waitrdy
  | xferrd =>
    simp only [execIn, xferrdIn, whenIdle_idle hr, launchTransfer] at h
    split at h
    · cases h
    · next hb => cases h; exact .xferrd (by simpa using hb)
  | xferwr =>
    simp only [execIn, xferwrIn, whenIdle_idle hr, launchTransfer] at h
    split at h
    · cases h
    · next hb => cases h; exact .xferwr (by simpa using hb)

/-- Every way a due input can go, `s` being the state from which the input has been taken. -/
inductive Delivered (w : World) (s : State) : Input → State → Prop
  | overrun (off v : Word) (hr : s.cb.stat.run = true) :
    Delivered w s (.write off .word v)
      ((s.record (.host ⟨.write, off, .word, v⟩)).mapCb (Cbseq.raise .overrun))
  | reject (v : Word) (r : Reject) (hr : s.cb.stat.run = false) (hd : decode v = .error r) :
    Delivered w s (.write 0x00 .word v)
      ((s.record (.host ⟨.write, 0x00, .word, v⟩)).mapCb (Cbseq.raise .illegal))
  | accept (v : Word) (i : Instr) (t : State) (hr : s.cb.stat.run = false) (hd : decode v = .ok i)
    (ht : Accepted w (s.record (.host ⟨.write, 0x00, .word, v⟩)) i t) :
    Delivered w s (.write 0x00 .word v) t
  | reg (off v : Word) (hr : s.cb.stat.run = false) (h0 : off ≠ 0x00) :
    Delivered w s (.write off .word v)
      ((s.record (.host ⟨.write, off, .word, v⟩)).mapCb (writeReg off v))
  | read (off : Word) : Delivered w s (.read off .word) (hostRead off s)
  | sync : Delivered w s .sync (syncRead s)
  | poke (a : Word) (b : Byte) (hr : isRegisterByte w.params a = false) (hb : w.backed a = true) :
    Delivered w s (.poke a b)
      ((s.setMem (storeByte s.mem a b)).record (.own ⟨.write, a, .byte, byteValue b⟩))
  | peek (a : Word) (hr : isRegisterByte w.params a = false) (hb : w.backed a = true) :
    Delivered w s (.peek a) (s.record (.own ⟨.read, a, .byte, byteValue (memByte w s.mem a)⟩))
  | reset : Delivered w s .reset (resetBlock s)

/-- The host's own access to memory, where it ends in a next state. -/
theorem hostOwn_next {w : World} {a : Word} {r : Res} {t : State} (h : hostOwn w a r = .next t) :
    isRegisterByte w.params a = false ∧ w.backed a = true ∧ r = .next t := by
  unfold hostOwn at h
  split at h
  · cases h
  · next hr =>
    split at h
    · next hb => exact ⟨by simpa using hr, hb, h⟩
    · cases h

/-- A due input that ends in a next state went one of the ways of `Delivered`. -/
theorem deliver_next {w : World} {x : Input} {s t : State}
    (h : deliver w (execIn w) x s = .next t) : Delivered w s x t := by
  cases x with
  | write off width v =>
    unfold deliver at h
    simp only [] at h
    split at h
    · next ha =>
      obtain rfl : width = .word := by
        cases width <;> simp_all [isHostAccess]
      by_cases hr : s.cb.stat.run = true
      · rw [hostWrite_running (by exact hr)] at h; cases h; exact .overrun off v hr
      · have hr : s.cb.stat.run = false := by simpa using hr
        by_cases h0 : off = 0x00
        · subst h0
          rw [hostWrite_op (by exact hr)] at h
          unfold writeOp at h
          split at h
          · next i hi => exact .accept v i t hr hi (execIn_next (by exact hr) h)
          · next r hd => cases h; exact .reject v r hr hd
        · rw [hostWrite_reg (by exact hr) h0] at h; cases h; exact .reg off v hr h0
    · cases h
  | read off width =>
    unfold deliver at h
    simp only [] at h
    split at h
    · next ha =>
      obtain rfl : width = .word := by cases width <;> simp_all [isHostAccess]
      cases h; exact .read off
    · cases h
  | sync => cases h; exact .sync
  | poke a b => obtain ⟨hr, hb, h⟩ := hostOwn_next h; cases h; exact .poke a b hr hb
  | peek a => obtain ⟨hr, hb, h⟩ := hostOwn_next h; cases h; exact .peek a hr hb
  | reset => cases h; exact .reset

/-- A step that ends in a next state is a turn of CBSEQ or the delivery of the input that was due. -/
theorem stepIn_next {w : World} {s t : State} (h : stepIn w s = .next t) :
    (Quiet s ∧ Turned w (s.setInputs (waitedInputs s.inputs)) t) ∨
      ∃ x ps, s.inputs = ⟨0, x⟩ :: ps ∧ Delivered w (s.setInputs ps) x t := by
  rcases quiet_or_due s with hq | ⟨x, ps, hi⟩
  · rw [stepIn_quiet w hq] at h
    exact .inl ⟨hq, blockTurn_next h⟩
  · rw [stepIn_due w hi] at h
    exact .inr ⟨x, ps, hi, deliver_next h⟩

end Sys2Proof.Machine
end

