-- ==== Sys2Proof/Laws/PerInstr.lean ====
section
/-!
SUPPORT. One statement about every operation as syntax: its word stands in its row of the operation
table (spec/30_encoding.md R70, R71).
-/

namespace Sys2Proof.Laws.TableRow

open Sys2Proof.Machine

/-- The word of `i` selects a row of R71 that has the mnemonic of `i`, its reserved bits 31:16 are 0,
and it has CMDOP 0 unless the operation takes an immediate (R70). -/
def Statement (i : Instr) : Prop :=
  (∃ r ∈ opRows, r.mnemonic = i.mnemonic ∧ encode i &&& r.mask = r.bits) ∧
    reservedField (encode i) = 0 ∧
    (cmdopField (encode i) = 0 ∨ ∃ cc, i = .build cc ∨ i = .buildc cc)

/-- The mask of BUILD and BUILDC keeps everything but CMDOP. -/
theorem mask_opWord (cc fn : Byte) : opWord cc fn &&& 0xFFFF00FF = opWord 0 fn := by
  apply BitVec.eq_of_getLsbD_eq
  intro n hn
  simp only [opWord, BitVec.getLsbD_and, BitVec.getLsbD_append]
  by_cases h : n < 8
  · interval_cases n <;> simp
  · by_cases h' : n - 8 < 8
    · obtain ⟨m, rfl⟩ : ∃ m, n = 8 + m := ⟨n - 8, by omega⟩
      have hm : m < 8 := by omega
      interval_cases m <;> simp
    · simp [h, h']

theorem build (cmdop : Byte) : Statement (.build cmdop) :=
  ⟨⟨_, List.Mem.head _, rfl, (mask_opWord _ _).trans (by decide)⟩, (opWord_fields _ _).2.2,
    .inr ⟨cmdop, .inl rfl⟩⟩

theorem buildc (cmdop : Byte) : Statement (.buildc cmdop) :=
  ⟨⟨_, List.Mem.tail _ (List.Mem.head _), rfl, (mask_opWord _ _).trans (by decide)⟩,
    (opWord_fields _ _).2.2, .inr ⟨cmdop, .inr rfl⟩⟩

theorem waitrdy : Statement .waitrdy := by
  refine ⟨⟨⟨"WAITRDY", 3, 0xFFFFFFFF⟩, ?_, ?_, ?_⟩, ?_, .inl ?_⟩ <;> decide

theorem xferrd : Statement .xferrd := by
  refine ⟨⟨⟨"XFERRD", 4, 0xFFFFFFFF⟩, ?_, ?_, ?_⟩, ?_, .inl ?_⟩ <;> decide

theorem xferwr : Statement .xferwr := by
  refine ⟨⟨⟨"XFERWR", 5, 0xFFFFFFFF⟩, ?_, ?_, ?_⟩, ?_, .inl ?_⟩ <;> decide

end Sys2Proof.Laws.TableRow
end

