-- ==== Sys2Proof/Tests/Slice0.lean ====
section
/-!
SUPPORT. The model's own tests: the WellFormed smoke test, words decoded, single steps whose expected
results stand in the spec's vectors (spec/95_test_vectors.md), and one witness per statement that has
hypotheses.
-/

namespace Sys2Proof.Tests

open Sys2Proof.Machine Sys2Proof.Safety

/-! ### The test bench -/

/-- The backend SCRIPT of spec/95_test_vectors.md section 2: the n-th port B read is answered with the n-th
word; every address is memory and holds EE wherever nothing has been written. -/
def bench (p : Params) (script : List Word) : World :=
  ⟨p, fun h _ => script.getD (h.countP fun a => a.dir == .read) 0, fun _ => true,
    fun _ => 0xEE⟩

/-- The bench on a platform with one byte of address space that has no memory behind it. -/
def benchHole (hole : Word) : World := { bench Params.ref [] with backed := fun a => a != hole }

/-- REF with `OPCODE_POS = 7`. -/
def ref7 : Params := { Params.ref with opcodePos := .byte7 }

/-- REF without checksum. -/
def refPlain : Params := { Params.ref with hasCksum := false }

/-- REF with `POLL_LIMIT = 2`. -/
def refTwo : Params := { Params.ref with pollLimit := some 2 }

/-- REF on a platform whose spaces are one. -/
def refOne : Params := { Params.ref with oneSpace := true }

/-- The next state, if there is one. -/
def nextOf : Res → Option State
  | .next t => some t
  | .fault _ => none
  | .refused _ => none

/-- The refusal, if there is one. -/
def refusalOf : Res → Option Refusal
  | .refused r => some r
  | .next _ => none
  | .fault _ => none

/-- The fault, if there is one. -/
def faultOf : Res → Option Fault
  | .fault r => some r
  | .next _ => none
  | .refused _ => none

/-- An idle block with its registers changed. -/
def idleWith (f : Cbseq → Cbseq) : State := State.reset.mapCb f

/-- A block running `k` in phase `ph`. -/
def running (k : OpKind) (ph : Phase) (f : Cbseq → Cbseq) : State :=
  State.reset.mapCb fun c => f { c with stat := { c.stat with run := true }, opk := k, ph := ph }

/-- A state with inputs waiting. -/
def given (ps : List Pending) (s : State) : State := s.setInputs ps

/-- The host's write of an operation word, due now. -/
def opw (v : Word) : Pending := ⟨0, .write 0x00 .word v⟩

/-! ### Well-formedness -/

/-- R72: BUILDC is ill formed where `HAS_CKSUM` is false, and its word is then illegal. -/
theorem test_wellFormed_refuses_buildc :
    Instr.wellFormed refPlain (.buildc 0xC5) = false ∧ legalWord refPlain 0x0000C502 = false ∧
      Instr.wellFormed Params.ref (.buildc 0xC5) = true := by decide

/-! ### Words, written out from R70 and R71: 31:16 zero, CMDOP in 15:8, FN in 7:0 -/

theorem test_decode_build :
    decode 0b0000000000000000_11001001_00000001 = .ok (.build 0xC9) := by decide
theorem test_decode_buildc :
    decode 0b0000000000000000_11000101_00000010 = .ok (.buildc 0xC5) := by decide
theorem test_decode_waitrdy :
    decode 0b0000000000000000_00000000_00000011 = .ok .waitrdy := by decide
theorem test_decode_xferrd :
    decode 0b0000000000000000_00000000_00000100 = .ok .xferrd := by decide
theorem test_decode_xferwr :
    decode 0b0000000000000000_00000000_00000101 = .ok .xferwr := by decide

/-- R72, R82, vector V51's kinds of illegal word. -/
theorem test_decode_rejects :
    decode 0x00000000 = .error .unknownFunction ∧ decode 0x00000006 = .error .unknownFunction ∧
      decode 0x000000FF = .error .unknownFunction ∧ decode 0x00000103 = .error .cmdopNotZero ∧
      decode 0x80000005 = .error .reservedNotZero := by decide

/-- The rows' own bits, as spec/opcode_table.json has them. -/
theorem test_decodeTableWord :
    decodeTableWord 32 1 = some (.build 0) ∧ decodeTableWord 32 2 = some (.buildc 0) ∧
      decodeTableWord 32 3 = some .waitrdy ∧ decodeTableWord 32 4 = some .xferrd ∧
      decodeTableWord 32 5 = some .xferwr ∧ decodeTableWord 32 0x10001 = none := by decide

/-! ### One step, against the spec's vectors -/

/-- V2 and V3: BUILD C9 with ADDR = 12345678, in both layouts. -/
theorem test_build_v2_v3 :
    (nextOf (execIn (bench Params.ref []) (.build 0xC9)
      (idleWith fun c => { c with addr := 0x12345678 }))).map (·.cb.frame)
        = some #v[0xC9, 0x12, 0x34, 0x56, 0x78, 0x00, 0x00, 0x00] ∧
    (nextOf (execIn (bench ref7 []) (.build 0xC9)
      (idleWith fun c => { c with addr := 0x12345678 }))).map (·.cb.frame)
        = some #v[0x00, 0x00, 0x00, 0x78, 0x56, 0x34, 0x12, 0xC9] := by decide

/-- V1: the host views of the frame and STAT after BUILD C9 with ADDR = 5. -/
theorem test_build_v1 :
    (nextOf (stepIn (bench Params.ref []) (given [opw 0x0000C901]
      (idleWith fun c => { c with addr := 5 })))).map
        (fun t => (hostReadValue t.cb 0x18, hostReadValue t.cb 0x1C, hostReadValue t.cb 0x04))
        = some (0x000000C9, 0x00000005, 0x00000002) := by decide

/-- V6 and V6m: BUILDC C5 with ADDR = 12345678, in both layouts. -/
theorem test_buildc_v6 :
    (nextOf (execIn (bench Params.ref []) (.buildc 0xC5)
      (idleWith fun c => { c with addr := 0x12345678 }))).map (·.cb.frame)
        = some #v[0xC5, 0x12, 0x34, 0x56, 0x78, 0x08, 0x00, 0x00] ∧
    (nextOf (execIn (bench ref7 []) (.buildc 0xC5)
      (idleWith fun c => { c with addr := 0x12345678 }))).map (·.cb.frame)
        = some #v[0x00, 0x00, 0x08, 0x78, 0x56, 0x34, 0x12, 0xC5] := by decide

/-- V11: BUILDC where `HAS_CKSUM` is false: STAT = 8, FRAME and OP unchanged. -/
theorem test_buildc_v11 :
    (nextOf (stepIn (bench refPlain []) (given [opw 0x0000C502] (idleWith fun c =>
      { c with addr := 0x12345678, frame := #v[0x11, 0x22, 0x33, 0x44, 0x55, 0x66, 0x77, 0x88] })))).map
        (fun t => (hostReadValue t.cb 0x04, t.cb.op, hostReadValue t.cb 0x18))
        = some (0x00000008, 0x00000000, 0x44332211) := by decide

/-- V16's last read: BUSY clear, READY = 0, N = 2 = POLL_LIMIT: Timeout instead of a second launch. -/
theorem test_waitrdy_v16 :
    (nextOf (blockTurn (bench refTwo [0x00000000])
      (running .waitrdy .poll fun c => { c with n := 1 }))).map
        (fun t => (hostReadValue t.cb 0x04, t.cb.n, t.cb.ph)) = some (0x00000004, 2, .idle) := by decide

/-- V19(a)'s DATA read with `POLL_LIMIT` reached: the zero word completes WAITRDY all the same. -/
theorem test_waitrdy_v19 :
    (nextOf (blockTurn (bench refTwo [0x00000000])
      (running .waitrdy .data fun c => { c with n := 2, s := 0x00800000 }))).map
        (fun t => (hostReadValue t.cb 0x04, t.cb.ready)) = some (0x00000002, true) := by decide

/-- V27's DATA read: DATA_READY with BUSY clear, the word is to be stored all the same. -/
theorem test_xferrd_v27 :
    (nextOf (blockTurn (bench Params.ref [0xCAFEBABE]) (running .xferrd .data fun c =>
      { c with s := 0x00800000, buf := 0x1000, wcnt := 1, aln := true, n := 1 }))).map
        (fun t => (t.cb.w, t.cb.ph)) = some (0xCAFEBABE, .mem 0) := by decide

/-- V21's fourth byte store: `M.W8 00001004 <- 11`, then the next poll. -/
theorem test_xferrd_v21 :
    (nextOf (blockTurn (bench Params.ref []) (running .xferrd (.mem 3) fun c =>
      { c with s := 0x80800000, buf := 0x1001, wcnt := 2, w := 0x11223344 }))).map
        (fun t => (t.mem, t.cb.i, t.cb.ph)) = some ([(0x1004, 0x11)], 1, .poll) := by decide

/-- R140's example: the aligned load of `EF BE AD DE` at 0x2000 is 0xDEADBEEF, and LAST with it. -/
theorem test_xferwr_load :
    (nextOf (blockTurn (bench Params.ref []) ((running .xferwr (.mem 0) fun c =>
      { c with buf := 0x2000, wcnt := 1, aln := true }).setMem
        [(0x2000, 0xEF), (0x2001, 0xBE), (0x2002, 0xAD), (0x2003, 0xDE)]))).map
        (fun t => (t.cb.w, t.cb.last, t.cb.ph)) = some (0xDEADBEEF, 0xDEADBEEF, .data) := by decide

/-- R140's example: with the buffer exhausted the filler is LAST, or zero where `FILL_LAST` is false. -/
theorem test_xferwr_filler :
    (nextOf (blockTurn (bench Params.ref [0x80800000]) (running .xferwr .poll fun c =>
      { c with buf := 0x2000, wcnt := 1, i := 1, last := 0xDEADBEEF }))).map (·.cb.w)
        = some 0xDEADBEEF ∧
    (nextOf (blockTurn (bench { Params.ref with fillLast := false } [0x80800000])
      (running .xferwr .poll fun c =>
        { c with buf := 0x2000, wcnt := 1, i := 1, last := 0xDEADBEEF }))).map (·.cb.w)
        = some 0x00000000 := by decide

/-- R96's worked example: FRAME[4] = 78 goes to 0x040001AC, mirrored to 0x040001AB. -/
theorem test_issue_example :
    (nextOf (blockTurn (bench Params.ref []) (running .xferrd (.issCmd 4) fun c =>
      { c with frame := #v[0xC9, 0x12, 0x34, 0x56, 0x78, 0, 0, 0] }))).map (·.trace)
        = some [.bus ⟨.write, 0x040001AC, .byte, 0x78⟩] ∧
    (nextOf (blockTurn (bench { ref7 with issueMirror := true } [])
      (running .xferrd (.issCmd 4) fun c =>
        { c with frame := #v[0, 0, 0, 0x78, 0x56, 0x34, 0x12, 0xC9] }))).map (·.trace)
        = some [.bus ⟨.write, 0x040001AB, .byte, 0x56⟩] := by decide

/-- R14: a write of 0x14 to STAT clears TMO and OVR, keeps ILL, and leaves DONE. -/
theorem test_stat_clear :
    (nextOf (stepIn (bench Params.ref []) (given [⟨0, .write 0x04 .word 0x00000014⟩]
      (idleWith fun c => { c with stat := ⟨false, true, true, true, true⟩ })))).map
        (fun t => hostReadValue t.cb 0x04) = some 0x0000000A := by decide

/-- R83's SYNC: the host reads STAT, and reads it again while RUN is 1. -/
theorem test_sync :
    (nextOf (stepIn (bench Params.ref []) (given [⟨0, .sync⟩] (running .xferrd .poll id)))).map
        (fun t => (t.inputs, t.trace))
        = some ([⟨1, .sync⟩], [.host ⟨.read, 0x04, .word, 0x00000001⟩]) ∧
    (nextOf (stepIn (bench Params.ref []) (given [⟨0, .sync⟩] State.reset))).map
        (fun t => (t.inputs, t.trace))
        = some ([], [.host ⟨.read, 0x04, .word, 0x00000000⟩]) := by decide

/-- R163's shape: one sector is six host writes and a SYNC, the operation word last of the writes. -/
theorem test_readSectors_shape :
    (readSectors 0xB7 0xA1586000 5 1 0x1000).map (·.input) =
      [.write 0x08 .word 5, .write 0x00 .word 0x0000B701, .write 0x0C .word 0xA1586000,
        .write 0x10 .word 0x1000, .write 0x14 .word 128, .write 0x00 .word 0x00000004, .sync] := by
  decide

/-! ### The machine's own step takes a placed word first -/

theorem test_step_takes_word :
    ∃ t, step (State.reset.withFetchWord 32 0x0000C901) = .next t ∧ t.cb.op = 0x0000C901 ∧
      t.cb.stat.done = true :=
  ⟨_, rfl, rfl, rfl⟩

/-! ### Witnesses: states that meet the hypotheses of the statements -/

/-- XFERRD on the byte path, first byte of the second slot: the first word stored, the second popped. -/
def storing : State :=
  { cb := { Cbseq.reset with
      stat := { Cbseq.reset.stat with run := true }
      op := 4, opk := .xferrd, ph := .mem 0, buf := 0x1001, wcnt := 2, i := 1, n := 2
      s := 0x80800000, w := 0xAABBCCDD }
    mem := [(0x1001, 0x44), (0x1002, 0x33), (0x1003, 0x22), (0x1004, 0x11)]
    inputs := []
    trace := [.bus ⟨.read, 0x04100010, .word, 0xAABBCCDD⟩,
      .bus ⟨.read, 0x04100010, .word, 0x11223344⟩, .bus ⟨.write, 0x040001A4, .word, 0⟩] }

/-- XFERWR on the aligned path, about to load its only word. -/
def loading : State :=
  { cb := { Cbseq.reset with
      stat := { Cbseq.reset.stat with run := true }
      op := 5, opk := .xferwr, ph := .mem 0, buf := 0x2000, wcnt := 1, aln := true, n := 1
      s := 0x80800000 }
    mem := [(0x2000, 0xEF), (0x2001, 0xBE), (0x2002, 0xAD), (0x2003, 0xDE)]
    inputs := []
    trace := [.bus ⟨.write, 0x040001A4, .word, 0⟩] }

/-- WAITRDY about to make its first EN write. -/
def waiting : State := running .waitrdy .issEn id

theorem witness_inv_storing : Inv storing := by
  refine ⟨?_, ?_, ?_, ?_, ?_, ?_, ?_⟩
  · decide
  · decide
  · decide
  · intro _; decide
  · intro _; decide
  · intro k hk
    obtain rfl : (0 : Fin 4) = k := by injection hk
    exact ⟨.inl rfl, by decide, fun h => absurd rfl h⟩
  · decide

theorem witness_inv_loading : Inv loading := by
  refine ⟨?_, ?_, ?_, ?_, ?_, ?_, ?_⟩
  · decide
  · decide
  · decide
  · intro _; decide
  · intro _; decide
  · intro k hk
    obtain rfl : (0 : Fin 4) = k := by injection hk
    exact ⟨.inr rfl, by decide, fun h => absurd rfl h⟩
  · decide

theorem witness_inv_waiting : Inv waiting := by
  refine ⟨?_, ?_, ?_, ?_, ?_, ?_, ?_⟩
  · decide
  · decide
  · decide
  · rintro (h | h) <;> cases h
  · rintro (h | h) <;> cases h
  · intro k hk; cases hk
  · decide

/-- A state in which the poll bound is about to be tested on a busy sample. -/
def polling (k : OpKind) : State := running k .poll fun c => { c with n := 1 }

theorem witness_StepRunsDecodedOperation :
    (given [opw 0x0000C901] State.reset).inputs = ⟨0, .write 0x00 .word 0x0000C901⟩ :: [] ∧
      (given [opw 0x0000C901] State.reset).cb.stat.run = false ∧
      decode 0x0000C901 = .ok (.build 0xC9) := by decide

theorem witness_StepTakesBlockTurn :
    Quiet State.reset ∧ Quiet (given [⟨1, .sync⟩] State.reset) := by
  simp [Quiet, given, State.reset]

theorem witness_IdleBlockStaysIdle : State.reset.cb.ph = .idle ∧ State.reset.inputs = [] := by decide

theorem witness_HostReadReturnsRegister :
    (given [⟨0, .read 0x3C .word⟩] waiting).inputs = ⟨0, .read 0x3C .word⟩ :: [] ∧
      (0x00 : Word).toNat % 4 = 0 ∧ (0x3C : Word).toNat % 4 = 0 ∧ (0x3C : Word).toNat < 0x40 := by
  decide

theorem witness_HostWriteEffects :
    (given [⟨0, .write 0x24 .word 7⟩] waiting).inputs = ⟨0, .write 0x24 .word 7⟩ :: [] ∧
      (given [⟨0, .write 0x24 .word 7⟩] waiting).cb.stat.run = true ∧
      (0x24 : Word).toNat % 4 = 0 ∧ (0x24 : Word).toNat < 0x40 ∧
      (given [⟨0, .write 0x04 .word 7⟩] State.reset).cb.stat.run = false := by decide

theorem witness_BadHostTransactionRefused :
    refusalOf (stepIn (bench Params.ref []) (given [⟨0, .write 0x08 .half 7⟩] State.reset))
      = some .badHostAccess ∧
    refusalOf (stepIn (bench Params.ref []) (given [⟨0, .read 0x02 .word⟩] State.reset))
      = some .badHostAccess ∧
    refusalOf (stepIn (bench Params.ref []) (given [⟨0, .read 0x40 .word⟩] waiting))
      = some .badHostAccess := by decide

/-- R182's first clause meets its hypotheses at the word 0, the second at the step that word makes. -/
theorem witness_IllegalWordSetsOnlyIll :
    legalWord Params.ref 0 = false ∧ (given [opw 0] State.reset).cb.stat.run = false ∧
    ((nextOf (stepIn (bench Params.ref []) (given [opw 0] State.reset))).map (·.cb.stat.ill))
      = some true := by decide

theorem witness_OverrunLeavesOperationUndisturbed :
    (given [⟨0, .write 0x04 .word 0x1C⟩] waiting).cb.stat.run = true ∧
      (0x04 : Word).toNat % 4 = 0 ∧ (0x04 : Word).toNat < 0x40 ∧
    ((nextOf (stepIn (bench Params.ref []) (given [⟨0, .write 0x04 .word 0x1C⟩] waiting))).map
      (·.cb.stat.ovr)) = some true := by decide

theorem witness_AcceptedWordStored :
    legalWord Params.ref 0x0000C901 = true ∧ legalWord Params.ref 0x00000003 = true ∧
    ((nextOf (stepIn (bench Params.ref []) (given [opw 0x0000C901] State.reset))).map
      (fun t => (t.cb.stat.done, t.cb.stat.run))) = some (true, false) ∧
    ((nextOf (stepIn (bench Params.ref []) (given [opw 0x00000003] State.reset))).map
      (fun t => (t.cb.stat.done, t.cb.stat.run))) = some (false, true) := by decide

theorem witness_OperandsKeptWhileRunning :
    (∃ t, stepIn (bench Params.ref []) waiting = .next t) ∧ waiting.cb.stat.run = true ∧
      ∀ ps, waiting.inputs ≠ ⟨0, .reset⟩ :: ps :=
  ⟨⟨_, rfl⟩, rfl, fun _ h => by cases h⟩

theorem witness_ResetRestoresRegisters :
    ∃ t, stepIn (bench Params.ref []) (given [⟨0, .reset⟩] storing) = .next t ∧
      (given [⟨0, .reset⟩] storing).inputs = ⟨0, .reset⟩ :: [] := ⟨_, rfl, rfl⟩

theorem witness_ResetAbandonsOperation :
    (given [⟨0, .reset⟩] storing).inputs = [⟨0, .reset⟩] := rfl

/-- For the statements of the five acceptances: an idle and a running block. -/
theorem witness_acceptances : State.reset.cb.stat.run = false ∧ waiting.cb.stat.run = true := by decide

theorem witness_ChecksumIsXorOfAddressBytes :
    State.reset.cb.stat.run = false ∧ (bench Params.ref []).params.hasCksum = true ∧
      (bench Params.ref []).params.opcodePos = .byte0 ∧
      (bench ref7 []).params.hasCksum = true ∧ (bench ref7 []).params.opcodePos = .byte7 := by decide

/-- Both orders on the wire occur (R79's four rows). -/
theorem witness_WireFrameOfBuiltFrame :
    (Params.ref.opcodePos = .byte0 ↔ Params.ref.issueMirror = false) ∧
    (({ ref7 with issueMirror := true } : Params).opcodePos = .byte0 ↔
      ({ ref7 with issueMirror := true } : Params).issueMirror = false) ∧
    (ref7.opcodePos = .byte7 ↔ ref7.issueMirror = false) ∧
    (({ Params.ref with issueMirror := true } : Params).opcodePos = .byte7 ↔
      ({ Params.ref with issueMirror := true } : Params).issueMirror = false) := by decide

theorem witness_BuildersTouchFrameOnly :
    (∃ t, exec (.build 0xC9) State.reset = .next t) ∧ ∃ t, exec (.buildc 0xC5) State.reset = .next t :=
  ⟨⟨_, rfl⟩, ⟨_, rfl⟩⟩

theorem witness_LaunchMakesTenWrites : waiting.cb.ph = .issEn := rfl

/-- WAITRDY whose EN write is made: the launch invariant says what the record then holds. -/
def issuing : State :=
  { running .waitrdy (.issCmd 0) id with trace := [enWrite Config.world.params] }

theorem witness_inv_issuing : Inv issuing := by
  refine ⟨?_, ?_, ?_, ?_, ?_, ?_, ?_⟩
  · decide
  · decide
  · decide
  · rintro (h | h) <;> cases h
  · rintro (h | h) <;> cases h
  · intro k hk; cases hk
  · exact ⟨List.Pairwise.nil, fun _ h => by cases h⟩

theorem witness_LaunchInvariantKept :
    Inv issuing ∧ LaunchInv Config.world.params issuing ∧ ∃ t, step issuing = .next t := by
  refine ⟨witness_inv_issuing, ⟨?_, ?_, ?_⟩, ?_⟩
  · refine ⟨fun f h => ?_, trivial⟩
    injection h with h
    injection h with _ _ hw
    cases hw
  · intro t ht
    obtain rfl : (0 : Fin 8) = t := by injection ht
    exact List.prefix_refl _
  · intro h; cases h
  · rw [step_eq_stepIn, stepIn_nil _ rfl, blockTurn_issCmd (t := 0) _ rfl]
    exact ⟨_, rfl⟩

theorem witness_WaitrdyTurns :
    (running .waitrdy .poll id).cb.opk = .waitrdy ∧ (running .waitrdy .poll id).cb.ph = .poll ∧
      (running .waitrdy .data id).cb.opk = .waitrdy ∧ (running .waitrdy .data id).cb.ph = .data := by
  decide

/-- The three ways READY changes: by reset, by acceptance, by a zero word. -/
theorem witness_ReadySetByZeroWordOnly :
    ((nextOf (stepIn (bench Params.ref []) (given [⟨0, .reset⟩]
      (idleWith fun c => { c with ready := true })))).map (·.cb.ready)) = some false ∧
    ((nextOf (stepIn (bench Params.ref []) (given [opw 3]
      (idleWith fun c => { c with ready := true })))).map (·.cb.ready)) = some false ∧
    ((nextOf (stepIn (bench Params.ref [0]) (running .waitrdy .data id))).map (·.cb.ready))
      = some true := by decide

theorem witness_WaitrdyLeavesBufferAlone :
    (∃ t, blockTurn (bench Params.ref []) waiting = .next t) ∧ waiting.cb.opk = .waitrdy ∧
      ∃ t, exec .waitrdy State.reset = .next t := ⟨⟨_, rfl⟩, rfl, ⟨_, rfl⟩⟩

/-- WAITRDY ends when READY is set and BUSY clear, in a DATA turn and in a POLL turn. -/
theorem witness_WaitrdyEndsOnlyWhenReady :
    Params.ref.pollLimit = none ∧
    ((nextOf (blockTurn (bench Params.ref [0]) (running .waitrdy .data id))).map (·.cb.stat.run))
      = some false ∧
    ((nextOf (blockTurn (bench Params.ref [0])
      (running .waitrdy .poll fun c => { c with ready := true }))).map (·.cb.stat.run))
      = some false ∧
    ((nextOf (blockTurn (bench Params.ref [0]) (running .waitrdy .poll id))).map (·.cb.stat.run))
      = some true := by decide

/-- Of the 82 disjoint one-word buffers at 4, 8, .. 328 one at least holds none of the 81 bytes of the bus
registers and the host block, whatever the configuration: so a transfer with a buffer can be accepted. -/
theorem witness_no_clash (p : Params) :
    ∃ j : Fin 82, bufferClash p (BitVec.ofNat 32 (4 * (j.val + 1))) 1 = false := by
  by_contra hn
  push Not at hn
  have hit : ∀ j : Fin 82, ∃ k : Fin 81,
      inBuffer (BitVec.ofNat 32 (4 * (j.val + 1))) 1 ((p.busBytes ++ p.hostBytes)[k.val]'(by
        simp [Params.busBytes, Params.hostBytes])) = true := by
    intro j
    have h := hn j
    simp only [bufferClash, ne_eq, Bool.not_eq_false, Bool.and_eq_true, List.any_eq_true] at h
    obtain ⟨_, a, ha, hb⟩ := h
    obtain ⟨k, hk, rfl⟩ := List.mem_iff_getElem.1 ha
    exact ⟨⟨k, by simpa [Params.busBytes, Params.hostBytes] using hk⟩, hb⟩
  choose f hf using hit
  obtain ⟨i, j, hij, he⟩ := Fintype.exists_ne_map_eq_of_card_lt f (by simp)
  have hi := hf i
  have hj := hf j
  rw [← he] at hj
  generalize (p.busBytes ++ p.hostBytes)[(f i).val]'_ = a at hi hj
  unfold inBuffer at hi hj
  rw [decide_eq_true_iff] at hi hj
  apply hij
  apply Fin.ext
  have h1 : (1 : Word).toNat = 1 := rfl
  rw [h1, BitVec.toNat_sub, BitVec.toNat_ofNat] at hi hj
  have := a.isLt
  have := i.isLt
  have := j.isLt
  omega

/-- The hypotheses of the two transfers' acceptance, with a buffer of one word. -/
theorem witness_transfers_accepted :
    ∃ s : State, s.cb.stat.run = false ∧ s.cb.wcnt = 1 ∧
      bufferClash Config.params s.cb.buf s.cb.wcnt = false := by
  obtain ⟨j, hj⟩ := witness_no_clash Config.params
  exact ⟨idleWith fun c => { c with buf := BitVec.ofNat 32 (4 * (j.val + 1)), wcnt := 1 }, rfl, rfl, hj⟩

/-- R54(b) at the edges of a buffer: one whose last byte is EN is refused, one that ends just before it is
not; nor is any without a pointer. -/
theorem witness_OverlappingLaunchRefused :
    refusalOf (execIn (bench refOne []) .xferrd
      (idleWith fun c => { c with buf := 0x0400019E, wcnt := 1 })) = some .bufferOverlapsRegisters ∧
    refusalOf (execIn (bench refOne []) .xferwr
      (idleWith fun c => { c with buf := 0x0400019D, wcnt := 1 })) = none ∧
    refusalOf (execIn (bench refOne []) .xferwr
      (idleWith fun c => { c with buf := 0, wcnt := 0xFFFFFFFF })) = none := by decide

theorem witness_PollingOperationsAcceptanceFrame :
    (∃ t, exec .waitrdy State.reset = .next t) ∧ (∃ t, exec .xferrd State.reset = .next t) ∧
      ∃ t, exec .xferwr State.reset = .next t := ⟨⟨_, rfl⟩, ⟨_, rfl⟩, ⟨_, rfl⟩⟩

/-- The clauses of XFERRD's turns, each at a state of its phase, MEM on both paths and at both ends. -/
theorem witness_XferrdTurns :
    (running .xferrd .poll id).cb.opk = .xferrd ∧ (running .xferrd .poll id).cb.ph = .poll ∧
      (running .xferrd .data id).cb.ph = .data ∧
      (running .xferrd (.mem 0) fun c => { c with buf := 4, aln := true }).cb.ph = .mem 0 ∧
      (running .xferrd (.mem 0) fun c => { c with buf := 4, aln := true }).cb.buf.toNat % 4 = 0 ∧
      (running .xferrd (.mem 3) id).cb.ph = .mem 3 ∧
      (running .xferrd (.mem 3) id).cb.aln = false := by decide

/-- The same for XFERWR. -/
theorem witness_XferwrTurns :
    (running .xferwr .poll id).cb.opk = .xferwr ∧ (running .xferwr .poll id).cb.ph = .poll ∧
      (running .xferwr .data id).cb.ph = .data ∧
      (running .xferwr (.mem 0) fun c => { c with buf := 4, aln := true }).cb.ph = .mem 0 ∧
      (running .xferwr (.mem 0) fun c => { c with buf := 4, aln := true }).cb.buf.toNat % 4 = 0 ∧
      (running .xferwr (.mem 3) id).cb.ph = .mem 3 ∧
      (running .xferwr (.mem 3) id).cb.aln = false := by decide

/-- R45, U21: an aligned load is stuck where any byte of its word has no memory, and goes on where the
hole lies just above the word; the host's own access to the hole is refused. -/
theorem test_unbacked_load :
    faultOf (blockTurn (benchHole 0x2003) loading) = some .unbackedMemory ∧
    ((nextOf (blockTurn (benchHole 0x2004) loading)).map (·.cb.ph)) = some .data ∧
    refusalOf (stepIn (benchHole 0x2003) (given [⟨0, .peek 0x2003⟩] loading))
      = some .hostTouchesUnbacked := by decide

/-- R45, U21: a byte store is stuck at the one byte that has no memory, here byte 0 of the slot 0x1005. -/
theorem test_unbacked_store :
    faultOf (stepIn (benchHole 0x1005) storing) = some .unbackedMemory ∧
    ((nextOf (stepIn (benchHole 0x1006) storing)).map (·.cb.ph)) = some (.mem 1) := by decide

theorem witness_StoreWordSameOnBothPaths :
    storing.cb.opk = .xferrd ∧ storing.cb.ph = .mem 0 ∧
      storing.cb.aln = isAligned storing.cb.buf ∧ storing.cb.aln = false ∧
      ∀ j : Fin 4, (bench Params.ref []).backed (slotAddr storing.cb + BitVec.ofNat 32 j.val) = true := by
  decide

theorem witness_LoadWordSameOnBothPaths :
    loading.cb.opk = .xferwr ∧ loading.cb.ph = .mem 0 ∧
      loading.cb.aln = isAligned loading.cb.buf ∧ loading.cb.aln = true ∧
      ∀ j : Fin 4, (bench Params.ref []).backed (slotAddr loading.cb + BitVec.ofNat 32 j.val) = true := by
  decide

theorem witness_NoBufferNoPortM :
    Inv waiting ∧ waiting.cb.wcnt = 0 ∧ waiting.cb.buf = 0 ∧
      ∃ t, blockTurn (bench Params.ref []) waiting = .next t :=
  ⟨witness_inv_waiting, rfl, rfl, ⟨_, rfl⟩⟩

/-- A transfer ended by a sample with BUSY clear, and one ended at the poll bound. -/
theorem witness_TransferEndsOnlyWhenNotBusy :
    Transferring (polling .xferrd).cb ∧ (polling .xferrd).cb.stat.run = true ∧
    ((nextOf (blockTurn (bench refTwo [0]) (polling .xferrd))).map
      (fun t => (t.cb.stat.run, t.cb.stat.done))) = some (false, true) ∧
    ((nextOf (blockTurn (bench refTwo [0x80000000]) (polling .xferrd))).map
      (fun t => (t.cb.stat.run, t.cb.stat.tmo))) = some (false, true) :=
  ⟨.inl rfl, rfl, by decide, by decide⟩

theorem witness_AlignmentDecidedOnce :
    ((nextOf (stepIn (bench Params.ref []) (given [opw 4]
      (idleWith fun c => { c with buf := 3 })))).map (·.cb.aln)) = some false ∧
    ((nextOf (stepIn (bench Params.ref []) (given [opw 5]
      (idleWith fun c => { c with buf := 4 })))).map (·.cb.aln)) = some true := by decide

theorem witness_TurnFrame :
    (∃ t, blockTurn (bench Params.ref []) storing = .next t) ∧ storing.cb.opk = .xferrd ∧
      storing.cb.ph = .mem 0 ∧ ∃ t, blockTurn (bench Params.ref []) waiting = .next t :=
  ⟨⟨_, rfl⟩, rfl, rfl, ⟨_, rfl⟩⟩

theorem witness_XferrdStoresPoppedWordsInOrder :
    (bench Params.ref []).params.Legal ∧ Inv storing ∧ storing.cb.opk = .xferrd ∧
      4 * storing.cb.wcnt.toNat ≤ 2 ^ 32 ∧ ReadInv (bench Params.ref []) storing ∧
      ∃ t, blockTurn (bench Params.ref []) storing = .next t := by
  refine ⟨ref_legal, witness_inv_storing, rfl, by decide, ?_, ⟨_, rfl⟩⟩
  refine ⟨[0x11223344], by decide, ⟨by decide, ?_⟩, fun j hj => absurd hj (Fin.not_lt_zero j)⟩
  intro j hj
  obtain rfl : j = 0 := by
    have h : storing.cb.i.toNat = 1 := rfl
    omega
  decide

theorem witness_XferwrPushesBufferThenFiller :
    (bench Params.ref []).params.Legal ∧ Inv loading ∧ loading.cb.opk = .xferwr ∧
      WriteInv (bench Params.ref []) loading ∧
      ∃ t, blockTurn (bench Params.ref []) loading = .next t := by
  refine ⟨ref_legal, witness_inv_loading, rfl, ?_, ⟨_, rfl⟩⟩
  refine ⟨⟨by decide, fun j hj => ?_⟩, by unfold LastLoaded; decide,
    fun j hj => absurd hj (Fin.not_lt_zero j)⟩
  exact absurd hj (Nat.not_lt_zero j)

/-- V15's last read: N reaches POLL_LIMIT on a busy sample; and a Timeout in DATA of each operation, and
after the last byte of a store. -/
theorem witness_TimeoutEndsOperation :
    (polling .waitrdy).cb.stat.tmo = false ∧
    ((nextOf (stepIn (bench refTwo [0x80000000]) (polling .waitrdy))).map
      (fun t => (t.cb.stat.tmo, t.cb.n))) = some (true, 2) ∧
    (∀ k ∈ [OpKind.waitrdy, .xferrd, .xferwr],
      (nextOf (stepIn (bench refTwo [0]) (running k .data fun c =>
        { c with s := 0x80800000, n := 2 }))).map (·.cb.stat.tmo) = some true) ∧
    (nextOf (stepIn (bench refTwo []) (running .xferrd (.mem 3) fun c =>
      { c with s := 0x80800000, n := 2, buf := 1, wcnt := 1 }))).map
        (fun t => (t.cb.stat.tmo, t.cb.i)) = some (true, 1) := by decide

theorem witness_PollLimitKept :
    Inv waiting ∧ WithinPollLimit Config.world.params waiting.cb ∧ ∃ t, step waiting = .next t := by
  refine ⟨witness_inv_waiting, ?_, ?_⟩
  · intro l hl _
    have h0 : l ≠ 0 := fun h => config_legal.2.2.2.2.2 (h ▸ hl)
    have hn : waiting.cb.n = 0 := rfl
    rw [hn]
    constructor
    · bv_omega
    · intro _ _; bv_omega
  · rw [step_eq_stepIn, stepIn_nil _ rfl, blockTurn_issEn _ rfl]
    exact ⟨_, rfl⟩

/-- The bound counts: with `POLL_LIMIT = 2` a polling block that has made one read is within it, one that
has made two is not. -/
theorem witness_WithinPollLimit :
    WithinPollLimit refTwo (polling .xferrd).cb ∧
      ¬ WithinPollLimit refTwo { (polling .xferrd).cb with n := 2 } := by
  constructor
  · intro l hl _
    obtain rfl : (2 : Word) = l := by injection hl
    exact ⟨by decide, fun _ _ => by decide⟩
  · intro h
    have h2 := (h 2 rfl (by decide)).2 (by decide) (fun k => by simp [polling, running])
    revert h2
    decide

theorem witness_UnboundedOperationNeverGivesUp :
    Inv storing ∧ storing.cb.stat.run = true ∧ Params.ref.pollLimit = none ∧
      ¬ AtUnbackedMemory (bench Params.ref []) storing :=
  ⟨witness_inv_storing, rfl, rfl, fun ⟨_, _, h⟩ => by
    rcases h with ⟨h, _⟩ | ⟨_, h⟩
    · cases h
    · exact absurd h (by simp [bench])⟩

/-- The three ends of a running operation: reset, `complete`, `raise Timeout`. -/
theorem witness_OperationEndsThreeWays :
    ((nextOf (stepIn (bench refTwo []) (given [⟨0, .reset⟩] (polling .xferwr)))).map
      (·.cb.stat.run)) = some false ∧
    ((nextOf (stepIn (bench refTwo [0]) (polling .xferwr))).map (·.cb.stat.run)) = some false ∧
    ((nextOf (stepIn (bench refTwo [0x80000000]) (polling .xferwr))).map (·.cb.stat.run))
      = some false := by decide

/-- R23 at the edge: N stays at 0xFFFFFFFF, and reaches it from 0xFFFFFFFE. -/
theorem witness_PollCounterCountsReads :
    Quiet (polling .xferrd) ∧
    ((nextOf (stepIn (bench Params.ref [0x80000000])
      (running .xferrd .poll fun c => { c with n := 0xFFFFFFFF }))).map (·.cb.n))
        = some 0xFFFFFFFF ∧
    ((nextOf (stepIn (bench Params.ref [0x80000000])
      (running .xferrd .poll fun c => { c with n := 0xFFFFFFFE }))).map (·.cb.n))
        = some 0xFFFFFFFF :=
  ⟨by simp [Quiet, polling, running, State.reset], by decide, by decide⟩

theorem witness_InvariantKept : Inv waiting ∧ ∃ t, step waiting = .next t :=
  ⟨witness_inv_waiting, witness_PollLimitKept.2.2⟩

/-- Both clauses, on both paths: with memory everywhere, and with a hole at the transaction. -/
theorem witness_BlockTurnStopsAtUnbackedMemoryOnly :
    Inv storing ∧ Inv loading ∧ ¬ AtUnbackedMemory (bench Params.ref []) storing ∧
      AtUnbackedMemory (benchHole 0x1005) storing ∧ AtUnbackedMemory (benchHole 0x2003) loading :=
  ⟨witness_inv_storing, witness_inv_loading, witness_UnboundedOperationNeverGivesUp.2.2.2,
    ⟨0, rfl, .inr ⟨rfl, by decide⟩⟩, ⟨0, rfl, .inl ⟨rfl, 3, by decide⟩⟩⟩

/-- Two states that an overrun sets apart. -/
theorem witness_OverrunInvisibleToStep :
    SameButOverrun waiting ((waiting.record (.host ⟨.write, 0x04, .word, 0x1C⟩)).mapCb
      (Cbseq.raise .overrun)) := ⟨rfl, rfl, rfl, rfl⟩

theorem witness_PortTransactionsInBounds :
    Inv storing ∧ (∃ t, stepIn (bench Params.ref []) storing = .next t) ∧
      ∃ t, execIn (bench Params.ref []) .xferrd State.reset = .next t :=
  ⟨witness_inv_storing, ⟨_, rfl⟩, ⟨_, rfl⟩⟩

/-- R54(c) at the edges of the host block of a platform whose spaces are one. -/
theorem witness_HostMemoryAccess :
    isRegisterByte Params.ref 0x80000000 = false ∧ isRegisterByte refOne 0x80000000 = true ∧
      isRegisterByte refOne 0x8000003F = true ∧ isRegisterByte refOne 0x80000040 = false ∧
      (benchHole 0x80000040).backed 0x80000040 = false ∧
      (benchHole 0x80000040).backed 0x80000041 = true := by decide

end Sys2Proof.Tests
end

section
/-!
PROOFS. The scope (spec/00_scope.md R5 to R7): the machine's step is the step of any world at a legal
configuration, and the host's own accesses to the buffer memory.
-/

namespace Sys2Proof.Machine

/-! ### What the host's own access to a byte of memory answers -/

/-- R54(c): a byte of a register is no memory of the host's. -/
theorem hostOwn_register {w : World} {a : Word} (h : isRegisterByte w.params a = true) (r : Res) :
    hostOwn w a r = .refused .hostTouchesRegisters := by
  unfold hostOwn; exact if_pos h

theorem hostOwn_backed {w : World} {a : Word} (h : isRegisterByte w.params a = false)
    (hb : w.backed a = true) (r : Res) : hostOwn w a r = r := by
  unfold hostOwn; rw [if_neg (by simp [h]), if_pos hb]

/-- Log entry 10: where the platform has no memory there is nothing of the host's to access. -/
theorem hostOwn_unbacked {w : World} {a : Word} (h : isRegisterByte w.params a = false)
    (hb : w.backed a = false) (r : Res) : hostOwn w a r = .refused .hostTouchesUnbacked := by
  unfold hostOwn; rw [if_neg (by simp [h]), if_neg (by simp [hb])]

/-! ### The step that delivers such an access -/

theorem stepIn_poke (w : World) {s : State} {a : Word} {b : Byte} {ps : List Pending}
    (h : s.inputs = ⟨0, .poke a b⟩ :: ps) :
    stepIn w s = hostOwn w a (.next (((s.setInputs ps).setMem (storeByte s.mem a b)).record
      (.own ⟨.write, a, .byte, byteValue b⟩))) :=
  stepIn_due w h

theorem stepIn_peek (w : World) {s : State} {a : Word} {ps : List Pending}
    (h : s.inputs = ⟨0, .peek a⟩ :: ps) :
    stepIn w s = hostOwn w a (.next ((s.setInputs ps).record
      (.own ⟨.read, a, .byte, byteValue (memByte w s.mem a)⟩))) :=
  stepIn_due w h

/-- A due access of the host to memory, write or read, passes the guard of its address. -/
theorem stepIn_ownAccess (w : World) {s : State} {a : Word} {b : Byte} {ps : List Pending}
    (h : s.inputs = ⟨0, .poke a b⟩ :: ps ∨ s.inputs = ⟨0, .peek a⟩ :: ps) :
    ∃ r, stepIn w s = hostOwn w a r := by
  rcases h with hpoke | hpeek
  · exact ⟨_, stepIn_poke w hpoke⟩
  · exact ⟨_, stepIn_peek w hpeek⟩

/-! ### The obligations -/

/-- Settles O5, by the legality of the drawn configuration and the agreement of the arms of `exec` and
`execIn`. -/
theorem stepIsTheAnyWorldStep : Obligations.StepIsTheAnyWorldStep :=
  ⟨config_legal, exec_eq_execIn, step_eq_stepIn⟩

/-- Settles O57, by the three answers of `hostOwn` and, for the byte written, the read after a store. -/
theorem hostMemoryAccess : Obligations.HostMemoryAccess := by
  intro w s a b ps
  refine ⟨fun hreg hback => ⟨fun hpoke => ?_, fun hpeek => ?_⟩, fun hreg hin => ?_,
    fun hreg hback hin => ?_⟩
  · have hstep := (stepIn_poke w hpoke).trans (hostOwn_backed hreg hback _)
    exact ⟨_, hstep, rfl, rfl, blockTrace_cons_own _ _, fun c => memByte_storeByte w s.mem a c b⟩
  · exact (stepIn_peek w hpeek).trans (hostOwn_backed hreg hback _)
  · obtain ⟨r, hstep⟩ := stepIn_ownAccess w hin
    exact hstep.trans (hostOwn_register hreg r)
  · obtain ⟨r, hstep⟩ := stepIn_ownAccess w hin
    exact hstep.trans (hostOwn_unbacked hreg hback r)

end Sys2Proof.Machine
end

section
/-!
PROOFS. The machine's invariant (spec/10_state.md R14, R20 to R22, R32, R33): its part about the
registers, kept by each way a turn can go on and by each input, and its part about memory.
-/

namespace Sys2Proof.Machine

open Sys2Proof.Safety

/-! ### The invariant of the registers -/

/-- What `Inv` says of the registers alone: `Inv` with nothing in memory, record and inputs. -/
def RegInv (c : Cbseq) : Prop := Inv ⟨c, [], [], []⟩

theorem inv_iff {s : State} : Inv s ↔ RegInv s.cb ∧ memWf s.mem :=
  ⟨fun h => ⟨⟨h.run_iff, h.opk_iff, h.done_clear, h.aln_eq, h.i_le, h.mem_slot,
      ⟨List.Pairwise.nil, nofun⟩⟩, h.mem_wf⟩,
    fun ⟨h, hm⟩ => ⟨h.run_iff, h.opk_iff, h.done_clear, h.aln_eq, h.i_le, h.mem_slot, hm⟩⟩

/-- The part of the invariant that a running operation keeps whatever its phase. -/
structure Live (c : Cbseq) : Prop where
  run : c.stat.run = true
  done : c.stat.done = false
  opk : c.opk ≠ .none
  aln : Transferring c → c.aln = isAligned c.buf
  i_le : Transferring c → c.i ≤ c.wcnt

/-- The registers of an idle block meet the invariant, whatever else they hold. -/
theorem regInv_of_rest {c : Cbseq} (hr : c.stat.run = false) (hk : c.opk = .none)
    (hp : c.ph = .idle) : RegInv c where
  run_iff := by simp [hr, hp]
  opk_iff := by simp [hk, hp]
  done_clear h := by simp [hr] at h
  aln_eq h := by simp [Transferring, hk] at h
  i_le h := by simp [Transferring, hk] at h
  mem_slot k h := by simp [hp] at h
  mem_wf := ⟨List.Pairwise.nil, nofun⟩

theorem RegInv.live {c : Cbseq} (h : RegInv c) (hp : c.ph ≠ .idle) : Live c where
  run := h.run_iff.2 hp
  done := h.done_clear (h.run_iff.2 hp)
  opk := fun hk => hp (h.opk_iff.1 hk)
  aln := h.aln_eq
  i_le := h.i_le

theorem RegInv.rest {c : Cbseq} (h : RegInv c) (hr : c.stat.run = false) :
    c.opk = .none ∧ c.ph = .idle := by
  have hp : c.ph = .idle := by
    by_contra hp
    exact absurd (h.run_iff.2 hp) (by simp [hr])
  exact ⟨h.opk_iff.2 hp, hp⟩

/-- In phase MEM the registers of a running transfer meet the invariant where there is a slot. -/
theorem Live.regInv_mem {c : Cbseq} (h : Live c) (k : Fin 4) (ht : Transferring c)
    (hs : hasSlot c = true) (ha : k ≠ 0 → c.aln = false) : RegInv (c.goto (.mem k)) where
  run_iff := by simp [h.run]
  opk_iff := by simp [h.opk]
  done_clear _ := h.done
  aln_eq := h.aln
  i_le := h.i_le
  mem_slot j hj := by
    obtain rfl : k = j := by injection hj
    exact ⟨ht, hs, ha⟩
  mem_wf := ⟨List.Pairwise.nil, nofun⟩

theorem Live.regInv_goto {c : Cbseq} (h : Live c) {p : Phase} (hp : p ≠ .idle)
    (hm : ∀ k, p ≠ .mem k) : RegInv (c.goto p) where
  run_iff := by simp [h.run, hp]
  opk_iff := by simp [h.opk, hp]
  done_clear _ := h.done
  aln_eq := h.aln
  i_le := h.i_le
  mem_slot k hk := absurd hk (hm k)
  mem_wf := ⟨List.Pairwise.nil, nofun⟩

/-- The scratch registers, N and READY are free while an operation runs. -/
theorem Live.scratch {c : Cbseq} (h : Live c) (n s v last : Word) (ready : Bool) :
    Live { c with n := n, s := s, w := v, last := last, ready := ready } :=
  ⟨h.run, h.done, h.opk, h.aln, h.i_le⟩

theorem Live.sample {c : Cbseq} (h : Live c) (v : Word) : Live (c.sample v) :=
  h.scratch (countPoll c.n) v c.w c.last c.ready

/-- HasSlot in numbers (R133). -/
theorem hasSlot_iff {c : Cbseq} :
    hasSlot c = true ↔ c.buf ≠ 0 ∧ c.i.toNat < c.wcnt.toNat := by
  simp [hasSlot, BitVec.ult]

/-- Moving the word of a slot that exists keeps `I <= WCNT` (R22). -/
theorem Live.countWord {c : Cbseq} (h : Live c) (hs : hasSlot c = true) : Live c.countWord where
  run := h.run
  done := h.done
  opk := h.opk
  aln := h.aln
  i_le _ := by
    obtain ⟨_, hi⟩ := hasSlot_iff.1 hs
    simp only [Cbseq.countWord_i, Cbseq.countWord_wcnt]
    bv_omega

/-! ### The loop decisions keep the invariant -/

theorem complete_regInv (c : Cbseq) : RegInv c.complete := regInv_of_rest rfl rfl rfl

theorem Live.boundThen {c : Cbseq} (h : Live c) (p : Params) {x : Phase} (hx : x ≠ .idle)
    (hm : ∀ k, x ≠ .mem k) : RegInv (c.boundThen p x) := by
  unfold Cbseq.boundThen
  split
  · exact regInv_of_rest rfl rfl rfl
  · exact h.regInv_goto hx hm

theorem Live.waitDecision {c : Cbseq} (h : Live c) (p : Params) : RegInv (waitDecision p c) := by
  unfold Machine.waitDecision
  split
  · exact h.boundThen p nofun nofun
  · split
    · exact complete_regInv c
    · exact h.boundThen p nofun nofun

theorem Live.transferDecision {c : Cbseq} (h : Live c) (p : Params) :
    RegInv (transferDecision p c) := by
  unfold Machine.transferDecision
  split
  · exact h.boundThen p nofun nofun
  · exact complete_regInv c

theorem Live.takeWord {c : Cbseq} (h : Live c) (ht : Transferring c) (p : Params) (v : Word) :
    RegInv (takeWord p v c) := by
  have hw : Live { c with w := v } := h.scratch _ _ v _ _
  unfold Machine.takeWord
  split
  · next hs => exact hw.regInv_mem 0 ht hs (absurd rfl)
  · exact hw.transferDecision p

theorem Live.chooseWord {c : Cbseq} (h : Live c) (ht : Transferring c) (p : Params) :
    RegInv (chooseWord p c) := by
  unfold Machine.chooseWord
  split
  · next hs => exact h.regInv_mem 0 ht hs (absurd rfl)
  · exact (h.scratch _ _ (filler p c) _ _).regInv_goto nofun nofun

theorem Live.afterStore {c : Cbseq} (h : Live c) (hs : hasSlot c = true) (p : Params) :
    RegInv (afterStore p c) := (h.countWord hs).transferDecision p

theorem Live.afterStoreByte {c : Cbseq} (h : Live c) (ht : Transferring c) (hs : hasSlot c = true)
    (ha : c.aln = false) (p : Params) (k : Fin 4) : RegInv (afterStoreByte p k c) := by
  unfold Machine.afterStoreByte
  split
  · exact h.regInv_mem _ ht hs fun _ => ha
  · exact h.afterStore hs p

theorem Live.loaded {c : Cbseq} (h : Live c) (hs : hasSlot c = true) : RegInv c.loaded :=
  ((h.countWord hs).scratch _ _ _ c.w _).regInv_goto nofun nofun

theorem Live.afterLoadByte {c : Cbseq} (h : Live c) (ht : Transferring c) (hs : hasSlot c = true)
    (ha : c.aln = false) (k : Fin 4) (b : Byte) : RegInv (afterLoadByte k b c) := by
  have hw : Live { c with w := setByte c.w k b } := h.scratch _ _ _ _ _
  unfold Machine.afterLoadByte
  split
  · exact hw.regInv_mem _ ht hs fun _ => ha
  · exact hw.loaded hs

/-! ### A turn keeps the invariant -/

theorem Turned.memWf {w : World} {s t : State} (h : Turned w s t) (hm : memWf s.mem) :
    memWf t.mem := by
  cases h with
  | storeWord k hp hk ha hs hb => exact memWf_storeWord hm _ _
  | storeByte k hp hk ha hb => exact memWf_storeByte hm _ _
  | _ => exact hm

theorem Turned.regInv {w : World} {s t : State} (h : Turned w s t) (hi : RegInv s.cb) :
    RegInv t.cb := by
  cases h with
  | idle hp => exact hi
  | issEn hp => exact (hi.live (by simp [hp])).regInv_goto nofun nofun
  | issCmd i hp =>
    have hl := hi.live (by simp [hp])
    simp only [State.mapCb_cb, State.record_cb, afterIssue]
    split <;> exact hl.regInv_goto nofun nofun
  | start hp => exact (hi.live (by simp [hp])).regInv_goto nofun nofun
  | waitPoll hp hk =>
    have hl := (hi.live (by simp [hp])).sample (busAnswer w s w.params.ctrlAddr)
    simp only [State.mapCb_cb, State.record_cb]
    split
    · exact hl.regInv_goto nofun nofun
    · exact hl.waitDecision w.params
  | readPoll hp hk =>
    have hl := (hi.live (by simp [hp])).sample (busAnswer w s w.params.ctrlAddr)
    simp only [State.mapCb_cb, State.record_cb]
    split
    · exact hl.regInv_goto nofun nofun
    · exact hl.transferDecision w.params
  | writePoll hp hk =>
    have hl := (hi.live (by simp [hp])).sample (busAnswer w s w.params.ctrlAddr)
    simp only [State.mapCb_cb, State.record_cb]
    split
    · exact hl.chooseWord (.inr hk) w.params
    · exact hl.transferDecision w.params
  | waitData hp hk =>
    exact ((hi.live (by simp [hp])).scratch _ _ _ _ _).waitDecision w.params
  | readData hp hk => exact (hi.live (by simp [hp])).takeWord (.inl hk) _ _
  | writeData hp hk => exact (hi.live (by simp [hp])).transferDecision _
  | storeWord k hp hk ha hs hb =>
    obtain ⟨-, hslot, -⟩ := hi.mem_slot k hp
    exact (hi.live (by simp [hp])).afterStore hslot _
  | storeByte k hp hk ha hb =>
    obtain ⟨ht, hslot, -⟩ := hi.mem_slot k hp
    exact (hi.live (by simp [hp])).afterStoreByte ht hslot ha _ k
  | loadWord k hp hk ha hs hb =>
    obtain ⟨-, hslot, -⟩ := hi.mem_slot k hp
    exact ((hi.live (by simp [hp])).scratch _ _ _ _ _).loaded hslot
  | loadByte k hp hk ha hb =>
    obtain ⟨ht, hslot, -⟩ := hi.mem_slot k hp
    exact (hi.live (by simp [hp])).afterLoadByte ht hslot ha k _

/-! ### An input keeps the invariant -/

theorem RegInv.raise_illegal {c : Cbseq} (h : RegInv c) : RegInv (c.raise .illegal) :=
  ⟨h.run_iff, h.opk_iff, h.done_clear, h.aln_eq, h.i_le, h.mem_slot, h.mem_wf⟩

theorem RegInv.raise_overrun {c : Cbseq} (h : RegInv c) : RegInv (c.raise .overrun) :=
  ⟨h.run_iff, h.opk_iff, h.done_clear, h.aln_eq, h.i_le, h.mem_slot, h.mem_wf⟩

@[simp] theorem writeReg_run (off v : Word) (c : Cbseq) :
    (writeReg off v c).stat.run = c.stat.run := by
  unfold writeReg; split <;> rfl
@[simp] theorem writeReg_opk (off v : Word) (c : Cbseq) : (writeReg off v c).opk = c.opk := by
  unfold writeReg; split <;> rfl
@[simp] theorem writeReg_ph (off v : Word) (c : Cbseq) : (writeReg off v c).ph = c.ph := by
  unfold writeReg; split <;> rfl

theorem RegInv.writeReg {c : Cbseq} (h : RegInv c) (hr : c.stat.run = false) (off v : Word) :
    RegInv (writeReg off v c) := by
  obtain ⟨hk, hp⟩ := h.rest hr
  exact regInv_of_rest (by simp [hr]) (by simp [hk]) (by simp [hp])

/-- A transfer starts with `I = 0` and the ALN that its buffer pointer decides (R133, R135). -/
theorem beginTransfer_live (i : Instr) {k : OpKind} (hk : k ≠ .none) (c : Cbseq) :
    Live (beginTransfer i k c) := ⟨rfl, rfl, hk, fun _ => rfl, fun _ => Nat.zero_le _⟩

theorem beginWaitrdy_live (c : Cbseq) : Live (beginWaitrdy c) := by
  have ht : ¬ Transferring (beginWaitrdy c) := by simp [Transferring, beginWaitrdy]
  exact ⟨rfl, rfl, nofun, fun h => absurd h ht, fun h => absurd h ht⟩

theorem Accepted.regInv {w : World} {s t : State} {i : Instr} (h : Accepted w s i t)
    (hi : RegInv s.cb) : RegInv t.cb := by
  cases h with
  | build cc => exact complete_regInv _
  | buildc cc hc => exact complete_regInv _
  | illegal cc hc => exact hi.raise_illegal
  | waitrdy => exact (beginWaitrdy_live s.cb).regInv_goto (p := .issEn) nofun nofun
  | xferrd hb =>
    exact (beginTransfer_live .xferrd (k := .xferrd) nofun s.cb).regInv_goto
      (p := .issEn) nofun nofun
  | xferwr hb =>
    exact ((beginTransfer_live .xferwr (k := .xferwr) nofun s.cb).scratch _ _ _ 0 _).regInv_goto
      (p := .issEn) nofun nofun

theorem Accepted.mem {w : World} {s t : State} {i : Instr} (h : Accepted w s i t) :
    t.mem = s.mem := by
  cases h <;> rfl

@[simp] theorem syncRead_cb (s : State) : (syncRead s).cb = s.cb := by
  unfold syncRead; dsimp only; split <;> rfl
@[simp] theorem syncRead_mem (s : State) : (syncRead s).mem = s.mem := by
  unfold syncRead; dsimp only; split <;> rfl

theorem Delivered.inv {w : World} {s t : State} {x : Input} (h : Delivered w s x t)
    (hi : Inv s) : Inv t := by
  obtain ⟨hc, hm⟩ := inv_iff.1 hi
  cases h with
  | overrun off v hr => exact inv_iff.2 ⟨hc.raise_overrun, hm⟩
  | reject v r hr hd => exact inv_iff.2 ⟨hc.raise_illegal, hm⟩
  | accept v i _ hr hd ha => exact inv_iff.2 ⟨ha.regInv hc, ha.mem ▸ hm⟩
  | reg off v hr h0 => exact inv_iff.2 ⟨hc.writeReg hr off v, hm⟩
  | read off => exact inv_iff.2 ⟨hc, hm⟩
  | sync => exact inv_iff.2 ⟨by simpa using hc, by simpa using hm⟩
  | poke a b hr hb => exact inv_iff.2 ⟨hc, memWf_storeByte hm a b⟩
  | peek a hr hb => exact inv_iff.2 ⟨hc, hm⟩
  | reset => exact inv_iff.2 ⟨regInv_of_rest rfl rfl rfl, hm⟩

/-- Every step in any world keeps the invariant. -/
theorem stepIn_inv {w : World} {s t : State} (hi : Inv s) (h : stepIn w s = .next t) : Inv t := by
  obtain ⟨hc, hm⟩ := inv_iff.1 hi
  rcases stepIn_next h with ⟨_, ht⟩ | ⟨x, ps, _, hd⟩
  · exact inv_iff.2 ⟨ht.regInv hc, ht.memWf hm⟩
  · exact hd.inv (inv_iff.2 ⟨hc, hm⟩)

/-- Settles O53: each way a turn or an input can go keeps the registers' part and the memory's. -/
theorem invariantKept : Obligations.InvariantKept := fun s _ hi h =>
  stepIn_inv hi (step_eq_stepIn s ▸ h)

/-- Settles O52: at reset the block is idle and memory is empty. -/
theorem invariantAtReset : Obligations.InvariantAtReset :=
  inv_iff.2 ⟨regInv_of_rest rfl rfl rfl, List.Pairwise.nil, nofun⟩

end Sys2Proof.Machine
end

section
/-!
PROOFS. Whose turn it is and the host port (spec/10_state.md R10 to R14): reads, writes, the
acceptance of an operation word, reset.
-/

namespace Sys2Proof.Machine

open Sys2Proof.Safety

/-! ### The operation word -/

/-- A word that selects an operation is the word of that operation (R70, R71). -/
theorem eq_encode_of_decode {v : Word} {i : Instr} (h : decode v = .ok i) : v = encode i := by
  have word : ∀ {fn : Byte}, reservedField v = 0 → fnField v = fn →
      v = opWord (cmdopField v) fn := by
    rintro fn hres rfl
    exact (opWord_of_fields hres).symm
  have plain : ∀ {fn : Byte} {j : Instr}, reservedField v = 0 → fnField v = fn →
      withoutCmdop v j = .ok i → j = i ∧ v = opWord 0 fn := by
    intro fn j hres hfn hj
    unfold withoutCmdop at hj
    split at hj
    · next hcc => exact ⟨by injection hj, hcc ▸ word hres hfn⟩
    · cases hj
  unfold decode at h
  split at h
  · cases h
  · next hres =>
    have hres : reservedField v = 0 := not_not.1 hres
    split at h
    · next hfn => cases h; exact word hres hfn
    · split at h
      · next hfn => cases h; exact word hres hfn
      · split at h
        · next hfn => obtain ⟨rfl, hv⟩ := plain hres hfn h; exact hv
        · split at h
          · next hfn => obtain ⟨rfl, hv⟩ := plain hres hfn h; exact hv
          · split at h
            · next hfn => obtain ⟨rfl, hv⟩ := plain hres hfn h; exact hv
            · cases h

theorem legalWord_of_decode {v : Word} {i : Instr} (h : decode v = .ok i) (p : Params) :
    legalWord p v = i.wellFormed p := by
  simp only [legalWord, h]

theorem legalWord_of_reject {v : Word} {r : Reject} (h : decode v = .error r) (p : Params) :
    legalWord p v = false := by
  simp only [legalWord, h]

/-! ### The map of the host block, offset by offset -/

/-- An offset is reserved or that of a register with a name (R10). -/
theorem hostReg_reserved_or_eq (off : Word) :
    hostReg off = .reserved ∨ ∃ r, off = hostOffset r := by
  suffices h : hostReg off = .reserved ∨ off = hostOffset (hostReg off) from
    h.imp_right fun h => ⟨_, h⟩
  unfold hostReg
  iterate 10
    refine iteInduction (motive := fun r => r = HostReg.reserved ∨ off = hostOffset r) ?_
      fun _ => ?_
    · exact .inr
  exact .inl rfl

theorem hostReg_hostOffset (r : HostReg) : hostReg (hostOffset r) = r := by
  cases r <;> rfl

/-- A reserved offset is none of the offsets that R10 gives to a register. -/
theorem ne_of_hostReg_reserved {off : Word} (h : hostReg off = .reserved) :
    off ≠ 0x00 ∧ off ≠ 0x04 ∧ off ≠ 0x08 ∧ off ≠ 0x0C ∧ off ≠ 0x10 ∧ off ≠ 0x14 ∧ off ≠ 0x18 ∧
      off ≠ 0x1C ∧ off ≠ 0x20 ∧ off ≠ 0x24 := by
  have hne : ∀ r ≠ HostReg.reserved, off ≠ hostOffset r := by
    rintro r hr rfl
    exact hr ((hostReg_hostOffset r).symm.trans h)
  exact ⟨hne .op nofun, hne .stat nofun, hne .addr nofun, hne .flags nofun, hne .buf nofun,
    hne .wcnt nofun, hne .frameLo nofun, hne .frameHi nofun, hne .xcnt nofun, hne .pcnt nofun⟩

/-- The value of a host read (R11) by its offset. -/
theorem hostReadValue_eq (c : Cbseq) (off : Word) :
    hostReadValue c off =
      if off = 0x00 then c.op else if off = 0x04 then Stat.toWord c.stat
      else if off = 0x08 then c.addr else if off = 0x0C then c.flags
      else if off = 0x10 then c.buf else if off = 0x14 then c.wcnt
      else if off = 0x18 then c.frame[3] ++ c.frame[2] ++ c.frame[1] ++ c.frame[0]
      else if off = 0x1C then c.frame[7] ++ c.frame[6] ++ c.frame[5] ++ c.frame[4]
      else if off = 0x20 then c.i else if off = 0x24 then c.n else 0 := by
  rcases hostReg_reserved_or_eq off with h | ⟨r, rfl⟩
  · simp only [hostReadValue, h, ne_of_hostReg_reserved h, if_false]
  · cases r <;> rfl

/-! ### The step that delivers a host transaction -/

/-- A due host write of an aligned word inside the block passes R10's check. -/
theorem stepIn_write (w : World) {s : State} {off v : Word} {ps : List Pending}
    (h : s.inputs = ⟨0, .write off .word v⟩ :: ps) (h4 : off.toNat % 4 = 0)
    (h40 : off.toNat < 0x40) :
    stepIn w s = hostWrite (execIn w) off v
      ((s.setInputs ps).record (.host ⟨.write, off, .word, v⟩)) :=
  (stepIn_due w h).trans (if_pos (isHostAccess_word h4 h40))

theorem stepIn_read (w : World) {s : State} {off : Word} {ps : List Pending}
    (h : s.inputs = ⟨0, .read off .word⟩ :: ps) (h4 : off.toNat % 4 = 0)
    (h40 : off.toNat < 0x40) : stepIn w s = .next (hostRead off (s.setInputs ps)) :=
  (stepIn_due w h).trans (if_pos (isHostAccess_word h4 h40))

theorem stepIn_reset (w : World) {s : State} {ps : List Pending}
    (h : s.inputs = ⟨0, .reset⟩ :: ps) : stepIn w s = .next (resetBlock (s.setInputs ps)) :=
  stepIn_due w h

theorem isHostAccess_eq_false {off : Word} {width : Width}
    (h : width ≠ .word ∨ off.toNat % 4 ≠ 0 ∨ 0x40 ≤ off.toNat) :
    isHostAccess off width = false := by
  rcases h with hw | h4 | h40
  · simp [isHostAccess, hw]
  · simp [isHostAccess, h4]
  · simp [isHostAccess, Nat.not_lt.2 h40]

/-! ### What the operations leave in OP, DONE and RUN when they are accepted -/

theorem Accepted.op {w : World} {s t : State} {i : Instr} (h : Accepted w s i t)
    (hl : i.wellFormed w.params = true) : t.cb.op = encode i := by
  cases h with
  | illegal cc hc => simp [Instr.wellFormed, hc] at hl
  | _ => rfl

/-- The builders are complete in the step of their acceptance (R95), the others begin to run. -/
theorem Accepted.done_run {w : World} {s t : State} {i : Instr} (h : Accepted w s i t)
    (hl : i.wellFormed w.params = true) :
    (t.cb.stat.done = true ∧ t.cb.stat.run = false ∧ ∃ cc, i = .build cc ∨ i = .buildc cc) ∨
      (t.cb.stat.done = false ∧ t.cb.stat.run = true ∧ ¬ ∃ cc, i = .build cc ∨ i = .buildc cc) := by
  cases h with
  | illegal cc hc => simp [Instr.wellFormed, hc] at hl
  | build cc => exact .inl ⟨rfl, rfl, cc, .inl rfl⟩
  | buildc cc hc => exact .inl ⟨rfl, rfl, cc, .inr rfl⟩
  | waitrdy => exact .inr ⟨rfl, rfl, by simp⟩
  | xferrd hb => exact .inr ⟨rfl, rfl, by simp⟩
  | xferwr hb => exact .inr ⟨rfl, rfl, by simp⟩

/-- FN tells the builders from the polling operations (R71). -/
theorem fnField_encode_iff (i : Instr) :
    fnField (encode i) = 0x01 ∨ fnField (encode i) = 0x02 ↔ ∃ cc, i = .build cc ∨ i = .buildc cc := by
  cases i with
  | build cc => simp [encode, (opWord_fields cc _).1]
  | buildc cc => simp [encode, (opWord_fields cc _).1]
  | _ => exact iff_of_false (by decide) (by simp)

/-- A due write of a legal word with RUN = 0 is the acceptance of its operation. -/
theorem Delivered.accepted {w : World} {s t : State} {v : Word}
    (h : Delivered w s (.write 0x00 .word v) t) (hr : s.cb.stat.run = false)
    (hl : legalWord w.params v = true) :
    ∃ i, decode v = .ok i ∧ Accepted w (s.record (.host ⟨.write, 0x00, .word, v⟩)) i t := by
  cases h with
  | overrun _ _ hr' => simp [hr] at hr'
  | reject _ r _ hd => simp [legalWord_of_reject hd] at hl
  | accept _ i _ _ hd ha => exact ⟨i, hd, ha⟩
  | reg _ _ _ h0 => exact absurd rfl h0

/-! ### The obligations of the host port -/

/-- Settles O6: a due write to OP with RUN = 0 goes to `writeOp`, whose decoder selects `i`. -/
theorem stepRunsDecodedOperation : Obligations.StepRunsDecodedOperation := by
  intro s v i ps hin hr hd
  rw [step_eq_stepIn, exec_eq_execIn, stepIn_write Config.world hin rfl (by decide),
    hostWrite_op (by exact hr)]
  simp only [writeOp, hd]
  rfl

/-- Settles O7: the step of a quiet state, at the machine's own world. -/
theorem stepTakesBlockTurn : Obligations.StepTakesBlockTurn := fun s hq =>
  (step_eq_stepIn s).trans (stepIn_quiet Config.world hq)

/-- Settles O8, by induction on the number of steps. -/
theorem idleBlockStaysIdle : Obligations.IdleBlockStaysIdle := by
  intro w k s hp hin
  have hstep : stepIn w s = .next s := (stepIn_nil w hin).trans (blockTurn_idle w hp)
  induction k with
  | zero => rfl
  | succ k ih => simp only [runIn, hstep, ih]

/-- Settles O9: the register that `hostReg` names at each offset. -/
theorem hostReadReturnsRegister : Obligations.HostReadReturnsRegister := by
  intro w s off ps hin h4 h40
  rw [stepIn_read w hin h4 h40, hostRead, hostReadValue_eq]
  rfl

/-- Settles O10, bit by bit. -/
theorem statusWordBits : Obligations.StatusWordBits := by
  intro t k
  simp only [Stat.toWord, BitVec.getLsbD_append, BitVec.getLsbD_ofBool, BitVec.getLsbD_zero]
  match k with
  | 0 | 1 | 2 | 3 | 4 => simp
  | k + 5 => simp

/-- Settles O11: with RUN = 1 Overrun; with RUN = 0 `writeOp` at OP, `writeReg` elsewhere. -/
theorem hostWriteEffects : Obligations.HostWriteEffects := by
  intro w s off v ps hin h4 h40 s'
  rw [stepIn_write w hin h4 h40]
  by_cases hr : s.cb.stat.run = true
  · rw [hostWrite_running (by exact hr), if_pos hr]
    rfl
  · have hrun : s.cb.stat.run = false := by simpa using hr
    rw [if_neg hr]
    by_cases h0 : off = 0x00
    · subst h0
      rw [hostWrite_op (by exact hrun), if_pos rfl]
      rfl
    · rw [hostWrite_reg (by exact hrun) h0]
      rcases hostReg_reserved_or_eq off with h | ⟨r, rfl⟩
      · simp only [State.mapCb, writeReg, h, ne_of_hostReg_reserved h, if_false]
        rfl
      · cases r with
        | op => exact absurd rfl h0
        | _ => rfl

/-- Settles O12: the check of R10 comes first. -/
theorem badHostTransactionRefused : Obligations.BadHostTransactionRefused := by
  intro w s off v width ps hbad
  have hno : ¬ isHostAccess off width = true := by simp [isHostAccess_eq_false hbad]
  exact ⟨fun hin => (stepIn_due w hin).trans (if_neg hno),
    fun hin => (stepIn_due w hin).trans (if_neg hno)⟩

/-- Settles O15: the word accepted is the word of its operation, and FN tells the builders. -/
theorem acceptedWordStored : Obligations.AcceptedWordStored := by
  intro w s t v ps hin hr hl hstep
  rw [stepIn_due w hin] at hstep
  obtain ⟨i, hd, ha⟩ := (deliver_next hstep).accepted hr hl
  have hwf : i.wellFormed w.params = true := legalWord_of_decode hd w.params ▸ hl
  obtain rfl := eq_encode_of_decode hd
  refine ⟨ha.op hwf, Iff.trans ?_ (fnField_encode_iff i).symm, ?_⟩
  · rcases ha.done_run hwf with ⟨hdone, _, hi⟩ | ⟨hdone, _, hi⟩
    · exact iff_of_true hdone hi
    · exact iff_of_false (by simp [hdone]) hi
  · rcases ha.done_run hwf with ⟨hdone, hrun, _⟩ | ⟨hdone, hrun, _⟩
    · simp [hdone, hrun]
    · simp [hdone, hrun]

/-- Settles O17: reset answers always, with the registers of `Cbseq.reset`. -/
theorem resetRestoresRegisters : Obligations.ResetRestoresRegisters := by
  refine ⟨fun w s t ps hin hstep => ?_, fun w s ps hin => ⟨_, stepIn_reset w hin⟩, ?_⟩
  · rw [stepIn_reset w hin] at hstep
    cases hstep
    exact ⟨rfl, rfl, rfl⟩
  · decide

end Sys2Proof.Machine
end

section
/-!
PROOFS. What a turn of CBSEQ writes, register by register, and what a step therefore leaves alone
(spec/10_state.md R19 to R23, R31 to R33).
-/

namespace Sys2Proof.Machine

open Sys2Proof.Safety

/-! ### How a turn goes on after its transaction -/

/-- With the registers at `b` after its transaction, a turn goes to a phase, or ends the operation by
`complete` (R21), or ends it by Timeout at the poll bound (R111, R181). -/
inductive Steered (p : Params) (b : Cbseq) : Cbseq → Prop
  | goto (x : Phase) : Steered p b (b.goto x)
  | complete : Steered p b b.complete
  | timeout (h : p.pollLimit = some b.n) : Steered p b (b.raise .timeout)

theorem boundThen_eq (p : Params) (x : Phase) (c : Cbseq) :
    c.boundThen p x = if p.pollLimit = some c.n then c.raise .timeout else c.goto x := by
  simp [Cbseq.boundThen, boundReached]

theorem boundThen_steered (p : Params) (x : Phase) (c : Cbseq) : Steered p c (c.boundThen p x) := by
  rw [boundThen_eq]
  split
  · next h => exact .timeout h
  · exact .goto x

theorem waitDecision_steered (p : Params) (c : Cbseq) : Steered p c (waitDecision p c) := by
  unfold waitDecision
  split
  · exact boundThen_steered p _ c
  · split
    · exact .complete
    · exact boundThen_steered p _ c

theorem transferDecision_steered (p : Params) (c : Cbseq) : Steered p c (transferDecision p c) := by
  unfold transferDecision
  split
  · exact boundThen_steered p _ c
  · exact .complete

theorem takeWord_steered (p : Params) (v : Word) (c : Cbseq) :
    Steered p { c with w := v } (takeWord p v c) := by
  unfold takeWord
  split
  · exact .goto (.mem 0)
  · exact transferDecision_steered p _

theorem chooseWord_steered (p : Params) (c : Cbseq) :
    ∃ v, Steered p { c with w := v } (chooseWord p c) := by
  unfold chooseWord
  split
  · exact ⟨c.w, .goto (.mem 0)⟩
  · exact ⟨filler p c, .goto .data⟩

theorem afterStoreByte_steered (p : Params) (k : Fin 4) (c : Cbseq) :
    ∃ i, Steered p { c with i := i } (afterStoreByte p k c) := by
  unfold afterStoreByte
  split
  · next k' _ => exact ⟨c.i, .goto (.mem k')⟩
  · exact ⟨c.i + 1, transferDecision_steered p c.countWord⟩

theorem afterLoadByte_steered (p : Params) (k : Fin 4) (b : Byte) (c : Cbseq) :
    ∃ v l i, Steered p { c with w := v, last := l, i := i } (afterLoadByte k b c) := by
  unfold afterLoadByte
  split
  · next k' _ => exact ⟨setByte c.w k b, c.last, c.i, .goto (.mem k')⟩
  · exact ⟨setByte c.w k b, setByte c.w k b, c.i + 1, .goto .data⟩

/-! ### What the transaction of a turn writes -/

/-- The registers that the transaction of a turn may write before the turn goes on (R20). -/
inductive Wrote (w : World) (s : State) : Cbseq → Prop
  | none (hp : s.cb.ph ≠ .poll) : Wrote w s s.cb
  | sample (hp : s.cb.ph = .poll) (v : Word) :
    Wrote w s { s.cb.sample (busAnswer w s w.params.ctrlAddr) with w := v }
  | probe (hp : s.cb.ph = .data) (hk : s.cb.opk = .waitrdy) :
    Wrote w s { s.cb with
      w := busAnswer w s w.params.dataAddr
      ready := readyAfter s.cb.ready (busAnswer w s w.params.dataAddr) }
  | pop (hp : s.cb.ph = .data) (hk : s.cb.opk = .xferrd) :
    Wrote w s { s.cb with w := busAnswer w s w.params.dataAddr }
  | store (k : Fin 4) (hp : s.cb.ph = .mem k) (hk : s.cb.opk = .xferrd) (i : Word) :
    Wrote w s { s.cb with i := i }
  | load (k : Fin 4) (hp : s.cb.ph = .mem k) (hk : s.cb.opk = .xferwr) (v l i : Word) :
    Wrote w s { s.cb with w := v, last := l, i := i }

/-- Every turn is the write of its transaction's registers and one of the ways to go on. -/
theorem Turned.wrote {w : World} {s t : State} (h : Turned w s t) :
    ∃ b, Wrote w s b ∧ Steered w.params b t.cb := by
  cases h with
  | idle hp =>
    have hgo : s.cb.goto .idle = s.cb := by rw [← hp]; rfl
    exact ⟨s.cb, .none (by simp [hp]), hgo ▸ .goto .idle⟩
  | issEn hp => exact ⟨s.cb, .none (by simp [hp]), .goto _⟩
  | issCmd i hp => exact ⟨s.cb, .none (by simp [hp]), .goto _⟩
  | start hp => exact ⟨s.cb, .none (by simp [hp]), .goto _⟩
  | waitPoll hp hk =>
    refine ⟨_, .sample hp s.cb.w, ?_⟩
    simp only [State.mapCb_cb, State.record_cb]
    split
    · exact .goto .data
    · exact waitDecision_steered _ _
  | readPoll hp hk =>
    refine ⟨_, .sample hp s.cb.w, ?_⟩
    simp only [State.mapCb_cb, State.record_cb]
    split
    · exact .goto .data
    · exact transferDecision_steered _ _
  | writePoll hp hk =>
    simp only [State.mapCb_cb, State.record_cb]
    split
    · obtain ⟨v, hv⟩ := chooseWord_steered w.params (s.cb.sample (busAnswer w s w.params.ctrlAddr))
      exact ⟨_, .sample hp v, hv⟩
    · exact ⟨_, .sample hp s.cb.w, transferDecision_steered _ _⟩
  | waitData hp hk => exact ⟨_, .probe hp hk, waitDecision_steered _ _⟩
  | readData hp hk => exact ⟨_, .pop hp hk, takeWord_steered _ _ _⟩
  | writeData hp hk => exact ⟨s.cb, .none (by simp [hp]), transferDecision_steered _ _⟩
  | storeWord k hp hk ha hs hb =>
    exact ⟨_, .store k hp hk (s.cb.i + 1), transferDecision_steered _ s.cb.countWord⟩
  | storeByte k hp hk ha hb =>
    obtain ⟨i, hi⟩ := afterStoreByte_steered w.params k s.cb
    exact ⟨_, .store k hp hk i, hi⟩
  | loadWord k hp hk ha hs hb =>
    exact ⟨_, .load k hp hk (memWord w s.mem (slotAddr s.cb)) (memWord w s.mem (slotAddr s.cb))
      (s.cb.i + 1), .goto .data⟩
  | loadByte k hp hk ha hb =>
    obtain ⟨v, l, i, hi⟩ := afterLoadByte_steered w.params k
      (memByte w s.mem (slotByteAddr s.cb k)) s.cb
    exact ⟨_, .load k hp hk v l i, hi⟩

/-! ### The registers of a turn, one by one -/

/-- The registers that going on after the transaction leaves alone, of those a turn may write. -/
structure SameScratch (b c : Cbseq) : Prop where
  ill : c.stat.ill = b.stat.ill
  ovr : c.stat.ovr = b.stat.ovr
  i : c.i = b.i
  n : c.n = b.n
  s : c.s = b.s
  last : c.last = b.last
  ready : c.ready = b.ready

theorem Steered.same {p : Params} {b c : Cbseq} (h : Steered p b c) : SameScratch b c := by
  cases h with
  | goto x => exact ⟨rfl, rfl, rfl, rfl, rfl, rfl, rfl⟩
  | complete => exact ⟨rfl, rfl, rfl, rfl, rfl, rfl, rfl⟩
  | timeout h => exact ⟨rfl, rfl, rfl, rfl, rfl, rfl, rfl⟩

theorem Wrote.stat {w : World} {s : State} {b : Cbseq} (h : Wrote w s b) :
    b.stat = s.cb.stat := by
  cases h <;> rfl

theorem Wrote.last {w : World} {s : State} {b : Cbseq} (h : Wrote w s b)
    (hk : s.cb.opk ≠ .xferwr) : b.last = s.cb.last := by
  cases h with
  | load k hp hk' => exact absurd hk' hk
  | _ => rfl

theorem Wrote.ready {w : World} {s : State} {b : Cbseq} (h : Wrote w s b) :
    b.ready = s.cb.ready ∨ (s.cb.opk = .waitrdy ∧ s.cb.ph = .data ∧
      b.ready = readyAfter s.cb.ready (busAnswer w s w.params.dataAddr)) := by
  cases h with
  | probe hp hk => exact .inr ⟨hk, hp, rfl⟩
  | _ => exact .inl rfl

theorem Wrote.s {w : World} {s : State} {b : Cbseq} (h : Wrote w s b) (hp : s.cb.ph ≠ .poll) :
    b.s = s.cb.s := by
  cases h with
  | sample hp' => exact absurd hp' hp
  | _ => rfl

theorem Wrote.n {w : World} {s : State} {b : Cbseq} (h : Wrote w s b) :
    b.n = if s.cb.ph = .poll then countPoll s.cb.n else s.cb.n := by
  cases h with
  | sample hp v => rw [if_pos hp]; rfl
  | none hp => rw [if_neg hp]
  | probe hp hk => rw [if_neg (by simp [hp])]
  | pop hp hk => rw [if_neg (by simp [hp])]
  | store k hp hk i => rw [if_neg (by simp [hp])]
  | load k hp hk v l i => rw [if_neg (by simp [hp])]

theorem Wrote.i {w : World} {s : State} {b : Cbseq} (h : Wrote w s b)
    (hp : ∀ k, s.cb.ph ≠ .mem k) : b.i = s.cb.i := by
  cases h with
  | store k hp' => exact absurd hp' (hp k)
  | load k hp' => exact absurd hp' (hp k)
  | _ => rfl

/-- A turn changes memory only at the four bytes of its slot (R131). -/
theorem Turned.memByte {w : World} {s t : State} (h : Turned w s t) (a : Word)
    (ha : ∀ j : Fin 4, a ≠ slotAddr s.cb + BitVec.ofNat 32 j.val) :
    memByte w t.mem a = memByte w s.mem a := by
  cases h with
  | storeWord k hp hk _ hs hb =>
    have h0 : a ≠ slotAddr s.cb := by simpa using ha 0
    exact (memByte_storeWord w s.mem _ _ a).trans ((if_neg (ha 3)).trans ((if_neg (ha 2)).trans
      ((if_neg (ha 1)).trans (if_neg h0))))
  | storeByte k hp hk _ hb => exact (memByte_storeByte w s.mem _ a _).trans (if_neg (ha k))
  | _ => rfl

/-- Settles O44: the operands by `blockTurn_frame`, the other registers by what the transaction
writes. -/
theorem turnFrame : Obligations.TurnFrame := by
  intro w s t h
  have hturn := blockTurn_next h
  obtain ⟨hop, hin, hmem, -⟩ := blockTurn_frame h
  obtain ⟨b, hb, hst⟩ := hturn.wrote
  have hsame := hst.same
  refine ⟨hop.op, hop.addr, hop.flags, hop.buf, hop.wcnt, hop.frame, hop.aln,
    hsame.ill.trans (congrArg Stat.ill hb.stat), hsame.ovr.trans (congrArg Stat.ovr hb.stat), hin,
    fun hk => hsame.last.trans (hb.last hk), fun hk => ?_,
    fun hp => ⟨hsame.s.trans (hb.s hp), ?_⟩, fun hp => hsame.i.trans (hb.i hp), fun hno a => ?_,
    fun k hk hp a ha => hturn.memByte a ha⟩
  · rcases hb.ready with hr | ⟨hw, -, -⟩
    · exact hsame.ready.trans hr
    · exact absurd hw hk
  · rw [hsame.n, hb.n, if_neg hp]
  · rcases hmem with hm | hm
    · rw [hm]
    · exact absurd hm hno

/-! ### What a due input does to the registers of a running block -/

theorem not_quiet_of_due {s : State} {x : Input} {ps : List Pending}
    (h : s.inputs = ⟨0, x⟩ :: ps) : ¬ Quiet s := fun hq => hq ⟨0, x⟩ (by simp [h]) rfl

/-- To a running block an input that is no reset does nothing but raise Overrun (R12(a)). -/
theorem Delivered.running {w : World} {s t : State} {x : Input} (h : Delivered w s x t)
    (hr : s.cb.stat.run = true) :
    x = .reset ∨ t.cb = s.cb ∨ t.cb = s.cb.raise .overrun := by
  cases h with
  | overrun off v _ => exact .inr (.inr rfl)
  | reject v r hr' _ => simp [hr] at hr'
  | accept v i _ hr' _ _ => simp [hr] at hr'
  | reg off v hr' _ => simp [hr] at hr'
  | read off => exact .inr (.inl rfl)
  | sync => exact .inr (.inl (syncRead_cb s))
  | poke a b _ _ => exact .inr (.inl rfl)
  | peek a _ _ => exact .inr (.inl rfl)
  | reset => exact .inl rfl

/-- Settles O16: a turn keeps the operands, and an input to a running block raises Overrun at most. -/
theorem operandsKeptWhileRunning : Obligations.OperandsKeptWhileRunning := by
  intro w s t h hno hrun
  rcases quiet_or_due s with hq | ⟨x, ps, hin⟩
  · rw [stepIn_quiet w hq] at h
    obtain ⟨hop, -⟩ := blockTurn_frame h
    exact ⟨hop.op, hop.addr, hop.flags, hop.buf, hop.wcnt, hop.frame⟩
  · rw [stepIn_due w hin] at h
    have hr : s.cb.stat.run = true := hrun.resolve_right (not_quiet_of_due hin)
    rcases (deliver_next h).running hr with rfl | hcb | hcb
    · exact absurd hin (hno ps)
    · rw [hcb]
      exact ⟨rfl, rfl, rfl, rfl, rfl, rfl⟩
    · rw [hcb]
      exact ⟨rfl, rfl, rfl, rfl, rfl, rfl⟩

/-- Settles O50: of the ways a turn goes on, `complete` and Timeout end the operation; of the inputs,
reset alone. -/
theorem operationEndsThreeWays : Obligations.OperationEndsThreeWays := by
  intro w s t h hr hend
  rcases stepIn_next h with ⟨_, hturn⟩ | ⟨x, ps, hin, hd⟩
  · obtain ⟨b, hb, hst⟩ := hturn.wrote
    have hstat : b.stat = s.cb.stat := hb.stat
    refine .inr ?_
    generalize t.cb = c at hst hend ⊢
    cases hst with
    | goto x => simp [hstat, hr] at hend
    | complete => exact .inl ⟨rfl, rfl, rfl, by simp [hstat]⟩
    | timeout hlim => exact .inr ⟨rfl, rfl, rfl, by simp [hstat], hlim⟩
  · rcases hd.running hr with rfl | hcb | hcb
    · exact .inl ⟨ps, hin⟩
    · simp [hcb, hr] at hend
    · simp [hcb, hr] at hend

/-- N saturates at its greatest value (R23). -/
theorem countPoll_eq (n : Word) : countPoll n = if n.toNat = 2 ^ 32 - 1 then n else n + 1 := by
  simp [countPoll, BitVec.toNat_eq]

/-- Settles O51: only the sample of POLL writes N. -/
theorem pollCounterCountsReads : Obligations.PollCounterCountsReads := by
  intro w s t h hq
  rw [stepIn_quiet w hq] at h
  obtain ⟨b, hb, hst⟩ := (blockTurn_next h).wrote
  rw [← countPoll_eq]
  exact hst.same.n.trans hb.n

/-! ### READY and ALN -/

@[simp] theorem writeReg_ready (off v : Word) (c : Cbseq) : (writeReg off v c).ready = c.ready := by
  unfold writeReg; split <;> rfl
@[simp] theorem writeReg_aln (off v : Word) (c : Cbseq) : (writeReg off v c).aln = c.aln := by
  unfold writeReg; split <;> rfl

/-- Only reset and the acceptance of an operation reach READY and ALN from outside. -/
theorem Delivered.ready_aln {w : World} {s t : State} {x : Input} (h : Delivered w s x t) :
    x = .reset ∨
      (∃ i, x = .write 0x00 .word (encode i) ∧ s.cb.stat.run = false ∧
        ∃ e, Accepted w (s.record e) i t) ∨
      (t.cb.ready = s.cb.ready ∧ t.cb.aln = s.cb.aln) := by
  cases h with
  | accept v i _ hr hd ha => exact .inr (.inl ⟨i, eq_encode_of_decode hd ▸ rfl, hr, _, ha⟩)
  | reset => exact .inl rfl
  | reg off v hr h0 => exact .inr (.inr ⟨writeReg_ready .., writeReg_aln ..⟩)
  | sync =>
    have hcb := syncRead_cb s
    exact .inr (.inr ⟨congrArg Cbseq.ready hcb, congrArg Cbseq.aln hcb⟩)
  | _ => exact .inr (.inr ⟨rfl, rfl⟩)

theorem Accepted.ready {w : World} {s t : State} {i : Instr} (h : Accepted w s i t) :
    t.cb.ready = s.cb.ready ∨ (i = .waitrdy ∧ t.cb.ready = false) := by
  cases h with
  | waitrdy => exact .inr ⟨rfl, rfl⟩
  | _ => exact .inl rfl

theorem Accepted.aln {w : World} {s t : State} {i : Instr} (h : Accepted w s i t) :
    t.cb.aln = s.cb.aln ∨ ((i = .xferrd ∨ i = .xferwr) ∧ t.cb.aln = isAligned s.cb.buf) := by
  cases h with
  | xferrd hb => exact .inr ⟨.inl rfl, rfl⟩
  | xferwr hb => exact .inr ⟨.inr rfl, rfl⟩
  | _ => exact .inl rfl

/-- The readiness test (R113): a zero word sets READY, nothing clears it. -/
theorem readyAfter_eq (ready : Bool) (v : Word) :
    readyAfter ready v = if v = 0 then true else ready := by
  unfold readyAfter
  split
  · next h => rw [beq_iff_eq.2 h, Bool.or_true]
  · next h => rw [beq_eq_false_iff_ne.2 h, Bool.or_false]

/-- Settles O30: a turn writes READY with the word of WAITRDY's DATA read, an input by reset or by the
acceptance of WAITRDY. -/
theorem readySetByZeroWordOnly : Obligations.ReadySetByZeroWordOnly := by
  intro w s t h hne
  rcases stepIn_next h with ⟨_, hturn⟩ | ⟨x, ps, hin, hd⟩
  · obtain ⟨b, hb, hst⟩ := hturn.wrote
    have hready := hst.same.ready
    rcases hb.ready with hkeep | ⟨hk, hp, hprobe⟩
    · exact absurd (hready.trans hkeep) hne
    · rw [hprobe, readyAfter_eq] at hready
      split at hready
      · next hzero => exact .inr (.inr ⟨hk, hp, hready, hzero⟩)
      · exact absurd hready hne
  · rcases hd.ready_aln with rfl | ⟨i, rfl, hr, e, ha⟩ | ⟨hkeep, -⟩
    · exact .inl ⟨ps, hin⟩
    · rcases ha.ready with hkeep | ⟨rfl, hclear⟩
      · exact absurd hkeep hne
      · exact .inr (.inl ⟨ps, hin, hr, hclear⟩)
    · exact absurd hkeep hne

/-- Settles O43: no turn writes ALN, and of the inputs reset and the acceptance of a transfer do. -/
theorem alignmentDecidedOnce : Obligations.AlignmentDecidedOnce := by
  intro w s t h
  rcases quiet_or_due s with hq | ⟨x, ps, hin⟩
  · rw [stepIn_quiet w hq] at h
    obtain ⟨hop, -⟩ := blockTurn_frame h
    exact .inr (.inr hop.aln)
  · rw [stepIn_due w hin] at h
    rcases (deliver_next h).ready_aln with rfl | ⟨i, rfl, hr, e, ha⟩ | ⟨-, hkeep⟩
    · exact .inl ⟨ps, hin⟩
    · rcases ha.aln with hkeep | ⟨hi, hal⟩
      · exact .inr (.inr hkeep)
      · rcases hi with rfl | rfl
        · exact .inr (.inl ⟨_, ps, hin, .inl rfl, hr, hal⟩)
        · exact .inr (.inl ⟨_, ps, hin, .inr rfl, hr, hal⟩)
    · exact .inr (.inr hkeep)

end Sys2Proof.Machine
end

section
/-!
PROOFS. The rows of R20's phase table with their next states written out: the launch, the turns of
WAITRDY, XFERRD and XFERWR, and the one transaction that each turn makes (spec/20_memory.md R42 to
R45).
-/

namespace Sys2Proof.Machine

open Sys2Proof.Safety

/-! ### The launch -/

/-- One turn more. -/
theorem blockRun_succ {w : World} {k : Nat} {s t : State} (h : blockRun w k s = .next t) :
    blockRun w (k + 1) s = blockTurn w t := by
  induction k generalizing s with
  | zero =>
    obtain rfl : s = t := by injection h
    rw [blockRun]
    cases blockTurn w s <;> rfl
  | succ k ih =>
    rw [blockRun] at h ⊢
    cases hs : blockTurn w s with
    | next u => rw [hs] at h; exact ih h
    | fault r => rw [hs] at h; cases h
    | refused r => rw [hs] at h; cases h

/-- The phase of Issue in which FRAME[k] is written next, or START after the eighth byte. -/
def issuePhase (k : Nat) : Phase := if h : k < 8 then .issCmd ⟨k, h⟩ else .start

/-- From ISS_EN, the EN write and `k` CMD writes: only PH and the record have changed (R96). -/
theorem blockRun_issue (w : World) {s : State} (hp : s.cb.ph = .issEn) {k : Nat} (hk : k ≤ 8) :
    blockRun w (k + 1) s = .next { s with
      cb := s.cb.goto (issuePhase k)
      trace := issuedBefore w.params s.cb.frame k ++ s.trace } := by
  induction k with
  | zero => rw [blockRun_succ (t := s) rfl, blockTurn_issEn w hp]; rfl
  | succ k ih =>
    have hlt : k < 8 := hk
    rw [blockRun_succ (ih (Nat.le_of_lt hlt)), blockTurn_issCmd (t := ⟨k, hlt⟩) w (dif_pos hlt)]
    simp only [issuedBefore, dif_pos hlt, List.cons_append]
    rfl

/-- The write of FRAME[t], its CMD sub-register written out (R96, R26). -/
theorem cmdWrite_eq (p : Params) (f : Frame) (t : Fin 8) :
    cmdWrite p f t = .bus ⟨.write,
      p.cmdBase + BitVec.ofNat 32 (if p.issueMirror = true then t.rev.val else t.val), .byte,
      f[t].setWidth 32⟩ := by
  unfold cmdWrite Params.cmdAddr cmdIndex byteValue
  rw [apply_ite Fin.val]

/-- Settles O25: EN and the eight CMD writes by induction, then the turn of START. -/
theorem launchMakesTenWrites : Obligations.LaunchMakesTenWrites := by
  intro w s hp b
  rw [blockRun_succ (blockRun_issue w hp (Nat.le_refl 8)), blockTurn_start w rfl]
  simp only [issuedBefore, cmdWrite_eq]
  rfl

/-! ### The loop decisions and the serializer's continuations, written out -/

/-- The loop decision of a transfer (R135, R140). -/
theorem transferDecision_eq (p : Params) (c : Cbseq) :
    transferDecision p c =
      if c.s.getLsbD p.busyBit.val = true then
        if p.pollLimit = some c.n then
          { c with stat := { c.stat with run := false, tmo := true }, opk := .none, ph := .idle }
        else { c with ph := .poll }
      else
        { c with stat := { c.stat with run := false, done := true }, opk := .none, ph := .idle } := by
  unfold transferDecision
  rw [boundThen_eq]
  rfl

theorem consumeProbe_eq (p : Params) (v : Word) (c : Cbseq) :
    consumeProbe p v c =
      waitDecision p { c with w := v, ready := if v = 0 then true else c.ready } := by
  rw [consumeProbe, readyAfter_eq]

theorem takeWord_eq (p : Params) (v : Word) (c : Cbseq) :
    takeWord p v c =
      if c.buf ≠ 0 ∧ c.i.toNat < c.wcnt.toNat then { c with w := v, ph := .mem 0 }
      else transferDecision p { c with w := v } := by
  simp only [takeWord, hasSlot_iff]

theorem chooseWord_eq (p : Params) (c : Cbseq) :
    chooseWord p c =
      if c.buf ≠ 0 ∧ c.i.toNat < c.wcnt.toNat then { c with ph := .mem 0 }
      else { c with w := if p.fillLast = true then c.last else 0, ph := .data } := by
  simp only [chooseWord, hasSlot_iff]
  rfl

theorem afterStore_eq (p : Params) (c : Cbseq) :
    afterStore p c = transferDecision p { c with i := c.i + 1 } := rfl

theorem afterStoreByte_eq (p : Params) (k : Fin 4) (c : Cbseq) :
    afterStoreByte p k c =
      if h : k.val + 1 < 4 then { c with ph := .mem ⟨k.val + 1, h⟩ }
      else transferDecision p { c with i := c.i + 1 } := by
  unfold afterStoreByte afterByte
  by_cases h : k.val + 1 < 4
  · simp only [dif_pos h]; rfl
  · simp only [dif_neg h]; rfl

theorem afterLoadByte_eq (k : Fin 4) (b : Byte) (c : Cbseq) :
    afterLoadByte k b c =
      if h : k.val + 1 < 4 then { c with w := setByte c.w k b, ph := .mem ⟨k.val + 1, h⟩ }
      else { c with
        w := setByte c.w k b, last := setByte c.w k b, i := c.i + 1, ph := .data } := by
  unfold afterLoadByte afterByte
  by_cases h : k.val + 1 < 4
  · simp only [dif_pos h]
  · simp only [dif_neg h]; rfl

/-- A word transaction is stuck unless all four of its bytes have memory (R45, U21). -/
theorem onBacked_word (w : World) (a : Word) (r : Res) :
    onBacked w a .word r =
      if ∀ j : Fin 4, w.backed (a + BitVec.ofNat 32 j.val) = true then r
      else .fault .unbackedMemory := by
  simp only [onBacked, backs_word]

theorem onBacked_byte (w : World) (a : Word) (r : Res) :
    onBacked w a .byte r = if w.backed a = true then r else .fault .unbackedMemory := by
  simp only [onBacked, backs_byte]

/-- `BUF[1:0] == 0` in numbers (R32, R47). -/
theorem isAligned_iff {a : Word} : isAligned a = true ↔ a.toNat % 4 = 0 := by
  simp [isAligned, BitVec.toNat_eq]

/-! ### The turns of the three polling operations -/

/-- Settles O29: the two rows of WAITRDY with `waitDecision` written out. -/
theorem waitrdyTurns : Obligations.WaitrdyTurns := by
  intro w s hk ended decision
  have hdecision : waitDecision w.params = decision := by
    funext c
    have htimeout : c.raise .timeout = ended false c := by simp [ended, Cbseq.raise]
    have hcomplete : c.complete = ended true c := by simp [ended, Cbseq.complete]
    simp only [waitDecision, boundThen_eq, htimeout, hcomplete]
    rfl
  refine ⟨fun hp => ?_, fun hp => ?_⟩
  · rw [blockTurn_poll_waitrdy w hp hk, pollCycle_eq, hdecision]
    rfl
  · rw [blockTurn_data_waitrdy w hp hk, funext (consumeProbe_eq _ _), hdecision]
    rfl

/-- Settles O37: the rows of XFERRD; the slot of an aligned buffer is aligned. -/
theorem xferrdTurns : Obligations.XferrdTurns := by
  intro w s hk decision slot
  have hdecision : transferDecision w.params = decision := funext (transferDecision_eq w.params)
  refine ⟨fun hp => ?_, fun hp => ?_, fun hp ha hbuf => ?_, fun k hp ha => ?_⟩
  · rw [blockTurn_poll_xferrd w hp hk, pollCycle_eq, hdecision]
    rfl
  · rw [blockTurn_data_xferrd w hp hk, funext (takeWord_eq _ _), hdecision]
    rfl
  · rw [blockTurn_mem_xferrd w hp hk,
      readMem_word w 0 ha (isAligned_slotAddr (isAligned_iff.2 hbuf)), onBacked_word,
      funext (afterStore_eq _), hdecision]
    rfl
  · rw [blockTurn_mem_xferrd w hp hk, readMem_byte w k ha, onBacked_byte,
      funext (afterStoreByte_eq _ _), hdecision]
    rfl

/-- Settles O38: the rows of XFERWR; on the byte path the word in flight is W with byte `k` replaced. -/
theorem xferwrTurns : Obligations.XferwrTurns := by
  intro w s hk decision slot
  have hdecision : transferDecision w.params = decision := funext (transferDecision_eq w.params)
  refine ⟨fun hp => ?_, fun hp => ?_, fun hp ha hbuf => ?_, fun k hp ha => ?_⟩
  · rw [blockTurn_poll_xferwr w hp hk, pollCycle_eq, hdecision, funext (chooseWord_eq _)]
    rfl
  · rw [blockTurn_data_xferwr w hp hk, hdecision]
    rfl
  · rw [blockTurn_mem_xferwr w hp hk,
      writeMem_word w 0 ha (isAligned_slotAddr (isAligned_iff.2 hbuf)), onBacked_word]
    rfl
  · refine ⟨setByte s.cb.w k (memByte w s.mem (slotByteAddr s.cb k)),
      setByte_bytes s.cb.w k _, ?_⟩
    rw [blockTurn_mem_xferwr w hp hk, writeMem_byte w k ha, onBacked_byte,
      funext (afterLoadByte_eq _ _)]
    rfl

/-! ### The transaction of a turn -/

/-- The transactions that CBSEQ may make on port B (R42, R44): a byte write to EN or CMD, a word access
to CTRL or DATA. -/
def BusInBounds (p : Params) (a : Access) : Prop :=
  (a.dir = .write ∧ a.width = .byte ∧
    (a.addr = p.enAddr ∨ ∃ k < 8, a.addr = p.cmdBase + BitVec.ofNat 32 k)) ∨
  (a.width = .word ∧ (a.addr = p.ctrlAddr ∨ a.addr = p.dataAddr))

/-- The transactions that the running transfer may make on port M (R42, R45). -/
def MemInBounds (c : Cbseq) (a : Access) : Prop :=
  Transferring c ∧ InBufferAccess c a ∧ (a.dir = .write ↔ c.opk = .xferrd) ∧
    ((a.width = .byte ∧ c.aln = false) ∨ (a.width = .word ∧ c.aln = true ∧ a.addr.toNat % 4 = 0))

/-- A transaction of CBSEQ that keeps to its bounds. -/
inductive InBounds (p : Params) (c : Cbseq) : Event → Prop
  | bus (a : Access) (h : BusInBounds p a) : InBounds p c (.bus a)
  | mem (a : Access) (h : MemInBounds c a) : InBounds p c (.mem a)

/-- The four bytes of a slot that exists lie in the buffer (R42, R133). -/
theorem inBuffer_slot {c : Cbseq} (h : hasSlot c = true) {k : Nat} (hk : k < 4) :
    inBuffer c.buf c.wcnt (slotAddr c + BitVec.ofNat 32 k) = true := by
  obtain ⟨_, hi⟩ := hasSlot_iff.1 h
  have hoff : slotAddr c + BitVec.ofNat 32 k - c.buf = 4 * c.i + BitVec.ofNat 32 k := by
    unfold slotAddr; bv_omega
  have h4 : (4 : Word).toNat = 4 := rfl
  rw [inBuffer, hoff, decide_eq_true_iff, BitVec.toNat_add, BitVec.toNat_mul, BitVec.toNat_ofNat,
    h4]
  omega

/-- A word at a slot that exists, on the aligned path. -/
theorem slot_word_inBounds {c : Cbseq} {d : Dir} {v : Word} (ht : Transferring c)
    (hs : hasSlot c = true) (hd : d = .write ↔ c.opk = .xferrd) (ha : c.aln = true)
    (hal : isAligned (slotAddr c) = true) : MemInBounds c ⟨d, slotAddr c, .word, v⟩ :=
  ⟨ht, fun _ hk => inBuffer_slot hs hk, hd, .inr ⟨rfl, ha, isAligned_iff.1 hal⟩⟩

/-- A byte of a slot that exists, on the byte path. -/
theorem slot_byte_inBounds {c : Cbseq} {d : Dir} {v : Word} (k : Fin 4) (ht : Transferring c)
    (hs : hasSlot c = true) (hd : d = .write ↔ c.opk = .xferrd) (ha : c.aln = false) :
    MemInBounds c ⟨d, slotByteAddr c k, .byte, v⟩ := by
  refine ⟨ht, fun j hj => ?_, hd, .inl ⟨rfl, ha⟩⟩
  obtain rfl : j = 0 := Nat.lt_one_iff.1 hj
  simpa [slotByteAddr] using inBuffer_slot hs k.isLt

/-- A turn from a state that meets the invariant makes no transaction or one within its bounds. -/
theorem Turned.transaction {w : World} {s t : State} (h : Turned w s t) (hi : RegInv s.cb) :
    t.trace = s.trace ∨ ∃ e, InBounds w.params s.cb e ∧ t.trace = e :: s.trace := by
  cases h with
  | idle hp => exact .inl rfl
  | issEn hp => exact .inr ⟨_, .bus _ (.inl ⟨rfl, rfl, .inl rfl⟩), rfl⟩
  | issCmd i hp => exact .inr ⟨_, .bus _ (.inl ⟨rfl, rfl, .inr ⟨_, Fin.isLt _, rfl⟩⟩), rfl⟩
  | start hp => exact .inr ⟨_, .bus _ (.inr ⟨rfl, .inl rfl⟩), rfl⟩
  | waitPoll hp hk => exact .inr ⟨_, .bus _ (.inr ⟨rfl, .inl rfl⟩), rfl⟩
  | readPoll hp hk => exact .inr ⟨_, .bus _ (.inr ⟨rfl, .inl rfl⟩), rfl⟩
  | writePoll hp hk => exact .inr ⟨_, .bus _ (.inr ⟨rfl, .inl rfl⟩), rfl⟩
  | waitData hp hk => exact .inr ⟨_, .bus _ (.inr ⟨rfl, .inr rfl⟩), rfl⟩
  | readData hp hk => exact .inr ⟨_, .bus _ (.inr ⟨rfl, .inr rfl⟩), rfl⟩
  | writeData hp hk => exact .inr ⟨_, .bus _ (.inr ⟨rfl, .inr rfl⟩), rfl⟩
  | storeWord k hp hk ha hs hb =>
    obtain ⟨ht, hslot, -⟩ := hi.mem_slot k hp
    exact .inr ⟨_, .mem _ (slot_word_inBounds ht hslot (by simp [hk]) ha hs), rfl⟩
  | storeByte k hp hk ha hb =>
    obtain ⟨ht, hslot, -⟩ := hi.mem_slot k hp
    exact .inr ⟨_, .mem _ (slot_byte_inBounds k ht hslot (by simp [hk]) ha), rfl⟩
  | loadWord k hp hk ha hs hb =>
    obtain ⟨ht, hslot, -⟩ := hi.mem_slot k hp
    exact .inr ⟨_, .mem _ (slot_word_inBounds ht hslot (by simp [hk]) ha hs), rfl⟩
  | loadByte k hp hk ha hb =>
    obtain ⟨ht, hslot, -⟩ := hi.mem_slot k hp
    exact .inr ⟨_, .mem _ (slot_byte_inBounds k ht hslot (by simp [hk]) ha), rfl⟩

theorem Accepted.trace {w : World} {s t : State} {i : Instr} (h : Accepted w s i t) :
    t.trace = s.trace := by
  cases h <;> rfl

/-- With RUN = 1 every operation word is dropped (R12(a)). -/
theorem execIn_running (w : World) (i : Instr) {s : State} (h : s.cb.stat.run = true) :
    execIn w i s = .next (s.mapCb (Cbseq.raise .overrun)) := by
  cases i <;> exact whenIdle_running h _

/-- The acceptance of an operation makes no transaction on any port (R95). -/
theorem execIn_trace {w : World} {i : Instr} {s t : State} (h : execIn w i s = .next t) :
    t.trace = s.trace := by
  by_cases hr : s.cb.stat.run = true
  · rw [execIn_running w i hr] at h
    cases h
    rfl
  · exact (execIn_next (by simpa using hr) h).trace

/-- An input makes no transaction on port B or port M. -/
theorem Delivered.blockTrace {w : World} {s t : State} {x : Input} (h : Delivered w s x t) :
    blockTrace t.trace = blockTrace s.trace := by
  cases h with
  | accept v i _ hr hd ha => rw [ha.trace]; rfl
  | sync => unfold syncRead; dsimp only; split <;> rfl
  | _ => rfl

/-- Settles O55: one transaction within its bounds in a turn, none in an input or an acceptance. -/
theorem portTransactionsInBounds : Obligations.PortTransactionsInBounds := by
  refine ⟨fun w s t hi h => ?_, fun w i s t h => execIn_trace h⟩
  have noTransaction : blockTrace t.trace = blockTrace s.trace →
      ∃ es : List Event, es.length ≤ 1 ∧ blockTrace t.trace = es ++ blockTrace s.trace ∧
        (∀ a, .bus a ∈ es → BusInBounds w.params a) ∧ (∀ a, .mem a ∈ es → MemInBounds s.cb a) :=
    fun heq => ⟨[], Nat.zero_le 1, heq, nofun, nofun⟩
  rcases stepIn_next h with ⟨_, hturn⟩ | ⟨x, ps, _, hd⟩
  · obtain ⟨hc, _⟩ := inv_iff.1 hi
    rcases hturn.transaction hc with htr | ⟨e, he, htr⟩
    · exact noTransaction (congrArg Safety.blockTrace htr)
    · refine ⟨[e], Nat.le_refl 1, ?_, fun a ha => ?_, fun a ha => ?_⟩
      · rw [htr]
        cases he <;> rfl
      · obtain rfl := List.mem_singleton.1 ha
        cases he with
        | bus _ hb => exact hb
      · obtain rfl := List.mem_singleton.1 ha
        cases he with
        | mem _ hm => exact hm
  · exact noTransaction hd.blockTrace

end Sys2Proof.Machine
end

section
/-!
PROOFS. The memory (spec/20_memory.md R45 to R47, R54): words in memory byte by byte, the launch that
R54(b) has refused, and the turns of CBSEQ that stop for want of memory.
-/

namespace Sys2Proof.Machine

open Sys2Proof.Safety

/-- Settles O56: `byteOf` and `wordOf` are R46's bytes by computation; a stored word reads back. -/
theorem littleEndianMemory : Obligations.LittleEndianMemory := fun w m p v _ =>
  ⟨rfl, rfl, memWord_storeWord w m p v⟩

/-! ### The bytes of the buffer and of the registers -/

/-- The bytes of the buffer, counted from BUF (R42); those of more than 2^32 come round again. -/
theorem inBuffer_iff {buf wcnt a : Word} :
    inBuffer buf wcnt a = true ↔
      ∃ j < 4 * wcnt.toNat, a = buf + BitVec.ofNat 32 j := by
  rw [inBuffer, decide_eq_true_iff]
  constructor
  · exact fun h => ⟨(a - buf).toNat, h, by rw [BitVec.ofNat_toNat, BitVec.setWidth_eq]; bv_omega⟩
  · rintro ⟨j, hj, rfl⟩
    have hoff : buf + BitVec.ofNat 32 j - buf = BitVec.ofNat 32 j := by bv_omega
    rw [hoff, BitVec.toNat_ofNat]
    exact Nat.lt_of_le_of_lt (Nat.mod_le _ _) hj

/-- The `n` bytes from a base address. -/
theorem mem_bytesFrom {base a : Word} {n : Nat} :
    a ∈ (List.range n).map (fun k => base + BitVec.ofNat 32 k) ↔
      ∃ k < n, a = base + BitVec.ofNat 32 k := by
  simp only [List.mem_map, List.mem_range, eq_comm]

/-- The bytes of the port B registers and of the host block (R41, R52). -/
theorem mem_registerBytes {p : Params} {a : Word} :
    a ∈ p.busBytes ++ p.hostBytes ↔
      a = p.enAddr ∨ (∃ k < 8, a = p.cmdBase + BitVec.ofNat 32 k) ∨
        (∃ k < 4, a = p.ctrlAddr + BitVec.ofNat 32 k) ∨
        (∃ k < 4, a = p.dataAddr + BitVec.ofNat 32 k) ∨
        (∃ k < 64, a = p.hostBase + BitVec.ofNat 32 k) := by
  simp only [Params.busBytes, Params.hostBytes, List.mem_append, List.mem_cons, mem_bytesFrom,
    or_assoc]

/-- R54(b): a buffer that clashes has a pointer and holds a byte of the registers; that it is not empty
follows. -/
theorem bufferClash_iff {p : Params} {buf wcnt : Word} :
    bufferClash p buf wcnt = true ↔
      p.oneSpace = true ∧ buf ≠ 0 ∧
        ∃ (j : Nat) (a : Word), j < 4 * wcnt.toNat ∧ a = buf + BitVec.ofNat 32 j ∧
          a ∈ p.busBytes ++ p.hostBytes := by
  simp only [bufferClash, Bool.and_eq_true, bne_iff_ne, List.any_eq_true, inBuffer_iff]
  constructor
  · rintro ⟨⟨⟨hbuf, -⟩, hone⟩, a, ha, j, hj, rfl⟩
    exact ⟨hone, hbuf, j, _, hj, rfl, ha⟩
  · rintro ⟨hone, hbuf, j, a, hj, rfl, ha⟩
    have hwcnt : wcnt ≠ 0 := by
      rintro rfl
      exact absurd hj (Nat.not_lt_zero j)
    exact ⟨⟨⟨hbuf, hwcnt⟩, hone⟩, _, ha, j, hj, rfl⟩

/-! ### The refused launch -/

theorem launchTransfer_refused_iff {p : Params} {start : Cbseq → Cbseq} {s : State} :
    launchTransfer p start s = .refused .bufferOverlapsRegisters ↔
      bufferClash p s.cb.buf s.cb.wcnt = true := by
  unfold launchTransfer
  split <;> simp [*]

/-- A transfer's word in an idle block is answered by the launch. -/
theorem execIn_transfer_refused_iff {w : World} {i : Instr} {s : State}
    (hi : i = .xferrd ∨ i = .xferwr) (hr : s.cb.stat.run = false) :
    execIn w i s = .refused .bufferOverlapsRegisters ↔
      bufferClash w.params s.cb.buf s.cb.wcnt = true := by
  rcases hi with rfl | rfl
  · rw [execIn, xferrdIn, whenIdle_idle hr, launchTransfer_refused_iff]
  · rw [execIn, xferwrIn, whenIdle_idle hr, launchTransfer_refused_iff]

/-- Settles O35: the launch is refused by `bufferClash`, which is taken apart byte by byte. -/
theorem overlappingLaunchRefused : Obligations.OverlappingLaunchRefused := by
  intro w i s hi hr
  rw [execIn_transfer_refused_iff hi hr, bufferClash_iff]
  simp only [mem_registerBytes]

/-! ### What a turn answers, phase by phase -/

/-- A turn outside MEM goes on, unless an operation that is none is to poll or to move data. -/
theorem blockTurn_outside_mem (w : World) {s : State} (hm : ∀ k, s.cb.ph ≠ .mem k) :
    (∃ t, blockTurn w s = .next t) ∨
      (s.cb.opk = .none ∧ s.cb.ph ≠ .idle ∧ blockTurn w s = .fault .noPhaseRow) := by
  cases hp : s.cb.ph with
  | idle => exact .inl ⟨_, blockTurn_idle w hp⟩
  | issEn => exact .inl ⟨_, blockTurn_issEn w hp⟩
  | issCmd i => exact .inl ⟨_, blockTurn_issCmd w hp⟩
  | start => exact .inl ⟨_, blockTurn_start w hp⟩
  | poll =>
    cases hk : s.cb.opk with
    | none => exact .inr ⟨rfl, nofun, blockTurn_poll_none w hp hk⟩
    | waitrdy => exact .inl ⟨_, (blockTurn_poll_waitrdy w hp hk).trans (pollCycle_eq ..)⟩
    | xferrd => exact .inl ⟨_, (blockTurn_poll_xferrd w hp hk).trans (pollCycle_eq ..)⟩
    | xferwr => exact .inl ⟨_, (blockTurn_poll_xferwr w hp hk).trans (pollCycle_eq ..)⟩
  | data =>
    cases hk : s.cb.opk with
    | none => exact .inr ⟨rfl, nofun, blockTurn_data_none w hp hk⟩
    | waitrdy => exact .inl ⟨_, blockTurn_data_waitrdy w hp hk⟩
    | xferrd => exact .inl ⟨_, blockTurn_data_xferrd w hp hk⟩
    | xferwr => exact .inl ⟨_, blockTurn_data_xferwr w hp hk⟩
  | mem k => exact absurd hp (hm k)

/-- No row of R20's table has MEM without a transfer. -/
theorem blockTurn_mem_noTransfer (w : World) {s : State} {k : Fin 4} (hp : s.cb.ph = .mem k)
    (ht : ¬ Transferring s.cb) : blockTurn w s = .fault .noPhaseRow := by
  cases hk : s.cb.opk with
  | none => simp only [blockTurn, hp, memTurn, hk]
  | waitrdy => simp only [blockTurn, hp, memTurn, hk]
  | xferrd => exact absurd (.inl hk) ht
  | xferwr => exact absurd (.inr hk) ht

/-! ### The transaction of MEM(k) -/

/-- The width of the port M transaction of MEM (R131, R132): the path decides it. -/
def memWidth (c : Cbseq) : Width := if c.aln then .word else .byte

/-- The address of the port M transaction of MEM(k): the slot's, or that of its byte `k`. -/
def memAddr (c : Cbseq) (k : Fin 4) : Word := if c.aln then slotAddr c else slotByteAddr c k

/-- The slot of a buffer is aligned exactly when the buffer is (R47). -/
theorem isAligned_slotAddr_iff {c : Cbseq} :
    isAligned (slotAddr c) = true ↔ isAligned c.buf = true := by
  refine ⟨fun h => ?_, isAligned_slotAddr⟩
  have h4 : (4 : Word).toNat = 4 := rfl
  rw [isAligned_iff, slotAddr, BitVec.toNat_add, BitVec.toNat_mul, h4] at h
  rw [isAligned_iff]
  omega

/-- MEM(k) of a transfer whose buffer fits its path goes on where its transaction has memory. -/
theorem blockTurn_mem_onBacked (w : World) {s : State} {k : Fin 4} (hp : s.cb.ph = .mem k)
    (ht : Transferring s.cb) (hal : s.cb.aln = true → isAligned s.cb.buf = true) :
    ∃ t, blockTurn w s = onBacked w (memAddr s.cb k) (memWidth s.cb) (.next t) := by
  unfold memAddr memWidth
  cases ha : s.cb.aln with
  | true =>
    have hslot := isAligned_slotAddr (hal ha)
    rcases ht with hk | hk
    · exact ⟨_, (blockTurn_mem_xferrd w hp hk).trans (readMem_word w k ha hslot)⟩
    · exact ⟨_, (blockTurn_mem_xferwr w hp hk).trans (writeMem_word w k ha hslot)⟩
  | false =>
    rcases ht with hk | hk
    · exact ⟨_, (blockTurn_mem_xferrd w hp hk).trans (readMem_byte w k ha)⟩
    · exact ⟨_, (blockTurn_mem_xferwr w hp hk).trans (writeMem_byte w k ha)⟩

/-- The aligned path with a buffer that is not aligned, which `Inv` excludes (U1). -/
theorem blockTurn_mem_misaligned (w : World) {s : State} {k : Fin 4} (hp : s.cb.ph = .mem k)
    (ht : Transferring s.cb) (ha : s.cb.aln = true) (hal : isAligned s.cb.buf ≠ true) :
    blockTurn w s = .refused .misalignedWord := by
  have hslot := mt isAligned_slotAddr_iff.1 hal
  rcases ht with hk | hk
  · rw [blockTurn_mem_xferrd w hp hk, readMem, if_pos ha, memWriteWord, if_neg hslot]
  · rw [blockTurn_mem_xferwr w hp hk, writeMem, if_pos ha, memReadWord, if_neg hslot]

theorem onBacked_next_stuck_iff {w : World} {a : Word} {width : Width} {t : State} :
    onBacked w a width (.next t) = .fault .unbackedMemory ↔ w.backs a width = false := by
  unfold onBacked
  split <;> simp [*]

/-- `AtUnbackedMemory` in phase MEM(k) is about the transaction of that phase. -/
theorem atUnbackedMemory_iff {w : World} {s : State} {k : Fin 4} (hp : s.cb.ph = .mem k) :
    AtUnbackedMemory w s ↔ w.backs (memAddr s.cb k) (memWidth s.cb) = false := by
  have hphase : ∀ P : Fin 4 → Prop, (∃ j, s.cb.ph = .mem j ∧ P j) ↔ P k := by simp [hp]
  rw [AtUnbackedMemory, hphase, memAddr, memWidth]
  cases s.cb.aln with
  | true => simp [← Bool.not_eq_true, backs_word]
  | false => simp [backs_byte, slotByteAddr]

/-- A turn is stuck exactly at a transfer's transaction that finds no memory (R45). -/
theorem blockTurn_stuck_iff {w : World} {s : State} :
    blockTurn w s = .fault .unbackedMemory ↔
      Transferring s.cb ∧ AtUnbackedMemory w s ∧ (s.cb.aln = true → isAligned s.cb.buf = true) := by
  by_cases hm : ∃ k, s.cb.ph = .mem k
  · obtain ⟨k, hp⟩ := hm
    by_cases ht : Transferring s.cb
    · by_cases hal : s.cb.aln = true → isAligned s.cb.buf = true
      · obtain ⟨t, hturn⟩ := blockTurn_mem_onBacked w hp ht hal
        rw [hturn, onBacked_next_stuck_iff, atUnbackedMemory_iff hp]
        exact ⟨fun hb => ⟨ht, hb, hal⟩, fun ⟨_, hb, _⟩ => hb⟩
      · obtain ⟨ha, hbuf⟩ := Classical.not_imp.1 hal
        simp [blockTurn_mem_misaligned w hp ht ha hbuf, ha, hbuf]
    · simp [blockTurn_mem_noTransfer w hp ht, ht]
  · have hno : ¬ AtUnbackedMemory w s := fun ⟨k, hp, _⟩ => hm ⟨k, hp⟩
    rcases blockTurn_outside_mem w (not_exists.1 hm) with ⟨t, hturn⟩ | ⟨_, _, hturn⟩
    · simp [hturn, hno]
    · simp [hturn, hno]

/-- Settles O54: the invariant gives every running phase an operation, and MEM a transfer whose buffer
fits its path. -/
theorem blockTurnStopsAtUnbackedMemoryOnly : Obligations.BlockTurnStopsAtUnbackedMemoryOnly := by
  intro w s hi
  have hal (ht : Transferring s.cb) (ha : s.cb.aln = true) : isAligned s.cb.buf = true :=
    (hi.aln_eq ht).symm.trans ha
  refine ⟨fun hno => ?_, fun hun => ?_⟩
  · by_cases hm : ∃ k, s.cb.ph = .mem k
    · obtain ⟨k, hp⟩ := hm
      obtain ⟨ht, -⟩ := hi.mem_slot k hp
      obtain ⟨t, hturn⟩ := blockTurn_mem_onBacked w hp ht (hal ht)
      rw [atUnbackedMemory_iff hp, Bool.not_eq_false] at hno
      exact ⟨t, hturn.trans (onBacked_backed hno _)⟩
    · rcases blockTurn_outside_mem w (not_exists.1 hm) with hnext | ⟨hk, hp, -⟩
      · exact hnext
      · exact absurd (hi.opk_iff.1 hk) hp
  · have ⟨k, hp, _⟩ := hun
    obtain ⟨ht, -⟩ := hi.mem_slot k hp
    exact blockTurn_stuck_iff.2 ⟨ht, hun, hal ht⟩

/-! ### No input stops for want of memory -/

theorem launchTransfer_ne_fault (p : Params) (start : Cbseq → Cbseq) (s : State) (r : Fault) :
    launchTransfer p start s ≠ .fault r := by
  unfold launchTransfer
  split <;> nofun

/-- The acceptance of an operation ends in a next state or in a refusal. -/
theorem execIn_ne_fault (w : World) (i : Instr) (s : State) (r : Fault) : execIn w i s ≠ .fault r := by
  by_cases hr : s.cb.stat.run = true
  · rw [execIn_running w i hr]
    nofun
  · have hr : s.cb.stat.run = false := by simpa using hr
    cases i with
    | build cc => rw [execIn, buildIn, whenIdle_idle hr]; nofun
    | buildc cc => rw [execIn, buildcIn, whenIdle_idle hr]; nofun
    | waitrdy => rw [execIn, waitrdyIn, whenIdle_idle hr]; nofun
    | xferrd => rw [execIn, xferrdIn, whenIdle_idle hr]; exact launchTransfer_ne_fault _ _ s r
    | xferwr => rw [execIn, xferwrIn, whenIdle_idle hr]; exact launchTransfer_ne_fault _ _ s r

theorem hostWrite_ne_fault (w : World) (off v : Word) (s : State) (r : Fault) :
    hostWrite (execIn w) off v s ≠ .fault r := by
  unfold hostWrite writeOp
  split
  · nofun
  · split
    · split
      · exact execIn_ne_fault w _ s r
      · nofun
    · nofun

theorem hostOwn_next_ne_fault (w : World) (a : Word) (t : State) (r : Fault) :
    hostOwn w a (.next t) ≠ .fault r := by
  unfold hostOwn
  split
  · nofun
  · split <;> nofun

/-- An input ends in a next state or in a refusal. -/
theorem deliver_ne_fault (w : World) (x : Input) (s : State) (r : Fault) :
    deliver w (execIn w) x s ≠ .fault r := by
  cases x with
  | write off width v =>
    unfold deliver
    dsimp only
    split
    · exact hostWrite_ne_fault w off v _ r
    · nofun
  | read off width =>
    unfold deliver
    dsimp only
    split <;> nofun
  | sync => nofun
  | poke a b => exact hostOwn_next_ne_fault w a _ r
  | peek a => exact hostOwn_next_ne_fault w a _ r
  | reset => nofun

/-- Settles O59: a quiet step is a turn, stuck by `blockTurn_stuck_iff`; a due input is never stuck. -/
theorem unbackedTransactionIsStuck : Obligations.UnbackedTransactionIsStuck := by
  intro w s
  rw [← isAligned_iff]
  rcases quiet_or_due s with hq | ⟨x, ps, hin⟩
  · rw [stepIn_quiet w hq, blockTurn_stuck_iff]
    exact (and_iff_right hq).symm
  · rw [stepIn_due w hin]
    exact ⟨fun h => absurd h (deliver_ne_fault w x _ _),
      fun ⟨hq, _⟩ => absurd hin (not_quiet_of_due · hq)⟩

end Sys2Proof.Machine
end

section
/-!
PROOFS. The encoding (spec/30_encoding.md R70 to R79): operation words and the rows of the operation
table, and the command frame as it is built and as it goes on the wire.
-/

namespace Sys2Proof.Machine

/-! ### Decoding and encoding -/

theorem decode_encode (i : Instr) : decode (encode i) = .ok i := by
  cases i with
  | build cc =>
    obtain ⟨hfn, hcc, hres⟩ := opWord_fields cc 0x01
    simp only [encode, decode, hfn, hcc, hres]
    rfl
  | buildc cc =>
    obtain ⟨hfn, hcc, hres⟩ := opWord_fields cc 0x02
    simp only [encode, decode, hfn, hcc, hres]
    rfl
  | waitrdy => decide
  | xferrd => decide
  | xferwr => decide

theorem decode_eq_ok_iff {v : Word} {i : Instr} : decode v = .ok i ↔ v = encode i :=
  ⟨eq_encode_of_decode, fun h => h ▸ decode_encode i⟩

/-- No two operations have one word. -/
theorem encode_injective : Function.Injective encode := fun i j h =>
  Except.ok.inj (((decode_encode i).symm.trans (congrArg decode h)).trans (decode_encode j))

/-- Settles O1: `decode` inverts `encode`, and a word decoded is the word of its operation. -/
theorem decodeInvertsEncode : Obligations.DecodeInvertsEncode := fun _ _ => decode_eq_ok_iff

/-- Settles O4: five words of operations, and three with one defect each. -/
theorem sampleWordsDecode : Obligations.SampleWordsDecode :=
  ⟨decode_encode (.build 0xC9), decode_encode (.buildc 0xC5), decode_encode .waitrdy,
    decode_encode .xferrd, decode_encode .xferwr, by decide, by decide, by decide⟩

/-! ### The rows of the operation table -/

/-- The row of R71 that an operation belongs to. -/
def opRow : Instr → OpRow
  | .build _ => ⟨"BUILD", 0x00000001, 0xFFFF00FF⟩
  | .buildc _ => ⟨"BUILDC", 0x00000002, 0xFFFF00FF⟩
  | .waitrdy => ⟨"WAITRDY", 0x00000003, 0xFFFFFFFF⟩
  | .xferrd => ⟨"XFERRD", 0x00000004, 0xFFFFFFFF⟩
  | .xferwr => ⟨"XFERWR", 0x00000005, 0xFFFFFFFF⟩

/-- The immediate of the operation, if it has one, is `cc`. -/
def CmdopIs (i : Instr) (cc : Byte) : Prop := ∀ c, i = .build c ∨ i = .buildc c → c = cc

@[simp] theorem cmdopIs_build {c cc : Byte} : CmdopIs (.build c) cc ↔ c = cc := by simp [CmdopIs]

@[simp] theorem cmdopIs_buildc {c cc : Byte} : CmdopIs (.buildc c) cc ↔ c = cc := by simp [CmdopIs]

@[simp] theorem cmdopIs_waitrdy (cc : Byte) : CmdopIs .waitrdy cc := nofun

@[simp] theorem cmdopIs_xferrd (cc : Byte) : CmdopIs .xferrd cc := nofun

@[simp] theorem cmdopIs_xferwr (cc : Byte) : CmdopIs .xferwr cc := nofun

theorem opRow_mem (i : Instr) : opRow i ∈ opRows := by
  cases i <;> simp [opRow, opRows]

theorem opRow_mnemonic (i : Instr) : (opRow i).mnemonic = i.mnemonic := by
  cases i <;> rfl

/-- The mnemonics of the table are distinct. -/
theorem row_eq_of_mnemonic :
    ∀ r ∈ opRows, ∀ r' ∈ opRows, r.mnemonic = r'.mnemonic → r = r' := by decide

theorem eq_opRow_iff {r : OpRow} {i : Instr} :
    r = opRow i ↔ r ∈ opRows ∧ r.mnemonic = i.mnemonic := by
  rw [← opRow_mnemonic]
  constructor
  · rintro rfl
    exact ⟨opRow_mem i, rfl⟩
  · exact fun ⟨hr, hm⟩ => row_eq_of_mnemonic r hr _ (opRow_mem i) hm

/-- Every row has an operation with any wanted immediate. -/
theorem exists_opRow {r : OpRow} (hr : r ∈ opRows) (cc : Byte) : ∃ i, r = opRow i ∧ CmdopIs i cc := by
  simp only [opRows, List.mem_cons, List.not_mem_nil, or_false] at hr
  rcases hr with rfl | rfl | rfl | rfl | rfl
  · exact ⟨.build cc, rfl, by simp⟩
  · exact ⟨.buildc cc, rfl, by simp⟩
  · exact ⟨.waitrdy, rfl, by simp⟩
  · exact ⟨.xferrd, rfl, by simp⟩
  · exact ⟨.xferwr, rfl, by simp⟩

/-- Under the mask of BUILD and BUILDC a word shows its reserved bits and FN. -/
theorem fields_mask (v : Word) :
    reservedField (v &&& 0xFFFF00FF) = reservedField v ∧ fnField (v &&& 0xFFFF00FF) = fnField v := by
  have hhigh : (0xFFFF00FF : Word).extractLsb' 16 16 = BitVec.allOnes 16 := by decide
  have hlow : (0xFFFF00FF : Word).extractLsb' 0 8 = BitVec.allOnes 8 := by decide
  simp only [reservedField, fnField, BitVec.extractLsb'_and, hhigh, hlow, BitVec.and_allOnes,
    and_self]

/-- The mask of BUILD and BUILDC fixes all of a word but CMDOP. -/
theorem mask_eq_opWord_iff {v : Word} {fn : Byte} :
    v &&& 0xFFFF00FF = opWord 0 fn ↔ v = opWord (cmdopField v) fn := by
  constructor
  · intro h
    obtain ⟨hres, hfn⟩ := fields_mask v
    obtain ⟨hfn', -, hres'⟩ := opWord_fields 0 fn
    rw [h] at hres hfn
    obtain rfl : fn = fnField v := hfn'.symm.trans hfn
    exact (opWord_of_fields (hres.symm.trans hres')).symm
  · intro h
    rw [h, Laws.TableRow.mask_opWord]

/-- A word that FN and CMDOP make up has that CMDOP. -/
theorem eq_opWord_iff {v : Word} {cc fn : Byte} :
    v = opWord cc fn ↔ v = opWord (cmdopField v) fn ∧ cc = cmdopField v := by
  constructor
  · rintro rfl
    obtain ⟨-, hcc, -⟩ := opWord_fields cc fn
    exact ⟨by rw [hcc], hcc.symm⟩
  · rintro ⟨h, rfl⟩
    exact h

/-- R71: a word is that of an operation exactly when it selects the operation's row and has its
immediate in CMDOP. -/
theorem eq_encode_iff {v : Word} {i : Instr} :
    v = encode i ↔ v &&& (opRow i).mask = (opRow i).bits ∧ CmdopIs i (cmdopField v) := by
  have himm {cc fn : Byte} : v = opWord cc fn ↔
      v &&& 0xFFFF00FF = opWord 0 fn ∧ cc = cmdopField v :=
    eq_opWord_iff.trans (and_congr_left' mask_eq_opWord_iff.symm)
  have hplain {u : Word} : v = u ↔ v &&& 0xFFFFFFFF = u := by
    rw [show v &&& 0xFFFFFFFF = v from BitVec.and_allOnes]
  cases i with
  | build cc => rw [cmdopIs_build]; exact himm
  | buildc cc => rw [cmdopIs_buildc]; exact himm
  | waitrdy => exact hplain.trans (and_iff_left (cmdopIs_waitrdy _)).symm
  | xferrd => exact hplain.trans (and_iff_left (cmdopIs_xferrd _)).symm
  | xferwr => exact hplain.trans (and_iff_left (cmdopIs_xferwr _)).symm

/-- The rows a word selects are those of the operations it is a word of. -/
theorem selects_iff {v : Word} {r : OpRow} :
    r ∈ opRows ∧ v &&& r.mask = r.bits ↔ ∃ i, r = opRow i ∧ v = encode i := by
  constructor
  · rintro ⟨hr, hv⟩
    obtain ⟨i, rfl, hcc⟩ := exists_opRow hr (cmdopField v)
    exact ⟨i, rfl, eq_encode_iff.2 ⟨hv, hcc⟩⟩
  · rintro ⟨i, rfl, hv⟩
    exact ⟨opRow_mem i, (eq_encode_iff.1 hv).1⟩

/-- Settles O3: the row selected is that of the one operation whose word it is. -/
theorem tableRowSelectsOperation : Obligations.TableRowSelectsOperation := by
  refine fun v => ⟨fun r hr r' hr' hv hv' => ?_, fun i => ?_⟩
  · obtain ⟨i, rfl, hi⟩ := selects_iff.1 ⟨hr, hv⟩
    obtain ⟨j, rfl, hj⟩ := selects_iff.1 ⟨hr', hv'⟩
    rw [encode_injective (hi.symm.trans hj)]
  · rw [decode_eq_ok_iff, eq_encode_iff]
    constructor
    · rintro ⟨hv, hcc⟩
      exact ⟨opRow i, opRow_mem i, hv, opRow_mnemonic i, hcc⟩
    · rintro ⟨r, hr, hv, hm, hcc⟩
      obtain rfl := eq_opRow_iff.2 ⟨hr, hm⟩
      exact ⟨hv, hcc⟩

/-! ### Legal operation words -/

/-- R72: a word is legal when it is the word of an operation that the configuration has. -/
theorem legalWord_iff {p : Params} {v : Word} :
    legalWord p v = true ↔ ∃ i, v = encode i ∧ i.wellFormed p = true := by
  constructor
  · intro h
    cases hd : decode v with
    | ok i => exact ⟨i, eq_encode_of_decode hd, legalWord_of_decode hd p ▸ h⟩
    | error r => rw [legalWord_of_reject hd] at h; cases h
  · rintro ⟨i, rfl, hi⟩
    rw [legalWord_of_decode (decode_encode i), hi]

theorem wellFormed_iff {p : Params} {i : Instr} :
    i.wellFormed p = true ↔ ((opRow i).mnemonic = "BUILDC" → p.hasCksum = true) := by
  cases i <;> simp [Instr.wellFormed, opRow]

/-- Settles O2: a legal word is the word of a well-formed operation, found by its row or by its
constructor. -/
theorem legalOperationWords : Obligations.LegalOperationWords := by
  refine fun p v => ⟨?_, ?_⟩ <;> rw [legalWord_iff]
  · constructor
    · rintro ⟨i, hv, hi⟩
      obtain ⟨hr, hsel⟩ := selects_iff.2 ⟨i, rfl, hv⟩
      exact ⟨opRow i, hr, hsel, wellFormed_iff.1 hi⟩
    · rintro ⟨r, hr, hsel, hck⟩
      obtain ⟨i, rfl, hv⟩ := selects_iff.1 ⟨hr, hsel⟩
      exact ⟨i, hv, wellFormed_iff.2 hck⟩
  · constructor
    · rintro ⟨i, rfl, hi⟩
      cases i with
      | build cc => exact .inl ⟨cc, rfl⟩
      | buildc cc => exact .inr (.inl ⟨hi, cc, rfl⟩)
      | waitrdy => exact .inr (.inr (.inl rfl))
      | xferrd => exact .inr (.inr (.inr (.inl rfl)))
      | xferwr => exact .inr (.inr (.inr (.inr rfl)))
    · rintro (⟨cc, rfl⟩ | ⟨hck, cc, rfl⟩ | rfl | rfl | rfl)
      · exact ⟨.build cc, rfl, rfl⟩
      · exact ⟨.buildc cc, rfl, hck⟩
      · exact ⟨.waitrdy, rfl, rfl⟩
      · exact ⟨.xferrd, rfl, rfl⟩
      · exact ⟨.xferwr, rfl, rfl⟩

/-! ### The built frame -/

theorem execIn_build_idle (w : World) (cc : Byte) {s : State} (hr : s.cb.stat.run = false) :
    execIn w (.build cc) s = .next (s.mapCb (finishBuild w.params (.build cc) cc 0)) :=
  whenIdle_idle hr _

theorem execIn_buildc_idle {w : World} (cc : Byte) {s : State} (hr : s.cb.stat.run = false)
    (hck : w.params.hasCksum = true) :
    execIn w (.buildc cc) s =
      .next (s.mapCb (finishBuild w.params (.buildc cc) cc (checksum s.cb.addr))) := by
  rw [execIn, buildcIn, whenIdle_idle hr]
  simp only [State.mapCb, hck, if_true]

/-- R75: opcode, address from its most significant byte, the byte after the address. -/
theorem buildFrame_byte0 {p : Params} (h : p.opcodePos = .byte0) (opc : Byte) (addr : Word)
    (x : Byte) : buildFrame p opc addr x =
      #v[opc, byteOf addr 3, byteOf addr 2, byteOf addr 1, byteOf addr 0, x, 0, 0] := by
  rw [buildFrame, h]

/-- R76: the mirror image of R75. -/
theorem buildFrame_byte7 {p : Params} (h : p.opcodePos = .byte7) (opc : Byte) (addr : Word)
    (x : Byte) : buildFrame p opc addr x =
      #v[0, 0, x, byteOf addr 0, byteOf addr 1, byteOf addr 2, byteOf addr 3, opc] := by
  rw [buildFrame, h]

/-- The place in FRAME of the byte after the address (R75, R76, R77). -/
def cksumIndex (p : Params) : Fin 8 :=
  match p.opcodePos with
  | .byte0 => 5
  | .byte7 => 2

theorem cksumIndex_byte0 {p : Params} (h : p.opcodePos = .byte0) : cksumIndex p = 5 := by
  rw [cksumIndex, h]

theorem cksumIndex_byte7 {p : Params} (h : p.opcodePos = .byte7) : cksumIndex p = 2 := by
  rw [cksumIndex, h]

/-- The byte after the address stands in one place of the frame. -/
theorem buildFrame_eq_set (p : Params) (opc : Byte) (addr : Word) (x : Byte) :
    buildFrame p opc addr x = (buildFrame p opc addr 0).set (cksumIndex p) x := by
  cases h : p.opcodePos with
  | byte0 => simp only [buildFrame_byte0 h, cksumIndex, h]; rfl
  | byte7 => simp only [buildFrame_byte7 h, cksumIndex, h]; rfl

theorem buildFrame_eq_outside_cksum (p : Params) (opc : Byte) (addr : Word) (x : Byte) {k : Fin 8}
    (hk : k ≠ cksumIndex p) : (buildFrame p opc addr x)[k] = (buildFrame p opc addr 0)[k] := by
  rw [buildFrame_eq_set]
  exact Vector.getElem_set_ne _ _ fun h => hk (Fin.ext h.symm)

/-- R77 in the layout of R75: the checksum, the address it is made of, and BUILD's zero. -/
theorem buildFrame_byte0_cksum {p : Params} (h : p.opcodePos = .byte0) (opc : Byte) (addr : Word) :
    let f := buildFrame p opc addr (checksum addr)
    f[5] = f[1] ^^^ f[2] ^^^ f[3] ^^^ f[4] ∧ f[1] ++ f[2] ++ f[3] ++ f[4] = addr ∧
      (buildFrame p opc addr 0)[5] = 0 := by
  rw [buildFrame_byte0 h, buildFrame_byte0 h]
  exact ⟨rfl, wordOf_byteOf addr, rfl⟩

/-- R77 in the layout of R76. -/
theorem buildFrame_byte7_cksum {p : Params} (h : p.opcodePos = .byte7) (opc : Byte) (addr : Word) :
    let f := buildFrame p opc addr (checksum addr)
    f[2] = f[6] ^^^ f[5] ^^^ f[4] ^^^ f[3] ∧ f[6] ++ f[5] ++ f[4] ++ f[3] = addr ∧
      (buildFrame p opc addr 0)[2] = 0 := by
  rw [buildFrame_byte7 h, buildFrame_byte7 h]
  exact ⟨rfl, wordOf_byteOf addr, rfl⟩

/-- Settles O22: both builders complete, with frames that differ in the byte after the address. -/
theorem checksumIsXorOfAddressBytes : Obligations.ChecksumIsXorOfAddressBytes := by
  intro w cc s hr hck
  refine ⟨_, _, execIn_buildc_idle cc hr hck, execIn_build_idle w cc hr, fun h => ?_, fun h => ?_⟩
  · obtain ⟨hxor, haddr, hzero⟩ := buildFrame_byte0_cksum h cc s.cb.addr
    exact ⟨hxor, haddr, hzero, fun k hk =>
      buildFrame_eq_outside_cksum _ _ _ _ (cksumIndex_byte0 h ▸ hk)⟩
  · obtain ⟨hxor, haddr, hzero⟩ := buildFrame_byte7_cksum h cc s.cb.addr
    exact ⟨hxor, haddr, hzero, fun k hk =>
      buildFrame_eq_outside_cksum _ _ _ _ (cksumIndex_byte7 h ▸ hk)⟩

/-! ### The wire frame -/

theorem Frame.mirror_getElem (f : Frame) (k : Fin 8) : (Frame.mirror f)[k] = f[k.rev] := by
  match k with
  | 0 | 1 | 2 | 3 | 4 | 5 | 6 | 7 => rfl

/-- R78, R96: CMD[k] holds the byte of FRAME that Issue writes there. -/
theorem wireFrame_getElem (p : Params) (f : Frame) (k : Fin 8) :
    (wireFrame p f)[k] = f[cmdIndex p k] := by
  unfold wireFrame cmdIndex
  split
  · exact Frame.mirror_getElem f k
  · rfl

theorem wireFrame_plain {p : Params} (h : p.issueMirror = false) (f : Frame) :
    wireFrame p f = f := by
  simp [wireFrame, h]

theorem wireFrame_mirror {p : Params} (h : p.issueMirror = true) (f : Frame) :
    wireFrame p f = Frame.mirror f := by
  simp [wireFrame, h]

/-- The rows (0, false) and (7, true) of R79: the opcode is first on the wire. -/
theorem wireFrame_buildFrame_opcodeFirst {p : Params}
    (h : p.opcodePos = .byte0 ↔ p.issueMirror = false) (opc : Byte) (addr : Word) (x : Byte) :
    wireFrame p (buildFrame p opc addr x) =
      #v[opc, byteOf addr 3, byteOf addr 2, byteOf addr 1, byteOf addr 0, x, 0, 0] := by
  cases hpos : p.opcodePos with
  | byte0 => rw [wireFrame_plain (h.1 hpos), buildFrame_byte0 hpos]
  | byte7 =>
    have hm : p.issueMirror = true := by simpa [hpos] using h
    rw [wireFrame_mirror hm, buildFrame_byte7 hpos]
    rfl

/-- The rows (0, true) and (7, false) of R79: the opcode is last on the wire. -/
theorem wireFrame_buildFrame_opcodeLast {p : Params}
    (h : p.opcodePos = .byte7 ↔ p.issueMirror = false) (opc : Byte) (addr : Word) (x : Byte) :
    wireFrame p (buildFrame p opc addr x) =
      #v[0, 0, x, byteOf addr 0, byteOf addr 1, byteOf addr 2, byteOf addr 3, opc] := by
  cases hpos : p.opcodePos with
  | byte0 =>
    have hm : p.issueMirror = true := by simpa [hpos] using h
    rw [wireFrame_mirror hm, buildFrame_byte0 hpos]
    rfl
  | byte7 => rw [wireFrame_plain (h.1 hpos), buildFrame_byte7 hpos]

/-- Settles O23: the wire frame byte by byte, and R79's rows two by two. -/
theorem wireFrameOfBuiltFrame : Obligations.WireFrameOfBuiltFrame := fun p opc x addr =>
  ⟨wireFrame_getElem p _, fun h => wireFrame_buildFrame_opcodeFirst h opc addr x,
    fun h => wireFrame_buildFrame_opcodeLast h opc addr x⟩

end Sys2Proof.Machine
end

section
/-!
PROOFS. The launch invariant (spec/40_frame_builder.md R96, R97): what each phase of Issue adds to
the record of ports B and M, and that no other turn and no input writes CTRL or enters Issue
half-way.
-/

namespace Sys2Proof.Machine

open Sys2Proof.Safety

/-! ### The phases that the launch invariant speaks of -/

/-- ISS_CMD(t) and START: the phases in which a launch has made some of its writes (R20). -/
def Phase.inIssue : Phase → Bool
  | .issCmd _ => true
  | .start => true
  | _ => false

theorem ite_outsideIssue {b : Prop} [Decidable b] {c d : Cbseq} (hc : c.ph.inIssue = false)
    (hd : d.ph.inIssue = false) : (if b then c else d).ph.inIssue = false := by
  split
  · exact hc
  · exact hd

theorem boundThen_outsideIssue (p : Params) {x : Phase} (hx : x.inIssue = false) (c : Cbseq) :
    (c.boundThen p x).ph.inIssue = false := ite_outsideIssue rfl hx

theorem waitDecision_outsideIssue (p : Params) (c : Cbseq) :
    (waitDecision p c).ph.inIssue = false :=
  ite_outsideIssue (boundThen_outsideIssue p rfl c)
    (ite_outsideIssue rfl (boundThen_outsideIssue p rfl c))

theorem transferDecision_outsideIssue (p : Params) (c : Cbseq) :
    (transferDecision p c).ph.inIssue = false :=
  ite_outsideIssue (boundThen_outsideIssue p rfl c) rfl

theorem takeWord_outsideIssue (p : Params) (v : Word) (c : Cbseq) :
    (takeWord p v c).ph.inIssue = false :=
  ite_outsideIssue rfl (transferDecision_outsideIssue p _)

theorem chooseWord_outsideIssue (p : Params) (c : Cbseq) :
    (chooseWord p c).ph.inIssue = false := ite_outsideIssue rfl rfl

theorem afterStoreByte_outsideIssue (p : Params) (k : Fin 4) (c : Cbseq) :
    (afterStoreByte p k c).ph.inIssue = false := by
  unfold afterStoreByte
  split
  · rfl
  · exact transferDecision_outsideIssue p _

theorem afterLoadByte_outsideIssue (k : Fin 4) (b : Byte) (c : Cbseq) :
    (afterLoadByte k b c).ph.inIssue = false := by
  unfold afterLoadByte
  split <;> rfl

/-! ### The invariant, established -/

theorem issuedBefore_succ (p : Params) (f : Frame) (t : Fin 8) :
    issuedBefore p f (t.val + 1) = cmdWrite p f t :: issuedBefore p f t.val := by
  rw [issuedBefore, dif_pos t.isLt]
  rfl

/-- Outside ISS_CMD(t) and START the launch invariant is `LaunchesWhole` alone. -/
theorem launchInv_of_outsideIssue {p : Params} {s : State}
    (hw : LaunchesWhole p (blockTrace s.trace)) (hp : s.cb.ph.inIssue = false) : LaunchInv p s where
  whole := hw
  issuing t ht := by simp [ht, Phase.inIssue] at hp
  starting ht := by simp [ht, Phase.inIssue] at hp

/-- With `k` bytes of FRAME issued and the phase to match, the launch invariant holds. -/
theorem launchInv_of_issued {p : Params} {s : State} {k : Nat} (hk : k ≤ 8)
    (hw : LaunchesWhole p (blockTrace s.trace)) (hp : s.cb.ph = issuePhase k)
    (hi : issuedBefore p s.cb.frame k <+: blockTrace s.trace) : LaunchInv p s where
  whole := hw
  issuing t ht := by
    rw [hp, issuePhase] at ht
    split at ht
    · injection ht with ht
      exact ht ▸ hi
    · cases ht
  starting ht := by
    rw [hp, issuePhase] at ht
    split at ht
    · cases ht
    · obtain rfl : k = 8 := by omega
      exact hi

/-! ### Records with one transaction more -/

/-- A transaction that writes no CTRL leaves the launches of a record whole. -/
theorem launchesWhole_cons {p : Params} {e : Event} {es : List Event} (h : LaunchesWhole p es)
    (he : ∀ flags, e ≠ ctrlWrite p flags) : LaunchesWhole p (e :: es) :=
  ⟨fun flags hf => absurd hf (he flags), h⟩

theorem enWrite_ne_ctrlWrite (p : Params) (flags : Word) : enWrite p ≠ ctrlWrite p flags := by
  simp [enWrite, ctrlWrite]

theorem cmdWrite_ne_ctrlWrite (p : Params) (f : Frame) (t : Fin 8) (flags : Word) :
    cmdWrite p f t ≠ ctrlWrite p flags := by
  simp [cmdWrite, ctrlWrite]

theorem busRead_ne_ctrlWrite (p : Params) (a v flags : Word) :
    .bus ⟨.read, a, .word, v⟩ ≠ ctrlWrite p flags := by
  simp [ctrlWrite]

/-- DATA is not CTRL (R52). -/
theorem dataWrite_ne_ctrlWrite {p : Params} (h : p.Legal) (v flags : Word) :
    .bus ⟨.write, p.dataAddr, .word, v⟩ ≠ ctrlWrite p flags := by
  simp [ctrlWrite, data_ne_ctrl h]

theorem mem_ne_ctrlWrite (p : Params) (a : Access) (flags : Word) :
    .mem a ≠ ctrlWrite p flags := nofun

/-! ### Kept by every turn, every input, every step -/

/-- Issue adds its next write, START its CTRL write after the ninth; no other turn writes CTRL or
goes to a phase inside Issue. -/
theorem Turned.launchInv {w : World} {s t : State} (hl : w.params.Legal) (h : Turned w s t)
    (hi : LaunchInv w.params s) : LaunchInv w.params t := by
  obtain ⟨hw, hissuing, hstarting⟩ := hi
  cases h with
  | idle hp => exact ⟨hw, hissuing, hstarting⟩
  | issEn hp =>
    exact launchInv_of_issued (Nat.zero_le 8) (launchesWhole_cons hw (enWrite_ne_ctrlWrite _)) rfl
      (List.prefix_append [_] _)
  | issCmd i hp =>
    refine launchInv_of_issued i.isLt (launchesWhole_cons hw (cmdWrite_ne_ctrlWrite _ _ _)) rfl ?_
    rw [issuedBefore_succ]
    exact List.cons_prefix_cons.2 ⟨rfl, hissuing i hp⟩
  | start hp =>
    exact launchInv_of_outsideIssue ⟨fun _ _ => ⟨s.cb.frame, hstarting hp⟩, hw⟩ rfl
  | waitPoll hp hk =>
    exact launchInv_of_outsideIssue (launchesWhole_cons hw (busRead_ne_ctrlWrite _ _ _))
      (ite_outsideIssue rfl (waitDecision_outsideIssue _ _))
  | readPoll hp hk =>
    exact launchInv_of_outsideIssue (launchesWhole_cons hw (busRead_ne_ctrlWrite _ _ _))
      (ite_outsideIssue rfl (transferDecision_outsideIssue _ _))
  | writePoll hp hk =>
    exact launchInv_of_outsideIssue (launchesWhole_cons hw (busRead_ne_ctrlWrite _ _ _))
      (ite_outsideIssue (chooseWord_outsideIssue _ _) (transferDecision_outsideIssue _ _))
  | waitData hp hk =>
    exact launchInv_of_outsideIssue (launchesWhole_cons hw (busRead_ne_ctrlWrite _ _ _))
      (waitDecision_outsideIssue _ _)
  | readData hp hk =>
    exact launchInv_of_outsideIssue (launchesWhole_cons hw (busRead_ne_ctrlWrite _ _ _))
      (takeWord_outsideIssue _ _ _)
  | writeData hp hk =>
    exact launchInv_of_outsideIssue (launchesWhole_cons hw (dataWrite_ne_ctrlWrite hl _))
      (transferDecision_outsideIssue _ _)
  | storeWord k hp hk ha hs hb =>
    exact launchInv_of_outsideIssue (launchesWhole_cons hw (mem_ne_ctrlWrite _ _))
      (transferDecision_outsideIssue _ _)
  | storeByte k hp hk ha hb =>
    exact launchInv_of_outsideIssue (launchesWhole_cons hw (mem_ne_ctrlWrite _ _))
      (afterStoreByte_outsideIssue _ _ _)
  | loadWord k hp hk ha hs hb =>
    exact launchInv_of_outsideIssue (launchesWhole_cons hw (mem_ne_ctrlWrite _ _)) rfl
  | loadByte k hp hk ha hb =>
    exact launchInv_of_outsideIssue (launchesWhole_cons hw (mem_ne_ctrlWrite _ _))
      (afterLoadByte_outsideIssue _ _ _)

/-- The acceptance of an operation leaves an idle block idle or takes it to ISS_EN (R13). -/
theorem Accepted.outsideIssue {w : World} {s t : State} {i : Instr} (h : Accepted w s i t)
    (hp : s.cb.ph = .idle) : t.cb.ph.inIssue = false := by
  cases h with
  | illegal cc hc => exact congrArg Phase.inIssue hp
  | _ => rfl

/-- An input leaves phase and frame as they are, or leaves the block outside Issue: the host's
writes of FRAME take effect in IDLE only (R12, R97). -/
theorem Delivered.issue_kept {w : World} {s t : State} {x : Input} (h : Delivered w s x t)
    (hi : RegInv s.cb) :
    (t.cb.ph = s.cb.ph ∧ t.cb.frame = s.cb.frame) ∨ t.cb.ph.inIssue = false := by
  cases h with
  | accept v i _ hr hd ha => exact .inr (ha.outsideIssue (hi.rest hr).2)
  | reg off v hr h0 => exact .inr (by simp [(hi.rest hr).2, Phase.inIssue])
  | sync => simp
  | reset => exact .inr rfl
  | _ => exact .inl ⟨rfl, rfl⟩

theorem Delivered.launchInv {w : World} {s t : State} {x : Input} (h : Delivered w s x t)
    (hc : RegInv s.cb) {p : Params} (hi : LaunchInv p s) : LaunchInv p t := by
  have hw : LaunchesWhole p (Safety.blockTrace t.trace) := h.blockTrace ▸ hi.whole
  rcases h.issue_kept hc with ⟨hp, hf⟩ | hp
  · refine ⟨hw, ?_, ?_⟩
    · rw [hp, hf, h.blockTrace]
      exact hi.issuing
    · rw [hp, hf, h.blockTrace]
      exact hi.starting
  · exact launchInv_of_outsideIssue hw hp

/-- Taking an input from the queue does not touch the launch invariant. -/
theorem launchInv_setInputs {p : Params} {s : State} (h : LaunchInv p s) (ps : List Pending) :
    LaunchInv p (s.setInputs ps) := ⟨h.whole, h.issuing, h.starting⟩

/-- Every step in a world of a legal configuration keeps the launch invariant. -/
theorem stepIn_launchInv {w : World} {s t : State} (hl : w.params.Legal) (hi : Inv s)
    (hs : LaunchInv w.params s) (h : stepIn w s = .next t) : LaunchInv w.params t := by
  rcases stepIn_next h with ⟨_, hturn⟩ | ⟨x, ps, _, hd⟩
  · exact hturn.launchInv hl (launchInv_setInputs hs _)
  · exact hd.launchInv (inv_iff.1 hi).1 (launchInv_setInputs hs _)

/-- Settles O26: every turn and every input keeps the invariant, the configuration being legal. -/
theorem launchInvariantKept : Obligations.LaunchInvariantKept := fun s _ hi hs h =>
  stepIn_launchInv config_legal hi hs (step_eq_stepIn s ▸ h)

/-- Settles O27: at reset the record is empty and the block idle. -/
theorem launchInvariantAtReset : Obligations.LaunchInvariantAtReset := fun _ =>
  launchInv_of_outsideIssue trivial rfl

end Sys2Proof.Machine
end

section
/-!
PROOFS. BUILD and BUILDC (spec/40_frame_builder.md R90 to R95): the frames they write, in the two
layouts of spec/30_encoding.md R75 and R76, and what they leave alone.
-/

namespace Sys2Proof.Machine

/-! ### What the builders answer -/

/-- R93: BUILDC where `HAS_CKSUM` is false. -/
theorem execIn_buildc_illegal {w : World} (cc : Byte) {s : State} (hr : s.cb.stat.run = false)
    (hck : w.params.hasCksum = false) :
    execIn w (.buildc cc) s = .next (s.mapCb (Cbseq.raise .illegal)) := by
  rw [execIn, buildcIn, whenIdle_idle hr]
  simp [hck]

/-- The two layouts (R75, R76), the address bytes as slices of the word. -/
theorem buildFrame_eq (p : Params) (opc : Byte) (addr : Word) (x : Byte) :
    buildFrame p opc addr x = match p.opcodePos with
      | .byte0 => #v[opc, addr.extractLsb 31 24, addr.extractLsb 23 16, addr.extractLsb 15 8,
          addr.extractLsb 7 0, x, 0x00, 0x00]
      | .byte7 => #v[0x00, 0x00, x, addr.extractLsb 7 0, addr.extractLsb 15 8,
          addr.extractLsb 23 16, addr.extractLsb 31 24, opc] := by
  cases h : p.opcodePos with
  | byte0 => exact buildFrame_byte0 h opc addr x
  | byte7 => exact buildFrame_byte7 h opc addr x

/-- R77, the address bytes as slices of the word. -/
theorem checksum_eq (addr : Word) : checksum addr =
    addr.extractLsb 31 24 ^^^ addr.extractLsb 23 16 ^^^ addr.extractLsb 15 8 ^^^
      addr.extractLsb 7 0 := rfl

/-- The acceptance and completion of a builder, register by register (R13, R21, R91, R93). -/
theorem mapCb_finishBuild (p : Params) (i : Instr) (opc x : Byte) (s : State) :
    s.mapCb (finishBuild p i opc x) = { s with cb := { s.cb with
      op := encode i
      frame := buildFrame p opc s.cb.addr x
      stat := { s.cb.stat with done := true, run := false }
      opk := .none
      ph := .idle } } := rfl

/-- Settles O19: BUILD completes at once in an idle block, and is dropped by a running one. -/
theorem buildWritesPlainFrame : Obligations.BuildWritesPlainFrame := by
  intro cc s
  rw [exec_eq_execIn]
  refine ⟨rfl, fun hr => ?_, fun hr => execIn_running _ _ hr⟩
  rw [execIn_build_idle _ cc hr, mapCb_finishBuild, buildFrame_eq]
  rfl

/-- Settles O20: BUILDC completes in an idle block that has the checksum, is illegal in one that has
not, and is dropped by a running one. -/
theorem buildcWritesChecksumFrame : Obligations.BuildcWritesChecksumFrame := by
  intro cc s
  rw [exec_eq_execIn]
  refine ⟨rfl, fun hr => ?_, fun hr => execIn_running _ _ hr⟩
  cases hck : Config.params.hasCksum with
  | true =>
    rw [execIn_buildc_idle (w := Config.world) cc hr hck, mapCb_finishBuild, buildFrame_eq,
      checksum_eq, if_pos rfl]
    rfl
  | false =>
    rw [execIn_buildc_illegal (w := Config.world) cc hr hck, if_neg nofun]
    rfl

/-- Settles O21: BUILD's frame in each layout, its address bytes put together again. -/
theorem builtFrameDecodesBack : Obligations.BuiltFrameDecodesBack := by
  intro w cc s hr
  refine ⟨_, execIn_build_idle w cc hr, fun h => ?_, fun h => ?_⟩
  · rw [mapCb_finishBuild, buildFrame_byte0 h]
    exact ⟨rfl, wordOf_byteOf s.cb.addr, rfl, rfl, rfl⟩
  · rw [mapCb_finishBuild, buildFrame_byte7 h]
    exact ⟨rfl, wordOf_byteOf s.cb.addr, rfl, rfl, rfl⟩

/-! ### What the builders leave alone -/

/-- BUILD and BUILDC, whatever becomes of them, set OP, STAT but TMO, FRAME, PH and OPK at most. -/
theorem execIn_builder_writes {w : World} {i : Instr} {s t : State}
    (hb : ∃ cc, i = .build cc ∨ i = .buildc cc) (h : execIn w i s = .next t) :
    ∃ op stat frame ph opk,
      t = { s with cb := { s.cb with
        op := op, stat := stat, frame := frame, ph := ph, opk := opk } } ∧
      stat.tmo = s.cb.stat.tmo := by
  cases hr : s.cb.stat.run with
  | true =>
    rw [execIn_running w i hr] at h
    cases h
    exact ⟨_, _, _, _, _, rfl, rfl⟩
  | false =>
    obtain ⟨cc, rfl | rfl⟩ := hb
    · cases execIn_next hr h with
      | build => exact ⟨_, _, _, _, _, rfl, rfl⟩
    · cases execIn_next hr h with
      | buildc _ hc => exact ⟨_, _, _, _, _, rfl, rfl⟩
      | illegal _ hc => exact ⟨_, _, _, _, _, rfl, rfl⟩

/-- Settles O24: the registers that the builders write are none of those named. -/
theorem buildersTouchFrameOnly : Obligations.BuildersTouchFrameOnly := by
  intro i s t hb h
  rw [exec_eq_execIn] at h
  obtain ⟨op, stat, frame, ph, opk, rfl, htmo⟩ := execIn_builder_writes hb h
  exact ⟨fun _ => rfl, rfl, rfl, rfl, rfl, rfl, rfl, rfl, rfl, rfl, rfl, rfl, rfl, rfl, htmo⟩

end Sys2Proof.Machine
end

section
/-!
PROOFS. The poll bound (spec/41_ready_wait.md R111): every loop decision of an operation that has not
passed its limit keeps it, and a launch begins below it.
-/

namespace Sys2Proof.Machine

open Sys2Proof.Safety

/-! ### The bound on N -/

/-- The count `n` of CTRL reads has not passed a finite `POLL_LIMIT` (R111). -/
def PollsMade (p : Params) (n : Word) : Prop := ∀ l, p.pollLimit = some l → n ≤ l

/-- The count `n` of CTRL reads has not reached a finite `POLL_LIMIT`: one more may come. -/
def PollsLeft (p : Params) (n : Word) : Prop := ∀ l, p.pollLimit = some l → n < l

/-- DATA and MEM(k): the phases that follow the CTRL read of their own poll cycle (R110). -/
def Phase.afterSample : Phase → Bool
  | .data => true
  | .mem _ => true
  | _ => false

/-- One CTRL read more, where one was left; below a limit N does not saturate (R23). -/
theorem PollsLeft.countPoll {p : Params} {n : Word} (h : PollsLeft p n) :
    PollsMade p (countPoll n) := by
  intro l hl
  have hlt := h l hl
  unfold Machine.countPoll
  split <;> bv_omega

theorem withinPollLimit_of_idle {p : Params} {c : Cbseq} (hp : c.ph = .idle) :
    WithinPollLimit p c := fun _ _ hne => absurd hp hne

theorem withinPollLimit_of_left {p : Params} {c : Cbseq} (h : PollsLeft p c.n) :
    WithinPollLimit p c := fun l hl _ => ⟨BitVec.le_of_lt (h l hl), fun _ _ => h l hl⟩

theorem withinPollLimit_of_made {p : Params} {c : Cbseq} (h : PollsMade p c.n)
    (hs : c.ph.afterSample = true) : WithinPollLimit p c := by
  refine fun l hl _ => ⟨h l hl, fun hd hm => ?_⟩
  cases hp : c.ph with
  | data => exact absurd hp hd
  | mem k => exact absurd hp (hm k)
  | _ => simp [hp, Phase.afterSample] at hs

theorem pollsMade_of_within {p : Params} {c : Cbseq} (h : WithinPollLimit p c)
    (hp : c.ph ≠ .idle) : PollsMade p c.n := fun l hl => (h l hl hp).1

theorem pollsLeft_of_within {p : Params} {c : Cbseq} (h : WithinPollLimit p c)
    (hp : c.ph ≠ .idle) (hs : c.ph.afterSample = false) : PollsLeft p c.n := by
  intro l hl
  refine (h l hl hp).2 (fun hd => ?_) (fun k hk => ?_)
  · simp [hd, Phase.afterSample] at hs
  · simp [hk, Phase.afterSample] at hs

/-! ### The loop decisions keep the bound -/

section
variable {p : Params} {c : Cbseq} (h : PollsMade p c.n)
include h

/-- `Bound()` leaves a CTRL read for the phase it goes on to, or ends the operation (R111). -/
theorem boundThen_withinPollLimit (x : Phase) : WithinPollLimit p (c.boundThen p x) := by
  rw [boundThen_eq]
  split
  · exact withinPollLimit_of_idle rfl
  · next hne =>
    refine withinPollLimit_of_left fun l hl => ?_
    have hle := h l hl
    have hn : c.n ≠ l := fun he => hne (he ▸ hl)
    rw [Cbseq.goto_n]
    bv_omega

theorem waitDecision_withinPollLimit : WithinPollLimit p (waitDecision p c) := by
  unfold waitDecision
  split
  · exact boundThen_withinPollLimit h _
  · split
    · exact withinPollLimit_of_idle rfl
    · exact boundThen_withinPollLimit h _

theorem transferDecision_withinPollLimit : WithinPollLimit p (transferDecision p c) := by
  unfold transferDecision
  split
  · exact boundThen_withinPollLimit h _
  · exact withinPollLimit_of_idle rfl

theorem takeWord_withinPollLimit (v : Word) : WithinPollLimit p (takeWord p v c) := by
  unfold takeWord
  split
  · exact withinPollLimit_of_made h rfl
  · exact transferDecision_withinPollLimit h

theorem chooseWord_withinPollLimit : WithinPollLimit p (chooseWord p c) := by
  unfold chooseWord
  split <;> exact withinPollLimit_of_made h rfl

theorem afterStore_withinPollLimit : WithinPollLimit p (afterStore p c) :=
  transferDecision_withinPollLimit h

theorem afterStoreByte_withinPollLimit (k : Fin 4) :
    WithinPollLimit p (afterStoreByte p k c) := by
  unfold afterStoreByte
  split
  · exact withinPollLimit_of_made h rfl
  · exact afterStore_withinPollLimit h

theorem afterLoadByte_withinPollLimit (k : Fin 4) (b : Byte) :
    WithinPollLimit p (afterLoadByte k b c) := by
  unfold afterLoadByte
  split <;> exact withinPollLimit_of_made h rfl

end

/-! ### Kept by every turn, every input, every step -/

theorem Turned.withinPollLimit {w : World} {s t : State} (h : Turned w s t)
    (hi : WithinPollLimit w.params s.cb) : WithinPollLimit w.params t.cb := by
  have made {x : Phase} (hp : s.cb.ph = x) (hx : x ≠ .idle) : PollsMade w.params s.cb.n :=
    pollsMade_of_within hi (hp ▸ hx)
  have left {x : Phase} (hp : s.cb.ph = x) (hx : x ≠ .idle) (hs : x.afterSample = false) :
      PollsLeft w.params s.cb.n := pollsLeft_of_within hi (hp ▸ hx) (hp ▸ hs)
  cases h with
  | idle hp => exact hi
  | issEn hp => exact withinPollLimit_of_left (left hp nofun rfl)
  | issCmd i hp => exact withinPollLimit_of_left (left hp nofun rfl)
  | start hp => exact withinPollLimit_of_left (left hp nofun rfl)
  | waitPoll hp hk =>
    have hsample := (left hp nofun rfl).countPoll
    simp only [State.mapCb_cb, State.record_cb]
    split
    · exact withinPollLimit_of_made hsample rfl
    · exact waitDecision_withinPollLimit hsample
  | readPoll hp hk =>
    have hsample := (left hp nofun rfl).countPoll
    simp only [State.mapCb_cb, State.record_cb]
    split
    · exact withinPollLimit_of_made hsample rfl
    · exact transferDecision_withinPollLimit hsample
  | writePoll hp hk =>
    have hsample := (left hp nofun rfl).countPoll
    simp only [State.mapCb_cb, State.record_cb]
    split
    · exact chooseWord_withinPollLimit hsample
    · exact transferDecision_withinPollLimit hsample
  | waitData hp hk => exact waitDecision_withinPollLimit (made hp nofun)
  | readData hp hk => exact takeWord_withinPollLimit (made hp nofun) _
  | writeData hp hk => exact transferDecision_withinPollLimit (made hp nofun)
  | storeWord k hp hk ha hs hb => exact afterStore_withinPollLimit (made hp nofun)
  | storeByte k hp hk ha hb => exact afterStoreByte_withinPollLimit (made hp nofun) k
  | loadWord k hp hk ha hs hb => exact withinPollLimit_of_made (made hp nofun) rfl
  | loadByte k hp hk ha hb => exact afterLoadByte_withinPollLimit (made hp nofun) k _

/-- A launch begins with N = 0, and a legal limit is not 0 (R111). -/
theorem pollsLeft_zero {p : Params} (hp : p.Legal) : PollsLeft p 0 := by
  obtain ⟨-, -, -, -, -, hlimit⟩ := hp
  intro l hl
  have hne : l ≠ 0 := fun h => hlimit (h ▸ hl)
  bv_omega

theorem Accepted.withinPollLimit {w : World} {s t : State} {i : Instr} (hl : w.params.Legal)
    (h : Accepted w s i t) (hi : WithinPollLimit w.params s.cb) :
    WithinPollLimit w.params t.cb := by
  cases h with
  | build cc => exact withinPollLimit_of_idle rfl
  | buildc cc hc => exact withinPollLimit_of_idle rfl
  | illegal cc hc => exact hi
  | waitrdy => exact withinPollLimit_of_left (pollsLeft_zero hl)
  | xferrd hb => exact withinPollLimit_of_left (pollsLeft_zero hl)
  | xferwr hb => exact withinPollLimit_of_left (pollsLeft_zero hl)

@[simp] theorem writeReg_n (off v : Word) (c : Cbseq) : (writeReg off v c).n = c.n := by
  unfold writeReg; split <;> rfl

theorem Delivered.withinPollLimit {w : World} {s t : State} {x : Input} (hl : w.params.Legal)
    (h : Delivered w s x t) (hi : WithinPollLimit w.params s.cb) :
    WithinPollLimit w.params t.cb := by
  cases h with
  | accept v i _ hr hd ha => exact ha.withinPollLimit hl hi
  | reg off v hr h0 => simpa [WithinPollLimit] using hi
  | sync => simpa using hi
  | reset => exact withinPollLimit_of_idle rfl
  | _ => exact hi

/-- Every step in a world of a legal configuration keeps the poll bound. -/
theorem stepIn_withinPollLimit {w : World} {s t : State} (hl : w.params.Legal)
    (hi : WithinPollLimit w.params s.cb) (h : stepIn w s = .next t) :
    WithinPollLimit w.params t.cb := by
  rcases stepIn_next h with ⟨_, hturn⟩ | ⟨x, ps, _, hd⟩
  · exact hturn.withinPollLimit hi
  · exact hd.withinPollLimit hl hi

/-- Settles O48: every turn and every input keeps the bound, the configuration being legal. -/
theorem pollLimitKept : Obligations.PollLimitKept := fun s _ _ hs h =>
  stepIn_withinPollLimit config_legal hs (step_eq_stepIn s ▸ h)

end Sys2Proof.Machine
end

section
/-!
PROOFS. WAITRDY (spec/41_ready_wait.md R112 to R116): its acceptance and that of the transfers, the
registers of a transfer that it does not look at, and how it ends without a poll limit.
-/

namespace Sys2Proof.Machine

open Sys2Proof.Safety

/-! ### Acceptance -/

/-- Settles O28: WAITRDY begins in an idle block, and is dropped by a running one. -/
theorem waitrdyAccepted : Obligations.WaitrdyAccepted := by
  intro s
  rw [exec_eq_execIn]
  exact ⟨fun hr => whenIdle_idle hr _, fun hr => execIn_running _ _ hr⟩

/-- The acceptance of a polling operation, whatever becomes of it, sets the registers listed at most;
of those, READY is WAITRDY's, I and ALN the transfers', LAST is XFERWR's (R112, R135, R140). -/
theorem execIn_polling_writes {w : World} {i : Instr} {s t : State}
    (hi : i = .waitrdy ∨ i = .xferrd ∨ i = .xferwr) (h : execIn w i s = .next t) :
    ∃ op stat n ph opk ready idx aln last,
      t = { s with cb := { s.cb with
        op := op, stat := stat, n := n, ph := ph, opk := opk, ready := ready, i := idx, aln := aln
        last := last } } ∧
      stat.tmo = s.cb.stat.tmo ∧ stat.ill = s.cb.stat.ill ∧
      (i ≠ .waitrdy → ready = s.cb.ready) ∧
      (i = .waitrdy → idx = s.cb.i ∧ aln = s.cb.aln) ∧
      (i ≠ .xferwr → last = s.cb.last) := by
  cases hr : s.cb.stat.run with
  | true =>
    rw [execIn_running w i hr] at h
    cases h
    exact ⟨_, _, _, _, _, _, _, _, _, rfl, rfl, rfl, fun _ => rfl, fun _ => ⟨rfl, rfl⟩,
      fun _ => rfl⟩
  | false =>
    rcases hi with rfl | rfl | rfl
    · cases execIn_next hr h with
      | waitrdy =>
        exact ⟨_, _, _, _, _, _, _, _, _, rfl, rfl, rfl, absurd rfl, fun _ => ⟨rfl, rfl⟩,
          fun _ => rfl⟩
    · cases execIn_next hr h with
      | xferrd hb =>
        exact ⟨_, _, _, _, _, _, _, _, _, rfl, rfl, rfl, fun _ => rfl, nofun, fun _ => rfl⟩
    · cases execIn_next hr h with
      | xferwr hb =>
        exact ⟨_, _, _, _, _, _, _, _, _, rfl, rfl, rfl, fun _ => rfl, nofun, absurd rfl⟩

/-- Settles O36: the registers that an acceptance writes are none of those named. -/
theorem pollingOperationsAcceptanceFrame : Obligations.PollingOperationsAcceptanceFrame := by
  intro i s t hi h
  rw [exec_eq_execIn] at h
  obtain ⟨op, stat, n, ph, opk, ready, idx, aln, last, rfl, htmo, hill, hready, hidx, hlast⟩ :=
    execIn_polling_writes hi h
  exact ⟨fun _ => rfl, rfl, rfl, rfl, rfl, rfl, rfl, rfl, rfl, rfl, htmo, hill, hready, hidx, hlast⟩

/-! ### The registers of a transfer, put to any values -/

/-- The registers that only the transfers use, BUF, WCNT, I, LAST and ALN, replaced (R115). -/
def Cbseq.withBuffer (b n i l : Word) (al : Bool) (c : Cbseq) : Cbseq :=
  { c with buf := b, wcnt := n, i := i, last := l, aln := al }

section
variable (b n i l : Word) (al : Bool)

theorem boundThen_withBuffer (p : Params) (x : Phase) (c : Cbseq) :
    (c.withBuffer b n i l al).boundThen p x = (c.boundThen p x).withBuffer b n i l al := by
  simp only [boundThen_eq, apply_ite (Cbseq.withBuffer b n i l al)]
  rfl

theorem waitDecision_withBuffer (p : Params) (c : Cbseq) :
    waitDecision p (c.withBuffer b n i l al) = (waitDecision p c).withBuffer b n i l al := by
  simp only [waitDecision, boundThen_withBuffer, apply_ite (Cbseq.withBuffer b n i l al)]
  rfl

/-- A turn of WAITRDY does the same whatever the registers of a transfer hold. -/
theorem Turned.waitrdy_withBuffer {w : World} {s t : State} (h : Turned w s t)
    (hk : s.cb.opk = .waitrdy) :
    blockTurn w (s.mapCb (Cbseq.withBuffer b n i l al)) =
      .next (t.mapCb (Cbseq.withBuffer b n i l al)) := by
  cases h with
  | idle hp => exact blockTurn_idle w hp
  | issEn hp => exact blockTurn_issEn w hp
  | issCmd j hp => exact blockTurn_issCmd w hp
  | start hp => exact blockTurn_start w hp
  | waitPoll hp _ =>
    rw [blockTurn_poll_waitrdy w (by exact hp) (by exact hk), pollCycle_eq]
    simp only [State.mapCb, apply_ite (Cbseq.withBuffer b n i l al), ← waitDecision_withBuffer]
    rfl
  | waitData hp _ =>
    rw [blockTurn_data_waitrdy w (by exact hp) (by exact hk)]
    simp only [State.mapCb, consumeProbe, ← waitDecision_withBuffer]
    rfl
  | _ => simp_all -- the rows of the transfers

end

/-! ### Memory and port M -/

/-- A turn outside MEM(k) makes no transaction on port M (R45). -/
theorem Turned.memTrace {w : World} {s t : State} (h : Turned w s t)
    (hp : ∀ k, s.cb.ph ≠ .mem k) : memTrace t.trace = memTrace s.trace := by
  cases h with
  | storeWord k hp' => exact absurd hp' (hp k)
  | storeByte k hp' => exact absurd hp' (hp k)
  | loadWord k hp' => exact absurd hp' (hp k)
  | loadByte k hp' => exact absurd hp' (hp k)
  | _ => rfl

/-- Settles O31: a turn of WAITRDY is none of MEM(k), and commutes with any change of the registers of
a transfer; its acceptance is written out. -/
theorem waitrdyLeavesBufferAlone : Obligations.WaitrdyLeavesBufferAlone := by
  refine ⟨fun w s t hk h => ?_, fun s t h => ?_⟩
  · have hturn := blockTurn_next h
    have hmem (k : Fin 4) : s.cb.ph ≠ .mem k := fun hp => by
      rw [blockTurn_mem_noTransfer w hp (by simp [Transferring, hk])] at h
      cases h
    obtain ⟨-, -, hm, -⟩ := blockTurn_frame h
    obtain ⟨-, -, -, hbuf, hwcnt, -, haln, -, -, -, hlast, -, -, hi, -⟩ := turnFrame w s t h
    exact ⟨hturn.memTrace hmem, hm.resolve_right fun ⟨_, k, hp⟩ => hmem k hp, hbuf, hwcnt, hi hmem,
      hlast (by simp [hk]), haln, fun b n i l al => hturn.waitrdy_withBuffer b n i l al hk⟩
  · obtain ⟨hidle, hrunning⟩ := waitrdyAccepted s
    cases hr : s.cb.stat.run with
    | true =>
      rw [hrunning hr] at h
      cases h
      exact ⟨rfl, rfl, rfl, rfl, rfl, rfl, rfl⟩
    | false =>
      rw [hidle hr] at h
      cases h
      exact ⟨rfl, rfl, rfl, rfl, rfl, rfl, rfl⟩

/-! ### How WAITRDY ends without a poll limit -/

/-- In the registers `c` the operation has ended exactly if READY is set, the sample has BUSY clear and
no DATA read is to come; and it has ended by `complete`, with TMO still `tmo` (R116). -/
def EndedOnlyWhenReady (p : Params) (tmo : Bool) (c : Cbseq) : Prop :=
  (c.stat.run = false ↔
    c.ready = true ∧ c.s.getLsbD p.busyBit.val = false ∧ c.ph ≠ .data) ∧
  (c.stat.run = false → c.stat.done = true ∧ c.stat.tmo = tmo)

/-- An operation that runs on does so rightly while READY is clear, or the sample has BUSY set, or a
DATA read is to come. -/
theorem endedOnlyWhenReady_of_running {p : Params} {tmo : Bool} {c : Cbseq}
    (hr : c.stat.run = true)
    (hgo : c.ready = false ∨ c.s.getLsbD p.busyBit.val = true ∨ c.ph = .data) :
    EndedOnlyWhenReady p tmo c := by
  have hnot : ¬ c.stat.run = false := by simp [hr]
  refine ⟨iff_of_false hnot fun ⟨hready, hbusy, hdata⟩ => ?_, fun h => absurd h hnot⟩
  rcases hgo with h | h | h
  · exact absurd hready (by simp [h])
  · exact absurd (h.symm.trans hbusy) nofun
  · exact hdata h

/-- With no limit `Bound()` always goes on (R111). -/
theorem boundThen_of_unlimited {p : Params} (hl : p.pollLimit = none) (x : Phase) (c : Cbseq) :
    c.boundThen p x = c.goto x := by
  simp [boundThen_eq, hl]

theorem waitDecision_endedOnlyWhenReady {p : Params} (hl : p.pollLimit = none) {c : Cbseq}
    (hr : c.stat.run = true) : EndedOnlyWhenReady p c.stat.tmo (waitDecision p c) := by
  unfold waitDecision
  simp only [boundThen_of_unlimited hl]
  split
  · next hbusy => exact endedOnlyWhenReady_of_running hr (.inr (.inl hbusy))
  · next hbusy =>
    split
    · next hready => exact ⟨iff_of_true rfl ⟨hready, by simpa [isBusy] using hbusy, nofun⟩,
        fun _ => ⟨rfl, rfl⟩⟩
    · next hready => exact endedOnlyWhenReady_of_running hr (.inl (by simpa using hready))

/-- Settles O32: POLL goes on to DATA or to the loop decision, DATA to the loop decision. -/
theorem waitrdyEndsOnlyWhenReady : Obligations.WaitrdyEndsOnlyWhenReady := by
  intro w s t hl hk hr hp h
  suffices hend : EndedOnlyWhenReady w.params s.cb.stat.tmo t.cb from hend
  rcases hp with hp | hp
  · rw [blockTurn_poll_waitrdy w hp hk, pollCycle_eq] at h
    cases h
    simp only [State.mapCb_cb, State.record_cb]
    split
    · exact endedOnlyWhenReady_of_running hr (.inr (.inr rfl))
    · exact waitDecision_endedOnlyWhenReady hl (c := s.cb.sample _) hr
  · rw [blockTurn_data_waitrdy w hp hk] at h
    cases h
    exact waitDecision_endedOnlyWhenReady hl (c := { s.cb with w := _, ready := _ }) hr

end Sys2Proof.Machine
end

section
/-!
PROOFS. The transfer engine (spec/42_transfer.md R130 to R144), its parts: the acceptance of XFERRD and
XFERWR, the word serializer byte by byte and whole, transfers without a buffer, and how a transfer ends.
-/

namespace Sys2Proof.Machine

open Sys2Proof.Safety

/-! ### Acceptance -/

/-- A launch whose buffer keeps clear of the registers begins (R54(b)). -/
theorem launchTransfer_clear {p : Params} {s : State} (h : bufferClash p s.cb.buf s.cb.wcnt = false)
    (start : Cbseq → Cbseq) : launchTransfer p start s = .next (s.mapCb start) :=
  if_neg (by simp [h])

/-- Settles O33: XFERRD begins in an idle block where there is no clash, and is dropped by a running
one. -/
theorem xferrdAccepted : Obligations.XferrdAccepted := by
  intro s
  rw [exec_eq_execIn]
  exact ⟨fun hr hb => (whenIdle_idle hr _).trans (launchTransfer_clear hb _),
    fun hr => execIn_running _ _ hr⟩

/-- Settles O34: XFERWR begins in an idle block where there is no clash, and is dropped by a running
one. -/
theorem xferwrAccepted : Obligations.XferwrAccepted := by
  intro s
  rw [exec_eq_execIn]
  exact ⟨fun hr hb => (whenIdle_idle hr _).trans (launchTransfer_clear hb _),
    fun hr => execIn_running _ _ hr⟩

/-! ### A word in memory, its first `k` bytes -/

/-- The first `k` bytes at `a` are those of `v` (R131, R132). -/
def BytesAt (w : World) (m : List Host.Cell) (a v : Word) (k : Nat) : Prop :=
  ∀ j : Fin 4, j.val < k → memByte w m (a + BitVec.ofNat 32 j.val) = byteOf v j

/-- All four bytes are the word (R46). -/
theorem bytesAt_four {w : World} {m : List Host.Cell} {a v : Word} :
    BytesAt w m a v 4 ↔ memWord w m a = v := by
  unfold BytesAt memWord
  constructor
  · intro h
    have h0 : memByte w m a = byteOf v 0 := by simpa using h 0 (by decide)
    have h1 : memByte w m (a + 1) = byteOf v 1 := h 1 (by decide)
    have h2 : memByte w m (a + 2) = byteOf v 2 := h 2 (by decide)
    have h3 : memByte w m (a + 3) = byteOf v 3 := h 3 (by decide)
    rw [h0, h1, h2, h3, wordOf_byteOf]
  · rintro rfl j -
    match j with
    | 0 | 1 | 2 | 3 => simp

/-- Different bytes of a word have different addresses. -/
theorem byteAddr_injective (a : Word) {j k : Fin 4}
    (h : a + BitVec.ofNat 32 j.val = a + BitVec.ofNat 32 k.val) : j = k := by
  have hj := j.isLt
  have hk := k.isLt
  exact Fin.ext (by bv_omega)

/-- Byte `k` stored after the bytes before it (R131). -/
theorem BytesAt.store {w : World} {m : List Host.Cell} {a v : Word} {k : Fin 4}
    (h : BytesAt w m a v k.val) :
    BytesAt w (storeByte m (a + BitVec.ofNat 32 k.val) (byteOf v k)) a v (k.val + 1) := by
  intro j hj
  rw [memByte_storeByte]
  split
  · next he => rw [byteAddr_injective a he]
  · next he =>
    have hne : j.val ≠ k.val := fun e => he (by rw [e])
    exact h j (by omega)

/-- Byte `k` loaded after the bytes before it (R132). -/
theorem BytesAt.load {w : World} {m : List Host.Cell} {a v : Word} {k : Fin 4}
    (h : BytesAt w m a v k.val) :
    BytesAt w m a (setByte v k (memByte w m (a + BitVec.ofNat 32 k.val))) (k.val + 1) := by
  intro j hj
  rw [setByte_bytes]
  split
  · next he => rw [he]
  · next he =>
    have hne : j.val ≠ k.val := fun e => he (Fin.ext e)
    exact h j (by omega)

/-! ### StoreWord and LoadWord, whole -/

/-- A property that every turn carries on holds after a run of turns, none of which stops. -/
theorem blockRun_induct {w : World} {s : State} {P : Nat → State → Prop} (n : Nat) (h0 : P 0 s)
    (hturn : ∀ k < n, ∀ u, P k u → ∃ t, blockTurn w u = .next t ∧ P (k + 1) t) :
    ∃ t, blockRun w n s = .next t ∧ P n t := by
  induction n with
  | zero => exact ⟨s, rfl, h0⟩
  | succ n ih =>
    obtain ⟨u, hrun, hu⟩ := ih fun k hk => hturn k (Nat.lt_succ_of_lt hk)
    rw [blockRun_succ hrun]
    exact hturn n (Nat.lt_succ_self n) u hu

/-- From MEM(0) of XFERRD in `s`, the first `k` bytes of the word in flight have been stored, in `n`
transactions (R131): the next byte follows, or the loop decision. -/
structure Stored (w : World) (s : State) (k n : Nat) (u : State) : Prop where
  cb : u.cb = if h : k < 4 then s.cb.goto (.mem ⟨k, h⟩) else afterStore w.params s.cb
  bytes : BytesAt w u.mem (slotAddr s.cb) s.cb.w k
  other : ∀ a, (∀ j : Fin 4, a ≠ slotAddr s.cb + BitVec.ofNat 32 j.val) →
    memByte w u.mem a = memByte w s.mem a
  count : (memTrace u.trace).length = (memTrace s.trace).length + n

/-- From MEM(0) of XFERWR in `s`, the first `k` bytes of the slot's word have been loaded, in `n`
transactions (R132): the next byte follows, or the push. -/
structure Loaded (w : World) (s : State) (k n : Nat) (u : State) : Prop where
  cb : ∃ v, BytesAt w s.mem (slotAddr s.cb) v k ∧
    u.cb = if h : k < 4 then { s.cb with w := v, ph := .mem ⟨k, h⟩ }
      else Cbseq.loaded { s.cb with w := v }
  mem : u.mem = s.mem
  count : (memTrace u.trace).length = (memTrace s.trace).length + n

section
variable {w : World} {s u : State} {k : Nat}

/-- The turn that stores byte `k`. -/
theorem Stored.turn (h : Stored w s k k u) (hlt : k < 4) (hk : s.cb.opk = .xferrd)
    (ha : s.cb.aln = false)
    (hb : ∀ j : Fin 4, w.backed (slotAddr s.cb + BitVec.ofNat 32 j.val) = true) :
    ∃ t, blockTurn w u = .next t ∧ Stored w s (k + 1) (k + 1) t := by
  obtain ⟨hcb, hbytes, hother, hcount⟩ := h
  rw [dif_pos hlt] at hcb
  refine ⟨_, (blockTurn_mem_xferrd w (k := ⟨k, hlt⟩) (by rw [hcb]; rfl) (by rw [hcb]; exact hk)).trans
    ((readMem_byte w _ (by rw [hcb]; exact ha)).trans (onBacked_backed ?_ _)), ?_, ?_, ?_, ?_⟩
  · rw [backs_byte, hcb]
    exact hb ⟨k, hlt⟩
  · simp only [State.mapCb_cb, State.record_cb, State.setMem_cb, afterStoreByte_eq, hcb,
      afterStore_eq, transferDecision_eq]
    rfl
  · simp only [State.mapCb_mem, State.record_mem, State.setMem_mem, hcb]
    exact hbytes.store (k := ⟨k, hlt⟩)
  · intro a hne
    simp only [State.mapCb_mem, State.record_mem, State.setMem_mem, hcb]
    exact (memByte_storeByte w u.mem _ a _).trans ((if_neg (hne ⟨k, hlt⟩)).trans (hother a hne))
  · exact congrArg (· + 1) hcount

/-- The turn that loads byte `k`. -/
theorem Loaded.turn (h : Loaded w s k k u) (hlt : k < 4) (hk : s.cb.opk = .xferwr)
    (ha : s.cb.aln = false)
    (hb : ∀ j : Fin 4, w.backed (slotAddr s.cb + BitVec.ofNat 32 j.val) = true) :
    ∃ t, blockTurn w u = .next t ∧ Loaded w s (k + 1) (k + 1) t := by
  obtain ⟨⟨v, hbytes, hcb⟩, hmem, hcount⟩ := h
  rw [dif_pos hlt] at hcb
  refine ⟨_, (blockTurn_mem_xferwr w (k := ⟨k, hlt⟩) (by rw [hcb]) (by rw [hcb]; exact hk)).trans
    ((writeMem_byte w _ (by rw [hcb]; exact ha)).trans (onBacked_backed ?_ _)),
    ⟨_, hbytes.load (k := ⟨k, hlt⟩), ?_⟩, hmem, ?_⟩
  · rw [backs_byte, hcb]
    exact hb ⟨k, hlt⟩
  · simp only [State.mapCb_cb, State.record_cb, afterLoadByte_eq, hcb, hmem]
    rfl
  · exact congrArg (· + 1) hcount

end

theorem goto_eq_self {c : Cbseq} {x : Phase} (h : c.ph = x) : c.goto x = c := by
  subst h; rfl

section
variable {w : World} {s : State} (hp : s.cb.ph = .mem 0) (hal : s.cb.aln = isAligned s.cb.buf)
  (hb : ∀ j : Fin 4, w.backed (slotAddr s.cb + BitVec.ofNat 32 j.val) = true)
include hp hal hb

/-- StoreWord on either path: the whole word stands in its slot (R131). -/
theorem blockRun_storeWord (hk : s.cb.opk = .xferrd) :
    ∃ t, blockRun w (if s.cb.aln = true then 1 else 4) s = .next t ∧
      Stored w s 4 (if s.cb.aln = true then 1 else 4) t := by
  cases ha : s.cb.aln with
  | true =>
    have hs := isAligned_slotAddr (hal ▸ ha)
    have hback := (backs_word w _).2 hb
    exact ⟨_, (blockRun_succ (k := 0) rfl).trans ((blockTurn_mem_xferrd w hp hk).trans
      ((readMem_word w 0 ha hs).trans (onBacked_backed hback _))), rfl,
      bytesAt_four.2 (memWord_storeWord w s.mem _ _), (Turned.storeWord 0 hp hk ha hs hback).memByte,
      rfl⟩
  | false =>
    exact blockRun_induct (P := fun k => Stored w s k k) 4
      ⟨(goto_eq_self hp).symm, nofun, fun _ _ => rfl, rfl⟩ fun k hlt u hu => hu.turn hlt hk ha hb

/-- LoadWord on either path: the whole word is loaded (R132). -/
theorem blockRun_loadWord (hk : s.cb.opk = .xferwr) :
    ∃ t, blockRun w (if s.cb.aln = true then 1 else 4) s = .next t ∧
      Loaded w s 4 (if s.cb.aln = true then 1 else 4) t := by
  cases ha : s.cb.aln with
  | true =>
    have hs := isAligned_slotAddr (hal ▸ ha)
    have hback := (backs_word w _).2 hb
    exact ⟨_, (blockRun_succ (k := 0) rfl).trans ((blockTurn_mem_xferwr w hp hk).trans
      ((writeMem_word w 0 ha hs).trans (onBacked_backed hback _))),
      ⟨_, bytesAt_four.2 rfl, rfl⟩, rfl, rfl⟩
  | false =>
    exact blockRun_induct (P := fun k => Loaded w s k k) 4
      ⟨⟨s.cb.w, nofun, (goto_eq_self hp).symm⟩, rfl, rfl⟩ fun k hlt u hu => hu.turn hlt hk ha hb

end

/-- Settles O39: StoreWord whole, its word read byte by byte. -/
theorem storeWordSameOnBothPaths : Obligations.StoreWordSameOnBothPaths := by
  intro w s hk hp hal hb
  obtain ⟨t, hrun, hcb, hbytes, hother, hcount⟩ := blockRun_storeWord hp hal hb hk
  refine ⟨t, hrun, fun a => ?_, by rw [hcb]; simp [afterStore], hcount⟩
  have hzero : slotAddr s.cb + BitVec.ofNat 32 (0 : Fin 4).val = slotAddr s.cb := by simp
  split_ifs with h0 h1 h2 h3
  · rw [h0]; exact hzero ▸ hbytes 0 (by decide)
  · rw [h1]; exact hbytes 1 (by decide)
  · rw [h2]; exact hbytes 2 (by decide)
  · rw [h3]; exact hbytes 3 (by decide)
  · refine hother a fun j => ?_
    match j with
    | 0 => rw [hzero]; exact h0
    | 1 => exact h1
    | 2 => exact h2
    | 3 => exact h3

/-- Settles O40: LoadWord whole; the word loaded is the one in memory. -/
theorem loadWordSameOnBothPaths : Obligations.LoadWordSameOnBothPaths := by
  intro w s hk hp hal hb
  obtain ⟨t, hrun, ⟨v, hbytes, hcb⟩, hmem, hcount⟩ := blockRun_loadWord hp hal hb hk
  obtain rfl := bytesAt_four.1 hbytes
  refine ⟨t, hrun, ?_⟩
  rw [hcb]
  exact ⟨rfl, rfl, rfl, hmem, rfl, hcount⟩

/-! ### Transfers without a buffer -/

/-- Settles O41: the phase MEM asks for a slot, and port M, memory and I are MEM's. -/
theorem noBufferNoPortM : Obligations.NoBufferNoPortM := by
  intro w s t hi hno h
  have hmem (k : Fin 4) : s.cb.ph ≠ .mem k := fun hp => by
    obtain ⟨-, hslot, -⟩ := hi.mem_slot k hp
    obtain ⟨hbuf, hlt⟩ := hasSlot_iff.1 hslot
    rcases hno with h0 | h0
    · simp [h0] at hlt
    · exact hbuf h0
  have hturn := blockTurn_next h
  obtain ⟨b, hb, hst⟩ := hturn.wrote
  obtain ⟨-, -, hm, -⟩ := blockTurn_frame h
  exact ⟨hturn.memTrace hmem, hm.resolve_right fun ⟨_, k, hp⟩ => hmem k hp,
    hst.same.i.trans (hb.i hmem)⟩

/-! ### How a transfer ends -/

/-- A turn of a transfer leaves STAT alone, or comes to the loop decision with STAT as it was. -/
theorem Turned.transfer_stat {w : World} {s t : State} (h : Turned w s t)
    (ht : Transferring s.cb) :
    t.cb.stat = s.cb.stat ∨
      ∃ c : Cbseq, t.cb = transferDecision w.params c ∧ c.stat = s.cb.stat := by
  cases h with
  | idle hp => exact .inl rfl
  | issEn hp => exact .inl rfl
  | issCmd i hp => exact .inl rfl
  | start hp => exact .inl rfl
  | waitPoll hp hk => simp [Transferring, hk] at ht
  | waitData hp hk => simp [Transferring, hk] at ht
  | readPoll hp hk =>
    simp only [State.mapCb_cb, State.record_cb]
    split
    · exact .inl rfl
    · exact .inr ⟨_, rfl, rfl⟩
  | writePoll hp hk =>
    simp only [State.mapCb_cb, State.record_cb]
    split
    · left; unfold chooseWord; split <;> rfl
    · exact .inr ⟨_, rfl, rfl⟩
  | readData hp hk =>
    simp only [State.mapCb_cb, State.record_cb]
    unfold takeWord
    split
    · exact .inl rfl
    · exact .inr ⟨_, rfl, rfl⟩
  | writeData hp hk => exact .inr ⟨_, rfl, rfl⟩
  | storeWord k hp hk ha hs hb => exact .inr ⟨_, rfl, rfl⟩
  | storeByte k hp hk ha hb =>
    simp only [State.mapCb_cb, State.record_cb, State.setMem_cb]
    unfold afterStoreByte
    split
    · exact .inl rfl
    · exact .inr ⟨_, rfl, rfl⟩
  | loadWord k hp hk ha hs hb => exact .inl rfl
  | loadByte k hp hk ha hb =>
    simp only [State.mapCb_cb, State.record_cb]
    unfold afterLoadByte
    split <;> exact .inl rfl

/-- The loop decision ends a running transfer on a sample with BUSY clear by `complete`, on one with
BUSY set at the poll bound by Timeout (R111, R137). -/
theorem transferDecision_ended {p : Params} {c : Cbseq} (hr : c.stat.run = true)
    (hend : (transferDecision p c).stat.run = false) :
    (c.s.getLsbD p.busyBit.val = false ∧ transferDecision p c = c.complete) ∨
      (c.s.getLsbD p.busyBit.val = true ∧ p.pollLimit = some c.n ∧
        transferDecision p c = c.raise .timeout) := by
  unfold transferDecision at hend ⊢
  rw [boundThen_eq] at hend ⊢
  split at hend
  · next hbusy =>
    split at hend
    · next hlim => exact .inr ⟨hbusy, hlim, by rw [if_pos hbusy, if_pos hlim]⟩
    · exact absurd hr (by simpa using hend)
  · next hbusy => exact .inl ⟨by simpa [isBusy] using hbusy, by rw [if_neg hbusy]⟩

/-- Settles O42: a turn that clears RUN came to the loop decision. -/
theorem transferEndsOnlyWhenNotBusy : Obligations.TransferEndsOnlyWhenNotBusy := by
  intro w s t ht hr h hend
  rcases (blockTurn_next h).transfer_stat ht with hstat | ⟨c, hcb, hstat⟩
  · rw [hstat, hr] at hend
    cases hend
  · rw [hcb] at hend ⊢
    rcases transferDecision_ended (hstat ▸ hr) hend with ⟨hbusy, hd⟩ | ⟨hbusy, hlim, hd⟩
    · rw [hd]
      exact .inl ⟨hbusy, rfl, by simp [hstat]⟩
    · rw [hd]
      exact .inr ⟨hbusy, hlim, rfl, by simp [hstat]⟩

end Sys2Proof.Machine
end

section
/-!
PROOFS. XFERRD whole (spec/42_transfer.md R135, R136, R144): the count that both transfers keep of the
words of their buffer, the slots, and the invariant of XFERRD, kept by each row of the phase table.
-/

namespace Sys2Proof.Machine

open Sys2Proof.Safety

/-! ### How many of the words belong to the buffer -/

/-- Of `n` words, I counts those that have a slot (R22, R133). -/
def Counted (c : Cbseq) (n : Nat) : Prop :=
  c.i.toNat = if c.buf = 0 then 0 else min n c.wcnt.toNat

theorem counted_zero {c : Cbseq} (h : c.i = 0) : Counted c 0 := by
  simp [Counted, h]

section
variable {c : Cbseq} {n : Nat}

/-- While there is a slot, every word has had one. -/
theorem Counted.i_eq (h : Counted c n) (hs : hasSlot c = true) : c.i.toNat = n := by
  obtain ⟨hbuf, hlt⟩ := hasSlot_iff.1 hs
  rw [Counted, if_neg hbuf] at h
  omega

/-- With a word in each slot there is none left. -/
theorem Counted.i_eq_wcnt (h : Counted c n) (hs : ¬ hasSlot c = true) (hbuf : c.buf ≠ 0) :
    c.i.toNat = c.wcnt.toNat ∧ c.wcnt.toNat ≤ n := by
  have hge : ¬ c.i.toNat < c.wcnt.toNat := fun hlt => hs (hasSlot_iff.2 ⟨hbuf, hlt⟩)
  rw [Counted, if_neg hbuf] at h
  omega

/-- A word that has no slot is not counted. -/
theorem Counted.succ_of_noSlot (h : Counted c n) (hs : ¬ hasSlot c = true) : Counted c (n + 1) := by
  by_cases hbuf : c.buf = 0
  · rwa [Counted, if_pos hbuf] at h ⊢
  · obtain ⟨hi, hn⟩ := h.i_eq_wcnt hs hbuf
    rw [Counted, if_neg hbuf]
    omega

theorem countWord_i_toNat (hs : hasSlot c = true) : c.countWord.i.toNat = c.i.toNat + 1 := by
  obtain ⟨-, hlt⟩ := hasSlot_iff.1 hs
  rw [Cbseq.countWord_i]
  bv_omega

/-- A word that has a slot is counted. -/
theorem Counted.countWord (h : Counted c n) (hs : hasSlot c = true) :
    Counted c.countWord (n + 1) := by
  obtain ⟨hbuf, hlt⟩ := hasSlot_iff.1 hs
  have hi := h.i_eq hs
  rw [Counted, countWord_i_toNat hs, Cbseq.countWord_buf, Cbseq.countWord_wcnt, if_neg hbuf]
  omega

end

/-! ### Words in order -/

/-- One word more leaves the places of the earlier ones. -/
theorem reverse_cons_getElem?_of_lt (v : Word) {ws : List Word} {j : Nat} (h : j < ws.length) :
    (v :: ws).reverse[j]? = ws.reverse[j]? := by
  rw [List.reverse_cons, List.getElem?_append_left (by simpa using h)]

/-- The newest word stands last. -/
theorem reverse_cons_getElem?_length (v : Word) (ws : List Word) :
    (v :: ws).reverse[ws.length]? = some v := by
  simp

/-! ### Slots -/

/-- Slot I is the one a transfer is at. -/
theorem slotOf_i (c : Cbseq) : slotOf c c.i.toNat = slotAddr c := by
  simp [slotOf, slotAddr]

/-- Slots that do not wrap onto each other have no byte in common (R143). -/
theorem slotOf_bytes_ne {c : Cbseq} (hw : 4 * c.wcnt.toNat ≤ 2 ^ 32) (hs : hasSlot c = true) {j : Nat}
    (hj : j < c.i.toNat) (a b : Fin 4) :
    slotOf c j + BitVec.ofNat 32 a.val ≠ slotAddr c + BitVec.ofNat 32 b.val := by
  obtain ⟨-, hlt⟩ := hasSlot_iff.1 hs
  have ha := a.isLt
  have hb := b.isLt
  intro he
  unfold slotOf slotAddr at he
  bv_omega

/-- Two memories with the same four bytes have the same word. -/
theorem memWord_congr {w : World} {m m' : List Host.Cell} {a : Word}
    (h : ∀ k : Fin 4, memByte w m' (a + BitVec.ofNat 32 k.val) =
      memByte w m (a + BitVec.ofNat 32 k.val)) : memWord w m' a = memWord w m a :=
  bytesAt_four.1 fun k hk => (h k).trans (bytesAt_four.2 rfl k hk)

/-- A turn writes no slot before the one it is at. -/
theorem Turned.earlier_slots {w : World} {s t : State} (h : Turned w s t)
    (hw : 4 * s.cb.wcnt.toNat ≤ 2 ^ 32) (hs : hasSlot s.cb = true) :
    ∀ j < s.cb.i.toNat, memWord w t.mem (slotOf s.cb j) = memWord w s.mem (slotOf s.cb j) :=
  fun _ hj => memWord_congr fun k => h.memByte _ fun b => slotOf_bytes_ne hw hs hj k b

/-! ### The words stored -/

section
variable {w : World} {c : Cbseq} {m : List Host.Cell} {ws : List Word} {v : Word}

theorem storedInOrder_nil (h : c.i = 0) : StoredInOrder w c m [] :=
  ⟨counted_zero h, by simp [h]⟩

/-- A word popped when there is no slot is dropped (R136). -/
theorem storedInOrder_drop (h : StoredInOrder w c m ws) (hs : ¬ hasSlot c = true) :
    StoredInOrder w c m (v :: ws) := by
  obtain ⟨hn, hws⟩ := h
  have hle : c.i.toNat ≤ ws.length := by
    split at hn <;> omega
  exact ⟨Counted.succ_of_noSlot hn hs,
    fun j hj => (reverse_cons_getElem?_of_lt v (by omega)).trans (hws j hj)⟩

/-- A word stored in its slot is counted (R22, R136). -/
theorem storedInOrder_store (h : StoredInOrder w c m ws) (hs : hasSlot c = true)
    (hv : memWord w m (slotAddr c) = v) : StoredInOrder w c.countWord m (v :: ws) := by
  obtain ⟨hn, hws⟩ := h
  have hi := Counted.i_eq hn hs
  refine ⟨Counted.countWord hn hs, fun j hj => ?_⟩
  rw [countWord_i_toNat hs] at hj
  rcases Nat.lt_succ_iff_lt_or_eq.1 hj with hlt | rfl
  · exact (reverse_cons_getElem?_of_lt v (by omega)).trans (hws j hlt)
  · rw [hi, reverse_cons_getElem?_length, ← hv, ← hi, ← slotOf_i]
    rfl

/-- What is stored stays so while the slots before slot I keep their words. -/
theorem storedInOrder_of_mem {m' : List Host.Cell} (h : StoredInOrder w c m ws)
    (hm : ∀ j < c.i.toNat, memWord w m' (slotOf c j) = memWord w m (slotOf c j)) :
    StoredInOrder w c m' ws := by
  obtain ⟨hn, hws⟩ := h
  exact ⟨hn, fun j hj => by rw [hm j hj, hws j hj]⟩

/-- The loop decision touches no count and no slot. -/
theorem storedInOrder_decided (h : StoredInOrder w c m ws) (p : Params) :
    StoredInOrder w (transferDecision p c) m ws := by
  simpa [StoredInOrder, slotOf] using h

end

/-! ### The words popped -/

/-- The words popped since the CTRL write, newest first (R55, R136). -/
def popped (w : World) (s : State) : List Word := poppedWords w.params (blockTrace s.trace)

section
variable {p : Params} (es : List Event)

theorem poppedWords_ctrlWrite (flags : Word) : poppedWords p (ctrlWrite p flags :: es) = [] := by
  simp [ctrlWrite, poppedWords]

theorem poppedWords_dataRead (w : World) (s : State) :
    poppedWords w.params (dataRead w s :: es) =
      busAnswer w s w.params.dataAddr :: poppedWords w.params es := by
  simp [dataRead, poppedWords]

theorem poppedWords_ctrlRead (w : World) (s : State) (hl : w.params.Legal) :
    poppedWords w.params (ctrlRead w s :: es) = poppedWords w.params es := by
  simp [ctrlRead, poppedWords, (data_ne_ctrl hl).symm]

end

/-! ### The invariant of XFERRD -/

/-- The phases of a launch, in which no poll cycle has been made (R96). -/
def Phase.launching : Phase → Bool
  | .issEn => true
  | .issCmd _ => true
  | .start => true
  | _ => false

theorem afterIssue_launching (j : Fin 8) : (afterIssue j).launching = true := by
  unfold afterIssue
  split <;> rfl

theorem transferDecision_ph (p : Params) (c : Cbseq) :
    (transferDecision p c).ph = .poll ∨ (transferDecision p c).ph = .idle := by
  rw [transferDecision_eq]
  split
  · split
    · exact .inr rfl
    · exact .inl rfl
  · exact .inr rfl

section
variable {w : World} {s : State}

theorem readInv_launching (hp : s.cb.ph.launching = true) : ReadInv w s ↔ s.cb.i = 0 := by
  unfold ReadInv
  cases h : s.cb.ph with
  | issEn => rfl
  | issCmd j => rfl
  | start => rfl
  | _ => simp [h, Phase.launching] at hp

theorem readInv_polling (hp : s.cb.ph = .poll ∨ s.cb.ph = .data) :
    ReadInv w s ↔ StoredInOrder w s.cb s.mem (popped w s) := by
  unfold ReadInv
  rcases hp with hp | hp <;> rw [hp] <;> rfl

theorem readInv_mem {k : Fin 4} (hp : s.cb.ph = .mem k) :
    ReadInv w s ↔ ∃ rest, popped w s = s.cb.w :: rest ∧ StoredInOrder w s.cb s.mem rest ∧
      BytesAt w s.mem (slotAddr s.cb) s.cb.w k.val := by
  unfold ReadInv
  rw [hp]
  rfl

end

/-- What a turn of XFERRD leaves: the invariant, and the words stored in order also when it has ended. -/
def ReadKept (w : World) (t : State) : Prop :=
  ReadInv w t ∧ (t.cb.ph = .idle → StoredInOrder w t.cb t.mem (popped w t))

section
variable {w : World} {t : State} {c : Cbseq} {ws : List Word}

theorem readKept_launching (hp : t.cb.ph.launching = true) (hi : t.cb.i = 0) : ReadKept w t :=
  ⟨(readInv_launching hp).2 hi, fun h => by simp [h, Phase.launching] at hp⟩

/-- Before a poll cycle or a pop the words popped have to be stored. -/
theorem readKept_polling (ht : t.cb = c) (hp : c.ph = .poll ∨ c.ph = .data) (hws : popped w t = ws)
    (h : StoredInOrder w c t.mem ws) : ReadKept w t := by
  subst ht hws
  exact ⟨(readInv_polling hp).2 h, fun _ => h⟩

/-- At the loop decision the words popped have to be stored, whatever it decides (R135). -/
theorem readKept_decision (ht : t.cb = transferDecision w.params c) (hws : popped w t = ws)
    (h : StoredInOrder w c t.mem ws) : ReadKept w t := by
  have hstored := storedInOrder_decided h w.params
  rcases transferDecision_ph w.params c with hp | hp
  · exact readKept_polling ht (.inl hp) hws hstored
  · subst hws
    rw [← ht] at hp hstored
    exact ⟨by simp only [ReadInv, hp], fun _ => hstored⟩

/-- During a store, those before the word in flight, and its first bytes. -/
theorem readKept_mem {k : Fin 4} (ht : t.cb = c) (hp : c.ph = .mem k) (hws : popped w t = c.w :: ws)
    (h : StoredInOrder w c t.mem ws) (hb : BytesAt w t.mem (slotAddr c) c.w k.val) :
    ReadKept w t := by
  subst ht
  exact ⟨(readInv_mem hp).2 ⟨ws, hws, h, hb⟩, fun hidle => by simp [hidle] at hp⟩

end

/-- Every row of XFERRD keeps the invariant. -/
theorem Turned.readKept {w : World} {s t : State} (h : Turned w s t) (hl : w.params.Legal)
    (hi : Inv s) (hk : s.cb.opk = .xferrd) (hw : 4 * s.cb.wcnt.toNat ≤ 2 ^ 32) (hr : ReadInv w s) :
    ReadKept w t := by
  have hearlier := h.earlier_slots hw
  have hzero (hp : s.cb.ph.launching = true) : s.cb.i = 0 := (readInv_launching hp).1 hr
  cases h with
  | idle hp => simp [hi.opk_iff.2 hp] at hk
  | issEn hp => exact readKept_launching rfl (hzero (by rw [hp]; rfl))
  | issCmd j hp =>
    exact readKept_launching (afterIssue_launching j) (hzero (by rw [hp]; rfl))
  | start hp =>
    exact readKept_polling rfl (.inl rfl) (poppedWords_ctrlWrite _ _)
      (storedInOrder_nil (hzero (by rw [hp]; rfl)))
  | readPoll hp _ =>
    have hstored := (readInv_polling (.inl hp)).1 hr
    by_cases hready : isReady w.params (busAnswer w s w.params.ctrlAddr) = true
    · exact readKept_polling (if_pos hready) (.inr rfl) (poppedWords_ctrlRead _ w s hl) hstored
    · exact readKept_decision (if_neg hready) (poppedWords_ctrlRead _ w s hl) hstored
  | readData hp _ =>
    have hstored := (readInv_polling (.inr hp)).1 hr
    by_cases hs : hasSlot s.cb = true
    · exact readKept_mem (if_pos hs) rfl (poppedWords_dataRead _ w s) hstored nofun
    · exact readKept_decision (if_neg hs) (poppedWords_dataRead _ w s)
        (storedInOrder_drop hstored hs)
  | storeWord k hp _ ha hs hb =>
    obtain ⟨-, hslot, -⟩ := hi.mem_slot k hp
    obtain ⟨rest, hpop, hstored, -⟩ := (readInv_mem hp).1 hr
    exact readKept_decision rfl hpop (storedInOrder_store (storedInOrder_of_mem hstored
      (hearlier hslot)) hslot (memWord_storeWord w s.mem _ _))
  | storeByte k hp _ ha hb =>
    obtain ⟨-, hslot, -⟩ := hi.mem_slot k hp
    obtain ⟨rest, hpop, hstored, hbytes⟩ := (readInv_mem hp).1 hr
    have hkept := storedInOrder_of_mem hstored (hearlier hslot)
    have hnext := hbytes.store
    have heq := afterStoreByte_eq w.params k s.cb
    by_cases hlt : k.val + 1 < 4
    · exact readKept_mem (heq.trans (dif_pos hlt)) rfl hpop hkept hnext
    · rw [show k.val + 1 = 4 by omega, bytesAt_four] at hnext
      exact readKept_decision (heq.trans (dif_neg hlt)) hpop
        (storedInOrder_store hkept hslot hnext)
  | _ => simp_all -- the rows of the other operations

/-- Settles O45: the invariant and its clause for the ended operation, row by row. -/
theorem xferrdStoresPoppedWordsInOrder : Obligations.XferrdStoresPoppedWordsInOrder :=
  fun _ _ _ hl hi hk hw hr h => (blockTurn_next h).readKept hl hi hk hw hr

end Sys2Proof.Machine
end

section
/-!
PROOFS. XFERWR whole (spec/42_transfer.md R140 to R142): the words pushed and LAST, and the invariant of
XFERWR, kept by each row of the phase table.
-/

namespace Sys2Proof.Machine

open Sys2Proof.Safety

/-! ### The words pushed -/

/-- What XFERWR keeps of its words and of the buffer: the words `ws` are in order, and LAST is the last
one loaded (R140, R141). -/
def Pushing (w : World) (c : Cbseq) (m : List Host.Cell) (ws : List Word) : Prop :=
  PushedInOrder w c m ws ∧ LastLoaded w c m

theorem pushing_nil {w : World} {c : Cbseq} {m : List Host.Cell} (hi : c.i = 0) (hlast : c.last = 0) :
    Pushing w c m [] :=
  ⟨⟨counted_zero hi, nofun⟩, by rw [LastLoaded, if_pos hi, hlast]⟩

section
variable {w : World} {c : Cbseq} {m : List Host.Cell} {ws : List Word}

/-- While there is a slot, its word is the next to push (R140). -/
theorem wordToPush_of_hasSlot {n : Nat} (h : Counted c n) (hs : hasSlot c = true) :
    wordToPush w c m n = memWord w m (slotAddr c) := by
  obtain ⟨hbuf, hlt⟩ := hasSlot_iff.1 hs
  rw [← h.i_eq hs, wordToPush, if_pos ⟨hbuf, hlt⟩, slotOf_i]

/-- With no slot left the filler is the next word to push, LAST being the word of the last slot
(R141). -/
theorem wordToPush_of_noSlot {n : Nat} (h : Counted c n) (hlast : LastLoaded w c m)
    (hs : ¬ hasSlot c = true) : wordToPush w c m n = filler w.params c := by
  rw [LastLoaded] at hlast
  rw [wordToPush, filler, hlast]
  by_cases hbuf : c.buf = 0
  · have hi : c.i = 0 := by
      rw [Counted, if_pos hbuf] at h
      exact BitVec.eq_of_toNat_eq h
    simp [hbuf, hi]
  · obtain ⟨hi, hn⟩ := h.i_eq_wcnt hs hbuf
    rw [if_neg fun ⟨_, hlt⟩ => Nat.not_lt.2 hn hlt, BitVec.eq_of_toNat_eq hi]
    simp only [ite_and, ne_eq, ite_not, if_neg hbuf]

/-- The next word to push stands behind the ones pushed before. -/
theorem pushed_places {v : Word}
    (h : ∀ j, j < ws.length → ws.reverse[j]? = some (wordToPush w c m j))
    (hv : wordToPush w c m ws.length = v) :
    ∀ j, j < (v :: ws).length → (v :: ws).reverse[j]? = some (wordToPush w c m j) := by
  intro j hj
  rcases Nat.lt_succ_iff_lt_or_eq.1 hj with hlt | rfl
  · rw [reverse_cons_getElem?_of_lt v hlt, h j hlt]
  · rw [reverse_cons_getElem?_length, hv]

/-- With no slot left the filler is taken (R141). -/
theorem Pushing.takeFiller (h : Pushing w c m ws) (hs : ¬ hasSlot c = true) :
    Pushing w c m (filler w.params c :: ws) := by
  obtain ⟨⟨hn, hws⟩, hlast⟩ := h
  exact ⟨⟨Counted.succ_of_noSlot hn hs, pushed_places hws (wordToPush_of_noSlot hn hlast hs)⟩, hlast⟩

/-- The word of a slot, loaded, is counted and stands in LAST (R140, R30). -/
theorem Pushing.load {v : Word} (h : Pushing w c m ws) (hs : hasSlot c = true)
    (hv : memWord w m (slotAddr c) = v) : Pushing w (Cbseq.loaded { c with w := v }) m (v :: ws) := by
  obtain ⟨⟨hn, hws⟩, hlast⟩ := h
  have hi := countWord_i_toNat hs
  have hne : c.countWord.i ≠ 0 := fun h0 =>
    Nat.succ_ne_zero _ (hi.symm.trans (congrArg BitVec.toNat h0))
  refine ⟨⟨Counted.countWord hn hs, pushed_places hws ((wordToPush_of_hasSlot hn hs).trans hv)⟩, ?_⟩
  have hslot : memWord w m (slotOf c (c.countWord.i.toNat - 1)) = v := by
    rw [hi, Nat.add_sub_cancel, slotOf_i, hv]
  exact (hslot.symm.trans (if_neg hne).symm : v = if c.countWord.i = 0 then 0 else _)

/-- The loop decision touches no count, no slot and not LAST. -/
theorem Pushing.decided (h : Pushing w c m ws) (p : Params) :
    Pushing w (transferDecision p c) m ws := by
  simpa [Pushing, PushedInOrder, LastLoaded, wordToPush, slotOf] using h

end

/-- The words pushed since the CTRL write, newest first (R55, R140). -/
def pushed (w : World) (s : State) : List Word := pushedWords w.params (blockTrace s.trace)

section
variable {p : Params} (hl : p.Legal) (es : List Event)

theorem pushedWords_dataWrite (v : Word) :
    pushedWords p (.bus ⟨.write, p.dataAddr, .word, v⟩ :: es) = v :: pushedWords p es := by
  simp [pushedWords]

theorem pushedWords_ctrlRead (w : World) (s : State) :
    pushedWords p (ctrlRead w s :: es) = pushedWords p es := by
  simp [ctrlRead, pushedWords]

include hl in
theorem pushedWords_ctrlWrite (flags : Word) : pushedWords p (ctrlWrite p flags :: es) = [] := by
  simp [ctrlWrite, pushedWords, (data_ne_ctrl hl).symm]

end

/-! ### The invariant of XFERWR -/

section
variable {w : World} {s : State}

theorem writeInv_launching (hp : s.cb.ph.launching = true) :
    WriteInv w s ↔ s.cb.i = 0 ∧ s.cb.last = 0 := by
  unfold WriteInv
  cases h : s.cb.ph with
  | issEn => rfl
  | issCmd j => rfl
  | start => rfl
  | _ => simp [h, Phase.launching] at hp

theorem writeInv_poll (hp : s.cb.ph = .poll) :
    WriteInv w s ↔ Pushing w s.cb s.mem (pushed w s) := by
  unfold WriteInv
  rw [hp]
  rfl

theorem writeInv_data (hp : s.cb.ph = .data) :
    WriteInv w s ↔ Pushing w s.cb s.mem (s.cb.w :: pushed w s) := by
  unfold WriteInv
  rw [hp]
  rfl

theorem writeInv_mem {k : Fin 4} (hp : s.cb.ph = .mem k) :
    WriteInv w s ↔ Pushing w s.cb s.mem (pushed w s) ∧
      BytesAt w s.mem (slotAddr s.cb) s.cb.w k.val := by
  unfold WriteInv
  rw [hp]
  simp only [Pushing, pushed, BytesAt, and_assoc, eq_comm (a := byteOf _ _), Fin.lt_def]

end

/-- What a turn of XFERWR leaves: the invariant, and the words pushed in order also when it has ended. -/
def WriteKept (w : World) (t : State) : Prop :=
  WriteInv w t ∧ (t.cb.ph = .idle → PushedInOrder w t.cb t.mem (pushed w t))

section
variable {w : World} {t : State} {c : Cbseq} {ws : List Word}

theorem writeKept_launching (hp : t.cb.ph.launching = true) (h : t.cb.i = 0 ∧ t.cb.last = 0) :
    WriteKept w t :=
  ⟨(writeInv_launching hp).2 h, fun hidle => by simp [hidle, Phase.launching] at hp⟩

/-- Before a poll cycle every word taken has been pushed. -/
theorem writeKept_poll (ht : t.cb = c) (hp : c.ph = .poll) (hws : pushed w t = ws)
    (h : Pushing w c t.mem ws) : WriteKept w t := by
  subst ht hws
  exact ⟨(writeInv_poll hp).2 h, fun hidle => by simp [hidle] at hp⟩

/-- Before a push, the word in flight is the next to push. -/
theorem writeKept_data (ht : t.cb = c) (hp : c.ph = .data) (hws : pushed w t = ws)
    (h : Pushing w c t.mem (c.w :: ws)) : WriteKept w t := by
  subst ht hws
  exact ⟨(writeInv_data hp).2 h, fun hidle => by simp [hidle] at hp⟩

/-- During a load, the first bytes of the word in flight are those of its slot. -/
theorem writeKept_mem {k : Fin 4} (ht : t.cb = c) (hp : c.ph = .mem k) (hws : pushed w t = ws)
    (h : Pushing w c t.mem ws) (hb : BytesAt w t.mem (slotAddr c) c.w k.val) : WriteKept w t := by
  subst ht hws
  exact ⟨(writeInv_mem hp).2 ⟨h, hb⟩, fun hidle => by simp [hidle] at hp⟩

/-- At the loop decision every word taken has been pushed, whatever it decides (R140). -/
theorem writeKept_decision (ht : t.cb = transferDecision w.params c) (hws : pushed w t = ws)
    (h : Pushing w c t.mem ws) : WriteKept w t := by
  have hpush := h.decided w.params
  rcases transferDecision_ph w.params c with hp | hp
  · exact writeKept_poll ht hp hws hpush
  · subst hws
    rw [← ht] at hp hpush
    exact ⟨by simp only [WriteInv, hp], fun _ => hpush.1⟩

end

/-- Every row of XFERWR keeps the invariant. -/
theorem Turned.writeKept {w : World} {s t : State} (h : Turned w s t) (hl : w.params.Legal)
    (hi : Inv s) (hk : s.cb.opk = .xferwr) (hr : WriteInv w s) : WriteKept w t := by
  have hzero (hp : s.cb.ph.launching = true) : s.cb.i = 0 ∧ s.cb.last = 0 :=
    (writeInv_launching hp).1 hr
  cases h with
  | idle hp => simp [hi.opk_iff.2 hp] at hk
  | issEn hp => exact writeKept_launching rfl (hzero (by rw [hp]; rfl))
  | issCmd j hp => exact writeKept_launching (afterIssue_launching j) (hzero (by rw [hp]; rfl))
  | start hp =>
    obtain ⟨hi0, hlast0⟩ := hzero (by rw [hp]; rfl)
    exact writeKept_poll rfl rfl (pushedWords_ctrlWrite hl _ _) (pushing_nil hi0 hlast0)
  | writePoll hp _ =>
    have hpush := (writeInv_poll hp).1 hr
    have hws := pushedWords_ctrlRead (p := w.params) (blockTrace s.trace) w s
    by_cases hready : isReady w.params (busAnswer w s w.params.ctrlAddr) = true
    · by_cases hs : hasSlot s.cb = true
      · exact writeKept_mem ((if_pos hready).trans (if_pos hs)) rfl hws hpush nofun
      · exact writeKept_data ((if_pos hready).trans (if_neg hs)) rfl hws (hpush.takeFiller hs)
    · exact writeKept_decision (if_neg hready) hws hpush
  | writeData hp _ =>
    exact writeKept_decision rfl (pushedWords_dataWrite _ _) ((writeInv_data hp).1 hr)
  | loadWord k hp _ ha hs hb =>
    obtain ⟨-, hslot, -⟩ := hi.mem_slot k hp
    obtain ⟨hpush, -⟩ := (writeInv_mem hp).1 hr
    exact writeKept_data rfl rfl rfl (hpush.load hslot rfl)
  | loadByte k hp _ ha hb =>
    obtain ⟨-, hslot, -⟩ := hi.mem_slot k hp
    obtain ⟨hpush, hbytes⟩ := (writeInv_mem hp).1 hr
    have hnext := hbytes.load
    have heq (b : Byte) := afterLoadByte_eq k b s.cb
    by_cases hlt : k.val + 1 < 4
    · exact writeKept_mem ((heq _).trans (dif_pos hlt)) rfl rfl hpush hnext
    · rw [show k.val + 1 = 4 by omega, bytesAt_four] at hnext
      exact writeKept_data ((heq _).trans (dif_neg hlt)) rfl rfl (hpush.load hslot hnext)
  | _ => simp_all -- the rows of the other operations

/-- Settles O46: the invariant and its clause for the ended operation, row by row; only XFERRD
writes memory. -/
theorem xferwrPushesBufferThenFiller : Obligations.XferwrPushesBufferThenFiller := by
  intro w s t hl hi hk hr h
  obtain ⟨hinv, hend⟩ := (blockTurn_next h).writeKept hl hi hk hr
  obtain ⟨-, -, hmem, -⟩ := blockTurn_frame h
  exact ⟨hinv, hmem.resolve_right fun ⟨hk', _⟩ => by simp [hk] at hk', hend⟩

end Sys2Proof.Machine
end

section
/-!
PROOFS. An overrun is invisible (spec/60_exceptions.md R183): two states alike but for OVR and the
record of the host's own transactions answer alike, operation by operation, turn by turn and input by
input, and so in every run.
-/

namespace Sys2Proof.Machine

/-! ### Updates of the registers that do not look at OVR -/

/-- The registers with OVR put to `o`. -/
def Cbseq.withOvr (o : Bool) (c : Cbseq) : Cbseq := { c with stat := { c.stat with ovr := o } }

/-- What the update `f` does to the registers other than OVR does not depend on OVR. -/
def OvrBlind (f : Cbseq → Cbseq) : Prop :=
  ∀ (o : Bool) (c : Cbseq), (f c).withOvr false = (f (c.withOvr o)).withOvr false

/-- A choice by a test that does not look at OVR. -/
theorem OvrBlind.ite {b : Cbseq → Bool} {f g : Cbseq → Cbseq}
    (hb : ∀ o c, b c = b (Cbseq.withOvr o c)) (hf : OvrBlind f) (hg : OvrBlind g) :
    OvrBlind fun c => if b c then f c else g c := by
  intro o c
  simp only [← hb o c]
  split
  · exact hf o c
  · exact hg o c

theorem goto_ovrBlind (x : Phase) : OvrBlind (Cbseq.goto x) := fun _ _ => rfl

theorem raise_ovrBlind (e : Condition) : OvrBlind (Cbseq.raise e) := by
  intro o c
  cases e <;> rfl

theorem boundThen_ovrBlind (p : Params) (x : Phase) : OvrBlind (Cbseq.boundThen p x) :=
  .ite (fun _ _ => rfl) (raise_ovrBlind .timeout) (goto_ovrBlind x)

theorem waitDecision_ovrBlind (p : Params) : OvrBlind (waitDecision p) :=
  .ite (fun _ _ => rfl) (boundThen_ovrBlind p .poll)
    (.ite (fun _ _ => rfl) (fun _ _ => rfl) (boundThen_ovrBlind p .issEn))

theorem transferDecision_ovrBlind (p : Params) : OvrBlind (transferDecision p) :=
  .ite (fun _ _ => rfl) (boundThen_ovrBlind p .poll) fun _ _ => rfl

theorem takeWord_ovrBlind (p : Params) (v : Word) : OvrBlind (takeWord p v) :=
  .ite (fun _ _ => rfl) (fun _ _ => rfl) fun o c => transferDecision_ovrBlind p o { c with w := v }

theorem chooseWord_ovrBlind (p : Params) : OvrBlind (chooseWord p) :=
  .ite (fun _ _ => rfl) (goto_ovrBlind _) fun _ _ => rfl

theorem afterStore_ovrBlind (p : Params) : OvrBlind (afterStore p) := fun o c =>
  transferDecision_ovrBlind p o c.countWord

theorem afterStoreByte_ovrBlind (p : Params) (k : Fin 4) : OvrBlind (afterStoreByte p k) := by
  intro o c
  unfold afterStoreByte
  split
  · exact goto_ovrBlind _ o c
  · exact afterStore_ovrBlind p o c

theorem afterLoadByte_ovrBlind (k : Fin 4) (b : Byte) : OvrBlind (afterLoadByte k b) := by
  intro o c
  unfold afterLoadByte
  split <;> rfl

theorem consumeProbe_ovrBlind (p : Params) (v : Word) : OvrBlind (consumeProbe p v) := fun o c =>
  waitDecision_ovrBlind p o { c with w := v, ready := readyAfter c.ready v }

/-- A host write to STAT clears OVR or not; no other register depends on it (R14). -/
theorem writeReg_ovrBlind (off v : Word) : OvrBlind (writeReg off v) := by
  intro o c
  unfold writeReg
  split <;> rfl

/-! ### States alike but for an overrun -/

/-- The state with OVR put to `o` and the record to `tr`. -/
def State.withOverrun (o : Bool) (tr : List Event) (s : State) : State :=
  { s with cb := s.cb.withOvr o, trace := tr }

@[simp] theorem State.withOverrun_ph (o : Bool) (tr : List Event) (s : State) :
    (s.withOverrun o tr).cb.ph = s.cb.ph := rfl
@[simp] theorem State.withOverrun_opk (o : Bool) (tr : List Event) (s : State) :
    (s.withOverrun o tr).cb.opk = s.cb.opk := rfl

end Sys2Proof.Machine

namespace Sys2Proof.Safety

open Sys2Proof.Machine

section
variable {a b : State}

/-- Two states alike but for an overrun differ in OVR and in the record alone. -/
theorem SameButOverrun.exists_eq (h : SameButOverrun a b) : ∃ o tr, b = a.withOverrun o tr := by
  obtain ⟨cb, mem, inputs, trace⟩ := b
  obtain ⟨hcb, rfl, rfl, -⟩ := h
  exact ⟨cb.stat.ovr, trace, congrArg
    (fun c => State.mk (c.withOvr cb.stat.ovr) a.mem a.inputs trace) hcb.symm⟩

section
variable (h : SameButOverrun a b)
include h

theorem SameButOverrun.mapCb {f : Cbseq → Cbseq} (hf : OvrBlind f) :
    SameButOverrun (a.mapCb f) (b.mapCb f) := by
  obtain ⟨o, tr, rfl⟩ := h.exists_eq
  exact ⟨hf o a.cb, rfl, rfl, h.trace⟩

theorem SameButOverrun.setMem (m : List Host.Cell) : SameButOverrun (a.setMem m) (b.setMem m) :=
  ⟨h.cb, rfl, h.inputs, h.trace⟩

theorem SameButOverrun.setInputs (ps : List Pending) :
    SameButOverrun (a.setInputs ps) (b.setInputs ps) := ⟨h.cb, h.mem, rfl, h.trace⟩

theorem SameButOverrun.record (e : Event) : SameButOverrun (a.record e) (b.record e) where
  cb := h.cb
  mem := h.mem
  inputs := h.inputs
  trace := by
    have htr := h.trace
    unfold blockTrace at htr ⊢
    simp only [State.record_trace, List.filter_cons, htr]

/-- What the host reads may differ, in STAT's OVR; the record of ports B and M does not hold it. -/
theorem SameButOverrun.hostRead (off : Word) : SameButOverrun (hostRead off a) (hostRead off b) :=
  ⟨h.cb, h.mem, h.inputs, h.trace⟩

theorem SameButOverrun.syncRead : SameButOverrun (syncRead a) (syncRead b) := by
  have hrun : a.cb.stat.run = b.cb.stat.run := congrArg (fun c => c.stat.run) h.cb
  unfold Machine.syncRead
  simp only [← hrun, ← h.inputs]
  split
  · exact (h.hostRead 0x04).setInputs _
  · exact h.hostRead 0x04

/-- The environment answers a port B read alike (R55). -/
theorem SameButOverrun.busAnswer (w : World) (x : Word) : busAnswer w a x = busAnswer w b x := by
  rw [Machine.busAnswer, Machine.busAnswer, ← busHistory_blockTrace a.trace, h.trace,
    busHistory_blockTrace]

end

end

/-- Two pairs of like answers, chosen from by one test. -/
theorem SameAnswers.ite {c : Prop} [Decidable c] {r r' q q' : Res} (ht : SameAnswers r r')
    (he : SameAnswers q q') : SameAnswers (if c then r else q) (if c then r' else q') := by
  split
  · exact ht
  · exact he

/-- Like answers are next states alike, or one and the same stop. -/
theorem SameAnswers.inv {r q : Res} (h : SameAnswers r q) :
    (∃ s t, r = .next s ∧ q = .next t ∧ SameButOverrun s t) ∨
      (q = r ∧ ∃ f, r = .fault f) ∨ (q = r ∧ ∃ f, r = .refused f) := by
  cases r with
  | next s =>
    cases q with
    | next t => exact .inl ⟨s, t, rfl, rfl, h⟩
    | _ => exact h.elim
  | fault f =>
    cases q with
    | fault g => exact .inr (.inl ⟨congrArg _ (Eq.symm h), f, rfl⟩)
    | _ => exact h.elim
  | refused f =>
    cases q with
    | refused g => exact .inr (.inr ⟨congrArg _ (Eq.symm h), f, rfl⟩)
    | _ => exact h.elim

end Sys2Proof.Safety

namespace Sys2Proof.Machine

open Sys2Proof.Safety

/-! ### One transaction, from states alike but for an overrun -/

section
variable {w : World} {a b : State} (h : SameButOverrun a b)
include h

theorem busWrite_sameAnswers (x : Word) (n : Width) (v : Word) {upd : Cbseq → Cbseq}
    (hu : OvrBlind upd) : SameAnswers (busWrite w x n v upd a) (busWrite w x n v upd b) :=
  .ite ((h.record _).mapCb hu) rfl

theorem busRead_sameAnswers (x : Word) {upd : Word → Cbseq → Cbseq} (hu : ∀ v, OvrBlind (upd v)) :
    SameAnswers (busRead w x upd a) (busRead w x upd b) := by
  unfold busRead
  rw [← h.busAnswer]
  exact .ite ((h.record _).mapCb (hu _)) rfl

theorem memWriteWord_sameAnswers (x v : Word) {upd : Cbseq → Cbseq} (hu : OvrBlind upd) :
    SameAnswers (memWriteWord w x v upd a) (memWriteWord w x v upd b) := by
  unfold memWriteWord
  rw [← h.mem]
  exact .ite (.ite (((h.setMem _).record _).mapCb hu) rfl) rfl

theorem memWriteByte_sameAnswers (x : Word) (v : Byte) {upd : Cbseq → Cbseq} (hu : OvrBlind upd) :
    SameAnswers (memWriteByte w x v upd a) (memWriteByte w x v upd b) := by
  unfold memWriteByte
  rw [← h.mem]
  exact .ite (((h.setMem _).record _).mapCb hu) rfl

theorem memReadWord_sameAnswers (x : Word) {upd : Word → Cbseq → Cbseq}
    (hu : ∀ v, OvrBlind (upd v)) :
    SameAnswers (memReadWord w x upd a) (memReadWord w x upd b) := by
  unfold memReadWord
  rw [← h.mem]
  exact .ite (.ite ((h.record _).mapCb (hu _)) rfl) rfl

theorem memReadByte_sameAnswers (x : Word) {upd : Byte → Cbseq → Cbseq}
    (hu : ∀ v, OvrBlind (upd v)) :
    SameAnswers (memReadByte w x upd a) (memReadByte w x upd b) := by
  unfold memReadByte
  rw [← h.mem]
  exact .ite ((h.record _).mapCb (hu _)) rfl

theorem pollCycle_sameAnswers {onReady onIdle : Cbseq → Cbseq} (hr : OvrBlind onReady)
    (hi : OvrBlind onIdle) :
    SameAnswers (pollCycle w onReady onIdle a) (pollCycle w onReady onIdle b) :=
  busRead_sameAnswers h _ fun v => .ite (fun _ _ => rfl) (fun o c => hr o (c.sample v))
    fun o c => hi o (c.sample v)

/-! ### One turn of CBSEQ, phase by phase -/

theorem pollTurn_sameAnswers : SameAnswers (pollTurn w a) (pollTurn w b) := by
  obtain ⟨o, tr, rfl⟩ := h.exists_eq
  unfold pollTurn
  rw [State.withOverrun_opk]
  cases a.cb.opk with
  | none => rfl
  | waitrdy => exact pollCycle_sameAnswers h (goto_ovrBlind _) (waitDecision_ovrBlind _)
  | xferrd => exact pollCycle_sameAnswers h (goto_ovrBlind _) (transferDecision_ovrBlind _)
  | xferwr => exact pollCycle_sameAnswers h (chooseWord_ovrBlind _) (transferDecision_ovrBlind _)

theorem dataTurn_sameAnswers : SameAnswers (dataTurn w a) (dataTurn w b) := by
  obtain ⟨o, tr, rfl⟩ := h.exists_eq
  unfold dataTurn
  rw [State.withOverrun_opk]
  cases a.cb.opk with
  | none => rfl
  | waitrdy => exact busRead_sameAnswers h _ (consumeProbe_ovrBlind _)
  | xferrd => exact busRead_sameAnswers h _ (takeWord_ovrBlind _)
  | xferwr => exact busWrite_sameAnswers h _ _ _ (transferDecision_ovrBlind _)

theorem readMem_sameAnswers (k : Fin 4) : SameAnswers (readMem w k a) (readMem w k b) := by
  obtain ⟨o, tr, rfl⟩ := h.exists_eq
  exact .ite (memWriteWord_sameAnswers h _ _ (afterStore_ovrBlind _))
    (memWriteByte_sameAnswers h _ _ (afterStoreByte_ovrBlind _ k))

theorem writeMem_sameAnswers (k : Fin 4) : SameAnswers (writeMem w k a) (writeMem w k b) := by
  obtain ⟨o, tr, rfl⟩ := h.exists_eq
  exact .ite (memReadWord_sameAnswers h _ fun _ _ _ => rfl)
    (memReadByte_sameAnswers h _ (afterLoadByte_ovrBlind k))

theorem memTurn_sameAnswers (k : Fin 4) : SameAnswers (memTurn w k a) (memTurn w k b) := by
  obtain ⟨o, tr, rfl⟩ := h.exists_eq
  unfold memTurn
  rw [State.withOverrun_opk]
  cases a.cb.opk with
  | none => rfl
  | waitrdy => rfl
  | xferrd => exact readMem_sameAnswers h k
  | xferwr => exact writeMem_sameAnswers h k

theorem blockTurn_sameAnswers : SameAnswers (blockTurn w a) (blockTurn w b) := by
  obtain ⟨o, tr, rfl⟩ := h.exists_eq
  unfold blockTurn
  rw [State.withOverrun_ph]
  cases a.cb.ph with
  | idle => exact h
  | issEn => exact busWrite_sameAnswers h _ _ _ (goto_ovrBlind _)
  | issCmd t => exact busWrite_sameAnswers h _ _ _ (goto_ovrBlind _)
  | start => exact busWrite_sameAnswers h _ _ _ (goto_ovrBlind _)
  | poll => exact pollTurn_sameAnswers h
  | data => exact dataTurn_sameAnswers h
  | mem k => exact memTurn_sameAnswers h k

/-! ### One input -/

/-- With RUN = 1 both operation words are dropped, with RUN = 0 both meanings run. -/
theorem whenIdle_sameAnswers {r r' : Res} (hr : SameAnswers r r') :
    SameAnswers (whenIdle a r) (whenIdle b r') := by
  obtain ⟨o, tr, rfl⟩ := h.exists_eq
  exact .ite (h.mapCb (raise_ovrBlind .overrun)) hr

theorem launchTransfer_sameAnswers (p : Params) {start : Cbseq → Cbseq} (hs : OvrBlind start) :
    SameAnswers (launchTransfer p start a) (launchTransfer p start b) := by
  obtain ⟨o, tr, rfl⟩ := h.exists_eq
  exact .ite rfl (h.mapCb hs)

theorem execIn_sameAnswers (i : Instr) : SameAnswers (execIn w i a) (execIn w i b) := by
  cases i with
  | build cc => exact whenIdle_sameAnswers h (h.mapCb fun _ _ => rfl)
  | buildc cc =>
    refine whenIdle_sameAnswers h (h.mapCb ?_)
    exact .ite (fun _ _ => rfl) (fun _ _ => rfl) (raise_ovrBlind .illegal)
  | waitrdy => exact whenIdle_sameAnswers h (h.mapCb fun _ _ => rfl)
  | xferrd => exact whenIdle_sameAnswers h (launchTransfer_sameAnswers h _ fun _ _ => rfl)
  | xferwr => exact whenIdle_sameAnswers h (launchTransfer_sameAnswers h _ fun _ _ => rfl)

theorem writeOp_sameAnswers (v : Word) :
    SameAnswers (writeOp (execIn w) v a) (writeOp (execIn w) v b) := by
  unfold writeOp
  split
  · exact execIn_sameAnswers h _
  · exact h.mapCb (raise_ovrBlind .illegal)

theorem hostWrite_sameAnswers (off v : Word) :
    SameAnswers (hostWrite (execIn w) off v a) (hostWrite (execIn w) off v b) := by
  obtain ⟨o, tr, rfl⟩ := h.exists_eq
  exact .ite (h.mapCb (raise_ovrBlind .overrun))
    (.ite (writeOp_sameAnswers h v) (h.mapCb (writeReg_ovrBlind off v)))

theorem deliver_sameAnswers (x : Input) :
    SameAnswers (deliver w (execIn w) x a) (deliver w (execIn w) x b) := by
  cases x with
  | write off n v => exact .ite (hostWrite_sameAnswers (h.record _) off v) rfl
  | read off n => exact .ite (h.hostRead off) rfl
  | sync => exact h.syncRead
  | poke x v =>
    unfold deliver
    rw [← h.mem]
    exact .ite rfl (.ite ((h.setMem _).record _) rfl)
  | peek x =>
    unfold deliver
    rw [← h.mem]
    exact .ite rfl (.ite (h.record _) rfl)
  | reset => exact (h.mapCb fun _ _ => rfl).record _

/-! ### One step, and any number of steps -/

theorem stepIn_sameAnswers : SameAnswers (stepIn w a) (stepIn w b) := by
  unfold stepIn turn
  rw [← h.inputs]
  split
  · exact blockTurn_sameAnswers h
  · exact deliver_sameAnswers (h.setInputs _) _
  · exact blockTurn_sameAnswers (h.setInputs _)

end

/-- Settles O58: every turn and every input answers alike. -/
theorem overrunInvisibleToStep : Obligations.OverrunInvisibleToStep := fun _ _ _ h =>
  stepIn_sameAnswers h

/-- By induction on the number of steps. -/
theorem runIn_sameAnswers {w : World} (k : Nat) {a b : State} (h : SameButOverrun a b) :
    SameAnswers (runIn w k a) (runIn w k b) := by
  induction k generalizing a b with
  | zero => exact h
  | succ k ih =>
    have hstep := stepIn_sameAnswers (w := w) h
    unfold runIn
    rcases hstep.inv with ⟨s, t, ha, hb, hst⟩ | ⟨hb, r, ha⟩ | ⟨hb, r, ha⟩
    · simp only [ha, hb]
      exact ih hst
    · simp only [hb, ha]
      rfl
    · simp only [hb, ha]
      rfl

end Sys2Proof.Machine
end

section
/-!
PROOFS. The error conditions (spec/60_exceptions.md R181 to R184): Illegal and Overrun set one flag each
and come from inputs only; Timeout is raised at a loop decision only, and never without a poll limit.
-/

namespace Sys2Proof.Machine

open Sys2Proof.Safety

/-! ### How the error flags are set -/

/-- A host write to a register clears flags of STAT at most (R14). -/
theorem writeReg_stat (off v : Word) (c : Cbseq) :
    (writeReg off v c).stat = c.stat ∨ (writeReg off v c).stat = Stat.clear c.stat v := by
  unfold writeReg
  split
  case h_2 => exact .inr rfl
  all_goals exact .inl rfl

/-- The flags that are set after a host write to a register were set before it. -/
theorem writeReg_flags (off v : Word) (c : Cbseq) :
    ((writeReg off v c).stat.tmo = true → c.stat.tmo = true) ∧
      ((writeReg off v c).stat.ill = true → c.stat.ill = true) ∧
      ((writeReg off v c).stat.ovr = true → c.stat.ovr = true) := by
  rcases writeReg_stat off v c with h | h
  · rw [h]
    exact ⟨id, id, id⟩
  · rw [h]
    simp +contextual [Stat.clear]

/-- Of the operations accepted only one that is not well formed raises a condition, Illegal. -/
theorem Accepted.flags {w : World} {s t : State} {i : Instr} (h : Accepted w s i t) :
    t.cb.stat.tmo = s.cb.stat.tmo ∧ t.cb.stat.ovr = s.cb.stat.ovr ∧
      (t.cb.stat.ill = s.cb.stat.ill ∨ i.wellFormed w.params = false) := by
  cases h with
  | illegal cc hc => exact ⟨rfl, rfl, .inr hc⟩
  | _ => exact ⟨rfl, rfl, .inl rfl⟩

/-- An input never sets TMO (R181). -/
theorem Delivered.tmo {w : World} {s t : State} {x : Input} (h : Delivered w s x t)
    (ht : t.cb.stat.tmo = true) : s.cb.stat.tmo = true := by
  cases h with
  | accept v i _ hr hd ha =>
    obtain ⟨htmo, -, -⟩ := ha.flags
    exact htmo.symm.trans ht
  | reg off v hr h0 =>
    obtain ⟨htmo, -, -⟩ := writeReg_flags off v s.cb
    exact htmo ht
  | sync => rwa [syncRead_cb] at ht
  | reset => cases ht
  | _ => exact ht

/-- An input sets ILL only as a host write to OP, with RUN = 0, of a word that is not legal (R182). -/
theorem Delivered.ill {w : World} {s t : State} {x : Input} (h : Delivered w s x t)
    (ht : t.cb.stat.ill = true) :
    s.cb.stat.ill = true ∨
      (s.cb.stat.run = false ∧ ∃ v, x = .write 0x00 .word v ∧ legalWord w.params v = false) := by
  cases h with
  | reject v r hr hd => exact .inr ⟨hr, v, rfl, legalWord_of_reject hd _⟩
  | accept v i _ hr hd ha =>
    obtain ⟨-, -, hill | hwf⟩ := ha.flags
    · exact .inl (hill.symm.trans ht)
    · exact .inr ⟨hr, v, rfl, (legalWord_of_decode hd _).trans hwf⟩
  | reg off v hr h0 =>
    obtain ⟨-, hill, -⟩ := writeReg_flags off v s.cb
    exact .inl (hill ht)
  | sync => exact .inl (by rwa [syncRead_cb] at ht)
  | reset => cases ht
  | _ => exact .inl ht

/-- An input sets OVR only with RUN = 1 (R183). -/
theorem Delivered.ovr {w : World} {s t : State} {x : Input} (h : Delivered w s x t)
    (ht : t.cb.stat.ovr = true) : s.cb.stat.ovr = true ∨ s.cb.stat.run = true := by
  cases h with
  | overrun off v hr => exact .inr hr
  | accept v i _ hr hd ha =>
    obtain ⟨-, hovr, -⟩ := ha.flags
    exact .inl (hovr.symm.trans ht)
  | reg off v hr h0 =>
    obtain ⟨-, -, hovr⟩ := writeReg_flags off v s.cb
    exact .inl (hovr ht)
  | sync => exact .inl (by rwa [syncRead_cb] at ht)
  | reset => cases ht
  | _ => exact .inl ht

/-- No turn of CBSEQ changes ILL or OVR. -/
theorem Turned.ill_ovr {w : World} {s t : State} (h : Turned w s t) :
    t.cb.stat.ill = s.cb.stat.ill ∧ t.cb.stat.ovr = s.cb.stat.ovr := by
  obtain ⟨b, hb, hst⟩ := h.wrote
  exact ⟨hst.same.ill.trans (congrArg Stat.ill hb.stat),
    hst.same.ovr.trans (congrArg Stat.ovr hb.stat)⟩

/-! ### Illegal and Overrun -/

theorem writeOp_of_not_legal {w : World} {v : Word} {s : State} (hr : s.cb.stat.run = false)
    (hl : legalWord w.params v = false) :
    writeOp (execIn w) v s = .next (s.mapCb (Cbseq.raise .illegal)) := by
  rcases decode_of_not_legal hl with ⟨r, hd⟩ | ⟨cc, hd, hc⟩
  · simp only [writeOp, hd]
  · simp only [writeOp, hd]
    exact execIn_buildc_illegal cc hr hc

/-- Settles O13: an illegal word goes to `writeOp`; of the inputs only such a write sets ILL, and no turn
does. -/
theorem illegalWordSetsOnlyIll : Obligations.IllegalWordSetsOnlyIll := by
  refine fun w s => ⟨fun v ps hin hr hl => ?_, fun t h h0 h1 => ?_⟩
  · rw [stepIn_write w hin rfl (by decide), hostWrite_op (by exact hr),
      writeOp_of_not_legal (by exact hr) hl]
    rfl
  · rcases stepIn_next h with ⟨_, hturn⟩ | ⟨x, ps, hin, hd⟩
    · obtain ⟨hill, -⟩ := hturn.ill_ovr
      exact absurd (h1.symm.trans (hill.trans h0)) nofun
    · rcases hd.ill h1 with hs | ⟨hr, v, rfl, hl⟩
      · exact absurd (h0.symm.trans hs) nofun
      · exact ⟨hr, v, ps, hin, hl⟩

/-- Settles O14: the dropped write leaves a state alike but for an overrun, and runs from such states
answer alike. -/
theorem overrunLeavesOperationUndisturbed : Obligations.OverrunLeavesOperationUndisturbed := by
  refine fun w s => ⟨fun off v ps hin h4 h40 hr => ?_, fun t h h0 h1 => ?_⟩
  · exact ⟨_, (stepIn_write w hin h4 h40).trans (hostWrite_running (by exact hr) _ _ _), rfl, rfl,
      rfl, rfl, fun k => runIn_sameAnswers k ⟨rfl, rfl, rfl, rfl⟩⟩
  · rcases stepIn_next h with ⟨_, hturn⟩ | ⟨x, ps, hin, hd⟩
    · obtain ⟨-, hovr⟩ := hturn.ill_ovr
      exact absurd (h1.symm.trans (hovr.trans h0)) nofun
    · exact (hd.ovr h1).resolve_left fun hs => absurd (h0.symm.trans hs) nofun

/-! ### The loop decision -/

/-- The registers at the loop decision of a turn: as before it, but for what its transaction wrote
(R110, R112, R135, R140). -/
inductive AtLoopDecision (w : World) (s : State) : Cbseq → Prop
  | poll (hp : s.cb.ph = .poll) :
    AtLoopDecision w s (s.cb.sample (busAnswer w s w.params.ctrlAddr))
  | probe (hp : s.cb.ph = .data) (hk : s.cb.opk = .waitrdy) :
    AtLoopDecision w s { s.cb with
      w := busAnswer w s w.params.dataAddr
      ready := readyAfter s.cb.ready (busAnswer w s w.params.dataAddr) }
  | pop (hp : s.cb.ph = .data) (hk : s.cb.opk = .xferrd) :
    AtLoopDecision w s { s.cb with w := busAnswer w s w.params.dataAddr }
  | push (hp : s.cb.ph = .data) (hk : s.cb.opk = .xferwr) : AtLoopDecision w s s.cb
  | store (k : Fin 4) (hp : s.cb.ph = .mem k) (hk : s.cb.opk = .xferrd) :
    AtLoopDecision w s s.cb.countWord

theorem AtLoopDecision.stat {w : World} {s : State} {c : Cbseq} (h : AtLoopDecision w s c) :
    c.stat = s.cb.stat := by
  cases h <;> rfl

/-- How a loop decision at the registers `c` goes (R111, R112, R135): on to a phase, to `complete` where
the sample has BUSY clear, to Timeout at the poll bound. -/
inductive Decided (p : Params) (c : Cbseq) : Cbseq → Prop
  | goto (x : Phase) : Decided p c (c.goto x)
  | complete (hb : isBusy p c.s = false) : Decided p c c.complete
  | timeout (hl : p.pollLimit = some c.n) : Decided p c (c.raise .timeout)

theorem boundThen_decided (p : Params) (x : Phase) (c : Cbseq) : Decided p c (c.boundThen p x) := by
  rw [boundThen_eq]
  split
  · next hl => exact .timeout hl
  · exact .goto x

theorem waitDecision_decided (p : Params) (c : Cbseq) : Decided p c (waitDecision p c) := by
  unfold waitDecision
  split
  · exact boundThen_decided p _ c
  · next hb =>
    split
    · exact .complete (by simpa using hb)
    · exact boundThen_decided p _ c

theorem transferDecision_decided (p : Params) (c : Cbseq) : Decided p c (transferDecision p c) := by
  unfold transferDecision
  split
  · exact boundThen_decided p _ c
  · next hb => exact .complete (by simpa using hb)

/-- A turn leaves STAT alone or comes to a loop decision. -/
theorem Turned.stat_or_decided {w : World} {s t : State} (h : Turned w s t) :
    t.cb.stat = s.cb.stat ∨ ∃ c, AtLoopDecision w s c ∧ Decided w.params c t.cb := by
  cases h with
  | waitPoll hp hk =>
    simp only [State.mapCb_cb, State.record_cb]
    split
    · exact .inl rfl
    · exact .inr ⟨_, .poll hp, waitDecision_decided _ _⟩
  | readPoll hp hk =>
    simp only [State.mapCb_cb, State.record_cb]
    split
    · exact .inl rfl
    · exact .inr ⟨_, .poll hp, transferDecision_decided _ _⟩
  | writePoll hp hk =>
    simp only [State.mapCb_cb, State.record_cb]
    split
    · left; unfold chooseWord; split <;> rfl
    · exact .inr ⟨_, .poll hp, transferDecision_decided _ _⟩
  | waitData hp hk => exact .inr ⟨_, .probe hp hk, waitDecision_decided _ _⟩
  | readData hp hk =>
    simp only [State.mapCb_cb, State.record_cb]
    unfold takeWord
    split
    · exact .inl rfl
    · exact .inr ⟨_, .pop hp hk, transferDecision_decided _ _⟩
  | writeData hp hk => exact .inr ⟨_, .push hp hk, transferDecision_decided _ _⟩
  | storeWord k hp hk ha hs hb => exact .inr ⟨_, .store k hp hk, transferDecision_decided _ _⟩
  | storeByte k hp hk ha hb =>
    simp only [State.mapCb_cb, State.record_cb, State.setMem_cb]
    unfold afterStoreByte
    split
    · exact .inl rfl
    · exact .inr ⟨_, .store k hp hk, transferDecision_decided _ _⟩
  | loadByte k hp hk ha hb =>
    simp only [State.mapCb_cb, State.record_cb]
    unfold afterLoadByte
    split <;> exact .inl rfl
  | _ => exact .inl rfl

/-! ### Timeout -/

/-- A turn that sets TMO came to a loop decision at the poll bound (R181). -/
theorem Turned.timedOut {w : World} {s t : State} (h : Turned w s t)
    (h0 : s.cb.stat.tmo = false) (h1 : t.cb.stat.tmo = true) :
    ∃ c, AtLoopDecision w s c ∧ w.params.pollLimit = some c.n ∧ t.cb = c.raise .timeout := by
  rcases h.stat_or_decided with hstat | ⟨c, hc, hd⟩
  · simp [hstat, h0] at h1
  · refine ⟨c, hc, ?_⟩
    have hclear : c.stat.tmo = false := hc.stat ▸ h0
    generalize t.cb = d at hd h1 ⊢
    cases hd with
    | goto x => simp [hclear] at h1
    | complete hb => simp [hclear] at h1
    | timeout hl => exact ⟨hl, rfl⟩

/-- Settles O47: no input sets TMO, a turn does so at a loop decision, and the registers there are given
by the phase. -/
theorem timeoutEndsOperation : Obligations.TimeoutEndsOperation := by
  intro w s t h h0 h1
  rcases stepIn_next h with ⟨_, hturn⟩ | ⟨x, ps, hin, hd⟩
  · obtain ⟨c, hc, hl, hcb⟩ := hturn.timedOut h0 h1
    rw [hcb]
    refine ⟨hl, c, ?_, ?_⟩
    · simp only [Cbseq.raise, hc.stat]
      rfl
    · cases hc with
      | poll hp => exact .inl ⟨hp, rfl⟩
      | probe hp hk => exact .inr (.inl ⟨hp, hk, by rw [readyAfter_eq]; rfl⟩)
      | pop hp hk => exact .inr (.inr (.inl ⟨hp, hk, rfl⟩))
      | push hp hk => exact .inr (.inr (.inr (.inl ⟨hp, hk, rfl⟩)))
      | store k hp hk => exact .inr (.inr (.inr (.inr ⟨⟨k, hp⟩, hk, rfl⟩)))
  · exact absurd (h0.symm.trans (hd.tmo h1)) nofun

/-- Settles O49: a turn that memory does not stop goes on; without a poll limit its loop decision, if it
comes to one, goes on or completes. -/
theorem unboundedOperationNeverGivesUp : Obligations.UnboundedOperationNeverGivesUp := by
  intro w s hi hr hl hno
  obtain ⟨hanswers, -⟩ := blockTurnStopsAtUnbackedMemoryOnly w s hi
  obtain ⟨t, ht⟩ := hanswers hno
  refine ⟨t, ht, ?_⟩
  rcases (blockTurn_next ht).stat_or_decided with hstat | ⟨c, hc, hd⟩
  · exact ⟨congrArg Stat.tmo hstat, .inl (hstat ▸ hr)⟩
  · rw [← hc.stat] at hr ⊢
    generalize t.cb = d at hd ⊢
    cases hd with
    | goto x => exact ⟨rfl, .inl hr⟩
    | complete hb => exact ⟨rfl, .inr ⟨rfl, rfl, hb⟩⟩
    | timeout hlim => exact absurd (hl.symm.trans hlim) nofun

end Sys2Proof.Machine
end

section
/-!
PROOFS. Reset of a running operation (spec/70_reset_and_hazards.md R200, R201): the step of the reset
leaves an idle block, and an idle block with no input to come takes no further step.
-/

namespace Sys2Proof.Machine

open Sys2Proof.Safety

/-- A run goes on from the state in which its first step ends. -/
theorem runIn_succ_of_next {w : World} {s t : State} (k : Nat) (h : stepIn w s = .next t) :
    runIn w (k + 1) s = runIn w k t := by
  simp only [runIn, h]

/-- A due reset with no input after it: every longer run ends where the step of the reset did. -/
theorem runIn_reset {w : World} {s : State} (k : Nat) (h : s.inputs = [⟨0, .reset⟩]) :
    runIn w (k + 1) s = .next (resetBlock (s.setInputs [])) :=
  (runIn_succ_of_next k (stepIn_reset w h)).trans (idleBlockStaysIdle w k _ rfl rfl)

/-- Settles O18: the reset puts RUN and PH to rest and enters in the record no transaction of port B or
port M, and no step after it changes anything. -/
theorem resetAbandonsOperation : Obligations.ResetAbandonsOperation := by
  intro w s k hin
  have htrace : blockTrace (resetBlock (s.setInputs [])).trace = blockTrace s.trace :=
    blockTrace_cons_reset s.trace
  exact ⟨_, runIn_reset k hin, htrace, rfl, rfl⟩

end Sys2Proof.Machine
end
